-- ==== Sys2Proof/Word.lean ====
section
/-! DEFINITION. The word types of Sleipnir CORE (spec/00_scope.md R10, R12). -/

namespace Sys2Proof

/-- One byte of a wire stream, a frame, a body or a register field (R12). -/
abbrev Byte := BitVec 8

/-- A host command word (30_encoding.md R114). -/
abbrev CommandWord := BitVec 16

/-- A 32-bit CSR, counter or field descriptor word (10_state.md R43, 30_encoding.md R112). -/
abbrev Word := BitVec 32

end Sys2Proof
end

