-- ==== Sys2Proof/Config.lean ====
section
/-! DEFINITION. What an implementation fixes: the parameters BUF_CAP, RXQ_DEPTH, REG and CSR_BASE
(spec/00_scope.md R7 to R9, 20_memory.md R79) and the record forms of the registry
(41_registry.md R200 to R203). The checks and look-ups on them are in Machine/Registry.lean. -/

namespace Sys2Proof

/-- The nine field kinds, each with the descriptor data that only it has (R203): an ENUM's value
set, a fixed-point field's BASE and EXP. -/
inductive FieldKind where
  | uint
  | sint
  | f32
  | f64
  | blob
  | enum (set : List Nat)
  | flags
  | fixu (base : Nat) (exp : Int)
  | fixs (base : Nat) (exp : Int)
deriving DecidableEq, Repr

/-- A field descriptor (R203). `size` is the width in bits, or the byte count of a BLOB.
`name` is informative only: no rule reads it. -/
structure FieldDesc where
  name : String
  kind : FieldKind
  size : Nat
deriving DecidableEq, Repr

/-- A layout (R202): its declared lengths are in bits and cover the body only. -/
inductive Layout where
  | fixed (fields : List FieldDesc) (bits : Nat)
  | array (header : List FieldDesc) (headerBits countIdx : Nat)
      (sub : List FieldDesc) (subBits : Nat)
deriving DecidableEq, Repr

/-- A registry entry (R201): the inbound and the outbound layout; `none` is the spec's NONE.
`name` is informative only. -/
structure Entry where
  name : String
  inLayout : Option Layout
  outLayout : Option Layout
deriving DecidableEq, Repr

/-- The parameters of one instance, which the spec leaves open and the model takes as an argument
(R7 to R9). `registry` lists the filled slots of the 256-slot table by rising type byte; an
unlisted slot is EMPTY (R200). `enumSets` is the enum-set table that the AUX field of a packed ENUM
descriptor indexes (R112). No rule reads `csrBase` (R79). -/
structure Config where
  bufCap : Nat
  rxqDepth : Nat
  csrBase : Nat
  registry : List (Byte × Entry)
  enumSets : List (List Nat)
deriving DecidableEq, Repr

/-- The build-time integrity checks I1 to I9 (R207 to R212). -/
inductive CheckCode where
  | i1 | i2 | i3 | i4 | i5 | i6 | i7 | i8 | i9
deriving DecidableEq, Repr

/-- The part of an entry that a defect is named for (R213): IN, OUT, header or sub. -/
inductive LayoutPart where
  | inbound | outbound | header | sub
deriving DecidableEq, Repr

/-- A failed integrity check, named as R213 asks: the entry (type byte), the layout, the field index
and the check code. `none` where the check is about the whole entry or the whole layout. -/
structure IntegrityError where
  type : Byte
  part : Option LayoutPart
  field : Option Nat
  code : CheckCode
deriving DecidableEq, Repr

/-- Why a configuration is refused: a parameter outside its range (R7, R8), a registry listing out of
the model's order, a registry without the entry of R216 (R9), or a failed integrity check (R213). -/
inductive ConfigDefect where
  | bufCapRange
  | rxqDepthRange
  | registryOrder
  | measTimeEntry
  | integrity (e : IntegrityError)
deriving DecidableEq, Repr

end Sys2Proof
end

