-- ==== Sys2Proof/Syntax.lean ====
section
/-! DEFINITION. The operations of Sleipnir CORE: one constructor of `Instr` per row of
spec/opcode_table.json, with the operand record the row's rule gives it, and the requests that
agents issue (00_scope.md R6, 30_encoding.md R114 to R119). -/

namespace Sys2Proof

/-- A tagged field value (42_codec.md R241). The numbers are mathematical integers, so that a value
out of its range can be supplied to the encoder, which answers E_ENC_RANGE (R258 to R266). -/
inductive FieldValue where
  | u (w : Nat) (n : Int)
  | s (w : Nat) (i : Int)
  | f32 (b : Int)
  | f64 (b : Int)
  | blob (bs : List Byte)
  | e (w : Nat) (n : Int)
  | fl (w : Nat) (n : Int)
  | fxu (w : Nat) (n : Int) (base : Nat) (exp : Int)
  | fxs (w : Nat) (i : Int) (base : Nat) (exp : Int)
deriving DecidableEq, Repr

/-- A message value (42_codec.md R240). -/
structure MsgValue where
  type : Byte
  fields : List FieldValue
  items : Option (List (List FieldValue))
deriving DecidableEq, Repr

/-- The KIND codes 0x0 to 0x8 of a descriptor word (30_encoding.md R111). -/
inductive KindCode where
  | uint | sint | f32 | f64 | blob | enum | flags | fixu | fixs
deriving DecidableEq, Repr

/-- The bits of a field descriptor word above KIND (30_encoding.md R112), kept whole so that no bit of
a word is lost before check I3 is made. -/
structure DescBits where
  size : BitVec 12
  aux : BitVec 8
  base : BitVec 1
  rsvd : BitVec 7
deriving DecidableEq, Repr

/-- What a field descriptor is applied to: FieldDecode at bit offset `o` of a body, or FieldEncode of
one value (42_codec.md R245 to R266). -/
inductive FieldOp where
  | decode (body : List Byte) (o : Nat)
  | encode (v : FieldValue)
deriving DecidableEq, Repr

/-- One constructor per row of spec/opcode_table.json: the eight host operations (CMD16), the five
outcomes of the type-byte dispatch (FRAME_TYPE8) with the received body, and the nine field kinds
(DESC32). -/
inductive Instr where
  | feedByte (b : Byte)
  | getMsg
  | sendCmd (t : Byte) (vals : List FieldValue)
  | waitAck
  | abandon
  | decodeMsg (t : Byte) (body : List Byte)
  | encodeMsg (t : Byte) (vals : List FieldValue)
  | csrRead (i : Byte)
  | frameAck (body : List Byte)
  | frameNack (body : List Byte)
  | frameMeasTime (body : List Byte)
  | frameRegistered (t : Byte) (body : List Byte)
  | frameUnknown (t : Byte) (body : List Byte)
  | fieldUint (d : DescBits) (op : FieldOp)
  | fieldSint (d : DescBits) (op : FieldOp)
  | fieldF32 (d : DescBits) (op : FieldOp)
  | fieldF64 (d : DescBits) (op : FieldOp)
  | fieldBlob (d : DescBits) (op : FieldOp)
  | fieldEnum (d : DescBits) (op : FieldOp)
  | fieldFlags (d : DescBits) (op : FieldOp)
  | fieldFixu (d : DescBits) (op : FieldOp)
  | fieldFixs (d : DescBits) (op : FieldOp)
deriving DecidableEq, Repr

/-- An instruction as its words and its operand record: a command word with the operand channel's
record (R114, R117), a received type byte with its body (R103), or a descriptor word with its
operand (R112). -/
inductive Encoded where
  | command (word : CommandWord) (vals : List FieldValue) (body : List Byte)
  | frame (t : Byte) (body : List Byte)
  | descriptor (word : Word) (op : FieldOp)
deriving DecidableEq, Repr

/-- The agents that issue operations (00_scope.md R6). The egress agent takes no operation of its own:
it receives `State.txs`. -/
inductive Agent where
  | ingress | consumer | commander | canceller | observer | reset
deriving DecidableEq, Repr

/-- What an agent issues: a command word with its operand record, the pseudo-operation SEND_AND_WAIT
(43_host_ops.md R310), or the reset agent's input (70_reset_and_hazards.md R390). An operation takes
its own record form from the two lists, so a record of the wrong form cannot be expressed (R300). -/
inductive Request where
  | command (word : CommandWord) (vals : List FieldValue) (body : List Byte)
  | sendAndWait (t : Byte) (vals : List FieldValue)
  | reset
deriving DecidableEq, Repr

end Sys2Proof
end

