-- ==== Sys2Proof/Machine/Registry.lean ====
section
/-! DEFINITION. The Message Type Registry (spec/41_registry.md): widths, look-ups, the build-time
integrity check, the packed descriptor word's meaning, and the one catalog entry the spec gives. -/

namespace Sys2Proof.Machine

/-- ACK_ID (00_scope.md R10). -/
def ackId : Byte := 0x83

/-- NACK_ID (00_scope.md R10). -/
def nackId : Byte := 0x84

/-- The type byte of "measurement time information" (R216). -/
def measTimeId : Byte := 0xDC

/-- The longest body in bytes: a payload of 65535 bytes less the type byte (20_memory.md R70). -/
def maxBody : Nat := 65534

/-- `width(f)` (R203). -/
def fieldWidth (f : FieldDesc) : Nat :=
  match f.kind with
  | .uint => f.size
  | .sint => f.size
  | .f32 => 32
  | .f64 => 64
  | .blob => 8 * f.size
  | .enum _ => f.size
  | .flags => f.size
  | .fixu _ _ => f.size
  | .fixs _ _ => f.size

/-- The sum of `width(f)` over a field list (R207). -/
def widthSum : List FieldDesc → Nat
  | [] => 0
  | f :: fs => fieldWidth f + widthSum fs

/-- `REG[T]`: the entry of a slot, or EMPTY (R200). -/
def findEntry : List (Byte × Entry) → Byte → Option Entry
  | [], _ => none
  | (t', e) :: rest, t => if t' = t then some e else findEntry rest t

/-- `InLayout(T)` (R205). -/
def inLayout (c : Config) (t : Byte) : Option Layout :=
  match findEntry c.registry t with
  | none => none
  | some e => e.inLayout

/-- `OutLayout(T)` (R206). -/
def outLayout (c : Config) (t : Byte) : Option Layout :=
  match findEntry c.registry t with
  | none => none
  | some e => e.outLayout

/-- The width limit of an integer-like field (00_scope.md R11). -/
abbrev widthOk (w : Nat) : Prop := 1 ≤ w ∧ w ≤ 64

/-- The BASE and EXP limits of a fixed-point field (R209). -/
abbrev scaleOk (base : Nat) (exp : Int) : Prop := (base = 2 ∨ base = 10) ∧ -128 ≤ exp ∧ exp ≤ 127

/-- Checks I3 and I4 on one field descriptor (R209, R210); `none` when it passes. A descriptor that fails
both is named for I3 (DESIGN CHOICE, log 9). -/
def fieldCheck (f : FieldDesc) : Option CheckCode :=
  match f.kind with
  | .uint => if widthOk f.size then none else some .i3
  | .sint => if widthOk f.size then none else some .i3
  | .f32 => if f.size = 32 then none else some .i3
  | .f64 => if f.size = 64 then none else some .i3
  | .blob => if 1 ≤ f.size ∧ f.size ≤ 4095 then none else some .i3
  | .enum set =>
    if widthOk f.size then
      if set ≠ [] ∧ ∀ v ∈ set, v < 2 ^ f.size then none else some .i4
    else some .i3
  | .flags => if widthOk f.size then none else some .i3
  | .fixu base exp => if widthOk f.size ∧ scaleOk base exp then none else some .i3
  | .fixs base exp => if widthOk f.size ∧ scaleOk base exp then none else some .i3

/-- The defects of a field list, each with its field index (R213). -/
def fieldErrors (t : Byte) (part : LayoutPart) : Nat → List FieldDesc → List IntegrityError
  | _, [] => []
  | i, f :: fs =>
    match fieldCheck f with
    | none => fieldErrors t part (i + 1) fs
    | some c => ⟨t, some part, some i, c⟩ :: fieldErrors t part (i + 1) fs

/-- `[⟨t, part, field, c⟩]` where a check fails, `[]` where it passes. -/
def errorUnless (ok : Bool) (t : Byte) (part : Option LayoutPart) (field : Option Nat)
    (c : CheckCode) : List IntegrityError :=
  if ok then [] else [⟨t, part, field, c⟩]

/-- Check I7's condition on the count field: inside the header and of kind UINT (R212). -/
def countFieldOk (header : List FieldDesc) (idx : Nat) : Bool :=
  match header[idx]? with
  | none => false
  | some f => f.kind == .uint

/-- Checks I1 to I4, I7 and I8 on one layout (R207 to R210, R212). I7 is about the header field at the count
index, whose index it names. The order in which several failures are listed is a DESIGN CHOICE (log 9). -/
def layoutErrors (t : Byte) (part : LayoutPart) : Layout → List IntegrityError
  | .fixed fields bits =>
    fieldErrors t part 0 fields
      ++ errorUnless (widthSum fields == bits) t (some part) none .i1
      ++ errorUnless (bits % 8 == 0 && bits ≤ 8 * maxBody) t (some part) none .i2
  | .array header headerBits countIdx sub subBits =>
    fieldErrors t .header 0 header ++ fieldErrors t .sub 0 sub
      ++ errorUnless (widthSum header == headerBits) t (some .header) none .i1
      ++ errorUnless (widthSum sub == subBits) t (some .sub) none .i1
      ++ errorUnless (headerBits ≤ 8 * maxBody) t (some .header) none .i2
      ++ errorUnless (countFieldOk header countIdx) t (some .header) (some countIdx) .i7
      ++ errorUnless (!sub.isEmpty) t (some .sub) none .i8

/-- Check I6: OUT is never an ARRAY layout (R212). -/
def outIsFixed : Option Layout → Bool
  | some (.array ..) => false
  | _ => true

/-- The layout errors of a direction that may be NONE. -/
def directionErrors (t : Byte) (part : LayoutPart) : Option Layout → List IntegrityError
  | none => []
  | some lay => layoutErrors t part lay

/-- Every check of one entry: I5 and I9 (R211), I6 (R212) and its layouts', IN before OUT. The order in which
several failures are listed is a DESIGN CHOICE (log 9). -/
def entryErrors (t : Byte) (e : Entry) : List IntegrityError :=
  errorUnless (t != ackId && t != nackId) t none none .i5
    ++ errorUnless (e.inLayout.isSome || e.outLayout.isSome) t none none .i9
    ++ errorUnless (outIsFixed e.outLayout) t (some .outbound) none .i6
    ++ directionErrors t .inbound e.inLayout ++ directionErrors t .outbound e.outLayout

/-- Every failed integrity check of a registry, in slot order (R213). -/
def registryErrors : List (Byte × Entry) → List IntegrityError
  | [] => []
  | (t, e) :: rest => entryErrors t e ++ registryErrors rest

/-- The model's listing order of the filled slots: strictly rising type bytes. -/
def registrySorted : List (Byte × Entry) → Bool
  | [] => true
  | [_] => true
  | (t, _) :: (t', e') :: rest => t.toNat < t'.toNat && registrySorted ((t', e') :: rest)

/-- The inbound layout of type 0xDC (R216). -/
def measTimeLayout : Layout :=
  .fixed [⟨"iod", .uint, 8⟩, ⟨"receiver_wn", .uint, 16⟩, ⟨"receiver_tow", .uint, 32⟩,
    ⟨"measurement_period", .uint, 16⟩] 72

/-- The registry entry of type 0xDC (R216). -/
def measTimeEntry : Entry := ⟨"measurement time information", some measTimeLayout, none⟩

/-- A field list without its informative names (R203: no rule reads NAME). -/
def fieldShapes (fs : List FieldDesc) : List (FieldKind × Nat) := fs.map fun f => (f.kind, f.size)

/-- Whether an entry is R216's, its informative names apart (R9). -/
def isMeasTimeEntry (e : Entry) : Bool :=
  match e.inLayout, e.outLayout with
  | some (.fixed fields bits), none =>
    fieldShapes fields == [(.uint, 8), (.uint, 16), (.uint, 32), (.uint, 16)] && bits == 72
  | _, _ => false

/-- Whether REG[0xDC] is the entry of R216 (R9). -/
def hasMeasTime (c : Config) : Bool :=
  match findEntry c.registry measTimeId with
  | none => false
  | some e => isMeasTimeEntry e

/-- Everything wrong with a configuration (R7 to R9, R213); a configuration is legal when this is
empty. -/
def configDefects (c : Config) : List ConfigDefect :=
  (if 8 ≤ c.bufCap ∧ c.bufCap < 2 ^ 32 then [] else [.bufCapRange])
    ++ (if 1 ≤ c.rxqDepth ∧ c.rxqDepth < 2 ^ 32 then [] else [.rxqDepthRange])
    ++ (if registrySorted c.registry then [] else [.registryOrder])
    ++ (registryErrors c.registry).map .integrity
    ++ (if hasMeasTime c then [] else [.measTimeEntry])

/-- A configuration that an instance can be built with (R213, R354). -/
abbrev Legal (c : Config) : Prop := configDefects c = []

/-- The scale base of a packed fixed-point descriptor: BASE 0 is 2, BASE 1 is 10 (R112). -/
def scaleBase (b : BitVec 1) : Nat := if b = 0 then 2 else 10

/-- The value set a packed ENUM descriptor names: AUX indexes the enum-set table (R112). An index
beyond the table names no set, which check I4 refuses. -/
def enumSetOf (enumSets : List (List Nat)) (aux : Byte) : List Nat := enumSets.getD aux.toNat []

/-- The kind of a packed descriptor with its data (R112). -/
def kindOf (enumSets : List (List Nat)) (k : KindCode) (d : DescBits) : FieldKind :=
  match k with
  | .uint => .uint
  | .sint => .sint
  | .f32 => .f32
  | .f64 => .f64
  | .blob => .blob
  | .enum => .enum (enumSetOf enumSets d.aux)
  | .flags => .flags
  | .fixu => .fixu (scaleBase d.base) d.aux.toInt
  | .fixs => .fixs (scaleBase d.base) d.aux.toInt

/-- Whether the bits that the packing table leaves 0 for a kind are 0 (R112, R209). -/
def unusedBitsZero (k : KindCode) (d : DescBits) : Bool :=
  match k with
  | .enum => d.base == 0 && d.rsvd == 0
  | .fixu => d.rsvd == 0
  | .fixs => d.rsvd == 0
  | _ => d.aux == 0 && d.base == 0 && d.rsvd == 0

/-- The field descriptor a packed word stands for (R112), or the check it fails (R209, R210). A word
carries no name. -/
def descOf (enumSets : List (List Nat)) (k : KindCode) (d : DescBits) :
    Except CheckCode FieldDesc :=
  if unusedBitsZero k d then
    match fieldCheck ⟨"", kindOf enumSets k d, d.size.toNat⟩ with
    | none => .ok ⟨"", kindOf enumSets k d, d.size.toNat⟩
    | some c => .error c
  else .error .i3

/-- The parameters `State.reset` runs with. DESIGN CHOICE (log 1): the spec leaves BUF_CAP, RXQ_DEPTH
and REG open; the two capacities and the enum-set table are those of its test vectors
(95_test_vectors.md), and the registry holds the one entry the spec gives (R216) and nothing else. -/
def defaultConfig : Config :=
  { bufCap := 70000, rxqDepth := 4, csrBase := 0,
    registry := [(measTimeId, measTimeEntry)], enumSets := [[0, 1, 2]] }

end Sys2Proof.Machine
end

