-- ==== Sys2Proof/WellFormed.lean ====
section
/-! DEFINITION. Which terms of `Instr` are well formed: the type byte of a frame row selects that row
(30_encoding.md R108), a descriptor word passes checks I3 and I4 (41_registry.md R209, R210), and a
field is read within its body (20_memory.md R75). Every host operation is well formed. -/

namespace Sys2Proof

open Sys2Proof.Machine

/-- The descriptor passes its checks, and a read of the field stays inside the body. -/
def fieldWellFormed (c : Config) (k : KindCode) (d : DescBits) (op : FieldOp) : Bool :=
  match descOf c.enumSets k d with
  | .error _ => false
  | .ok f =>
    match op with
    | .decode body o => o + fieldWidth f ≤ 8 * body.length
    | .encode _ => true

/-- A type byte that the dispatch tests of R108 pass on to the registry. -/
def ordinaryType (t : Byte) : Bool := t != ackId && t != nackId && t != measTimeId

/-- Well-formed instructions of a configuration. -/
def WellFormed (c : Config) (i : Instr) : Bool :=
  match i with
  | .feedByte _ => true
  | .getMsg => true
  | .sendCmd _ _ => true
  | .waitAck => true
  | .abandon => true
  | .decodeMsg _ _ => true
  | .encodeMsg _ _ => true
  | .csrRead _ => true
  | .frameAck _ => true
  | .frameNack _ => true
  | .frameMeasTime _ => true
  | .frameRegistered t _ => ordinaryType t && (inLayout c t).isSome
  | .frameUnknown t _ => ordinaryType t && (inLayout c t).isNone
  | .fieldUint d op => fieldWellFormed c .uint d op
  | .fieldSint d op => fieldWellFormed c .sint d op
  | .fieldF32 d op => fieldWellFormed c .f32 d op
  | .fieldF64 d op => fieldWellFormed c .f64 d op
  | .fieldBlob d op => fieldWellFormed c .blob d op
  | .fieldEnum d op => fieldWellFormed c .enum d op
  | .fieldFlags d op => fieldWellFormed c .flags d op
  | .fieldFixu d op => fieldWellFormed c .fixu d op
  | .fieldFixs d op => fieldWellFormed c .fixs d op

end Sys2Proof
end

