-- ==== Sys2Proof/Decode.lean ====
section
/-! DEFINITION. The decoder and the encoder of the three formats of spec/30_encoding.md: the 16-bit
command word (R114 to R116), the type byte of a received frame (R108), and the 32-bit field
descriptor word (R111, R112). Decoding is total and rejects by name. -/

namespace Sys2Proof

open Sys2Proof.Machine

/-- Why bits stand for no instruction (30_encoding.md R116, R111). -/
inductive DecodeError where
  /-- OP = 0x0 or OP in 0x9 to 0xF. -/
  | reservedOp
  /-- Bits 11:8 of a command word are not 0. -/
  | nonzeroZ
  /-- IMM8 is not 0x00 for GET_MSG, WAIT_ACK or ABANDON. -/
  | nonzeroImm
  /-- KIND code 0x9 to 0xF, with the check that a descriptor of such a code fails: I3. -/
  | reservedKind (check : CheckCode)
deriving DecidableEq, Repr

/-- OP, bits 15:12 of a command word (R114). -/
def opField (w : CommandWord) : BitVec 4 := w.extractLsb' 12 4

/-- Bits 11:8 of a command word, which must be 0 (R114). -/
def zField (w : CommandWord) : BitVec 4 := w.extractLsb' 8 4

/-- IMM8, bits 7:0 of a command word (R114). -/
def immField (w : CommandWord) : Byte := w.extractLsb' 0 8

/-- An operation that takes no immediate: IMM8 must be 0x00 (R116). -/
def noImm (w : CommandWord) (i : Instr) : Except DecodeError Instr :=
  if immField w = 0 then .ok i else .error .nonzeroImm

/-- The host operation of a command word and its operand record (R115, R300). The tests are made in
the order of R300: OP, then bits 11:8, then IMM8. -/
def decodeCommand (w : CommandWord) (vals : List FieldValue) (body : List Byte) :
    Except DecodeError Instr :=
  if opField w = 0 ∨ 8 < (opField w).toNat then .error .reservedOp
  else if zField w ≠ 0 then .error .nonzeroZ
  else
    match (opField w).toNat with
    | 1 => .ok (.feedByte (immField w))
    | 2 => noImm w .getMsg
    | 3 => .ok (.sendCmd (immField w) vals)
    | 4 => noImm w .waitAck
    | 5 => noImm w .abandon
    | 6 => .ok (.decodeMsg (immField w) body)
    | 7 => .ok (.encodeMsg (immField w) vals)
    | 8 => .ok (.csrRead (immField w))
    | _ => .error .reservedOp

/-- The five outcomes of the type-byte dispatch (R108). -/
inductive FrameRow where
  | ack | nack | measTime | registered | unknown
deriving DecidableEq, Repr

/-- The row a type byte selects, in the order of R108 and 40_reassembler.md R151. -/
def frameRow (c : Config) (t : Byte) : FrameRow :=
  if t = ackId then .ack
  else if t = nackId then .nack
  else if t = measTimeId then .measTime
  else if (inLayout c t).isSome then .registered
  else .unknown

/-- The dispatch of a checksum-valid frame with type byte `t` (R108). The map is total. -/
def decodeFrame (c : Config) (t : Byte) (body : List Byte) : Instr :=
  match frameRow c t with
  | .ack => .frameAck body
  | .nack => .frameNack body
  | .measTime => .frameMeasTime body
  | .registered => .frameRegistered t body
  | .unknown => .frameUnknown t body

/-- KIND, bits 3:0 of a descriptor word (R112). -/
def kindField (w : Word) : BitVec 4 := w.extractLsb' 0 4

/-- The bits of a descriptor word above KIND (R112). -/
def descField (w : Word) : DescBits :=
  { size := w.extractLsb' 4 12, aux := w.extractLsb' 16 8, base := w.extractLsb' 24 1,
    rsvd := w.extractLsb' 25 7 }

/-- The field kind of a KIND code (R111); 0x9 to 0xF are reserved. -/
def kindOfCode (k : BitVec 4) : Option KindCode :=
  match k.toNat with
  | 0 => some .uint
  | 1 => some .sint
  | 2 => some .f32
  | 3 => some .f64
  | 4 => some .blob
  | 5 => some .enum
  | 6 => some .flags
  | 7 => some .fixu
  | 8 => some .fixs
  | _ => none

/-- The instruction of a field kind. -/
def fieldInstr (k : KindCode) (d : DescBits) (op : FieldOp) : Instr :=
  match k with
  | .uint => .fieldUint d op
  | .sint => .fieldSint d op
  | .f32 => .fieldF32 d op
  | .f64 => .fieldF64 d op
  | .blob => .fieldBlob d op
  | .enum => .fieldEnum d op
  | .flags => .fieldFlags d op
  | .fixu => .fieldFixu d op
  | .fixs => .fieldFixs d op

/-- The field kind of a descriptor word with its operand (R111, R112). A reserved KIND fails check I3. -/
def decodeDescriptor (w : Word) (op : FieldOp) : Except DecodeError Instr :=
  match kindOfCode (kindField w) with
  | none => .error (.reservedKind .i3)
  | some k => .ok (fieldInstr k (descField w) op)

/-- The instruction that words and an operand record stand for. The registry says which type bytes are
FRAME_REGISTERED and which FRAME_UNKNOWN (R108). -/
def decode (c : Config) (x : Encoded) : Except DecodeError Instr :=
  match x with
  | .command w vals body => decodeCommand w vals body
  | .frame t body => .ok (decodeFrame c t body)
  | .descriptor w op => decodeDescriptor w op

/-! ### The encoder, from the same tables -/

/-- A command word of OP and IMM8, bits 11:8 zero (R114). -/
def commandWord (op : BitVec 4) (imm : Byte) : CommandWord := op ++ (0 : BitVec 4) ++ imm

/-- The KIND code of a field kind (R111). -/
def kindCodeBits : KindCode → BitVec 4
  | .uint => 0
  | .sint => 1
  | .f32 => 2
  | .f64 => 3
  | .blob => 4
  | .enum => 5
  | .flags => 6
  | .fixu => 7
  | .fixs => 8

/-- A descriptor word (R112): reserved, BASE, AUX, SIZE, KIND from bit 31 down. -/
def descriptorWord (k : KindCode) (d : DescBits) : Word :=
  d.rsvd ++ d.base ++ d.aux ++ d.size ++ kindCodeBits k

/-- The words and the operand record of an instruction. -/
def encode (i : Instr) : Encoded :=
  match i with
  | .feedByte b => .command (commandWord 1 b) [] []
  | .getMsg => .command (commandWord 2 0) [] []
  | .sendCmd t vals => .command (commandWord 3 t) vals []
  | .waitAck => .command (commandWord 4 0) [] []
  | .abandon => .command (commandWord 5 0) [] []
  | .decodeMsg t body => .command (commandWord 6 t) [] body
  | .encodeMsg t vals => .command (commandWord 7 t) vals []
  | .csrRead i => .command (commandWord 8 i) [] []
  | .frameAck body => .frame ackId body
  | .frameNack body => .frame nackId body
  | .frameMeasTime body => .frame measTimeId body
  | .frameRegistered t body => .frame t body
  | .frameUnknown t body => .frame t body
  | .fieldUint d op => .descriptor (descriptorWord .uint d) op
  | .fieldSint d op => .descriptor (descriptorWord .sint d) op
  | .fieldF32 d op => .descriptor (descriptorWord .f32 d) op
  | .fieldF64 d op => .descriptor (descriptorWord .f64 d) op
  | .fieldBlob d op => .descriptor (descriptorWord .blob d) op
  | .fieldEnum d op => .descriptor (descriptorWord .enum d) op
  | .fieldFlags d op => .descriptor (descriptorWord .flags d) op
  | .fieldFixu d op => .descriptor (descriptorWord .fixu d) op
  | .fieldFixs d op => .descriptor (descriptorWord .fixs d) op

/-! ### The opcode table's numbering -/

/-- Zero bytes for every whole or part byte of a bit count. -/
def zeroBody (bits : Nat) : List Byte := List.replicate ((bits + 7) / 8) 0

/-- The operand of zeros of a frame row: as many zero bytes as the type's inbound layout needs at
least, none for a type without one. -/
def zeroFrameBody (c : Config) (t : Byte) : List Byte :=
  match inLayout c t with
  | none => []
  | some (.fixed _ bits) => zeroBody bits
  | some (.array _ headerBits _ _ _) => zeroBody headerBits

/-- The width in bits of a packed descriptor, before any check (41_registry.md R203). -/
def packedWidth (k : KindCode) (d : DescBits) : Nat := fieldWidth ⟨"", kindOf [] k d, d.size.toNat⟩

/-- The operand of zeros of a descriptor row: decode a body of zero bytes that holds the field. -/
def zeroFieldOp (w : Word) : FieldOp :=
  match kindOfCode (kindField w) with
  | none => .decode [] 0
  | some k => .decode (zeroBody (packedWidth k (descField w))) 0

/-- The words of an opcode-table row: 16 bits are a command word, 8 bits a type byte, 32 bits a
descriptor word. The table gives the operand record no bits: it is the record of zeros, which for a
field-value list and a DECODE body is the empty one. -/
def tableEncoded (c : Config) (nbits w : Nat) : Option Encoded :=
  if nbits = 16 ∧ w < 2 ^ 16 then some (.command (BitVec.ofNat 16 w) [] [])
  else if nbits = 8 ∧ w < 2 ^ 8 then
    some (.frame (BitVec.ofNat 8 w) (zeroFrameBody c (BitVec.ofNat 8 w)))
  else if nbits = 32 ∧ w < 2 ^ 32 then
    some (.descriptor (BitVec.ofNat 32 w) (zeroFieldOp (BitVec.ofNat 32 w)))
  else none

/-- The instruction the decoder reads from a word of the opcode table, under the registry that
`State.reset` runs with. -/
def decodeTableWord (nbits w : Nat) : Option Instr :=
  match tableEncoded defaultConfig nbits w with
  | none => none
  | some x =>
    match decode defaultConfig x with
    | .error _ => none
    | .ok i => some i

end Sys2Proof
end

