-- ==== Sys2Proof/Machine/State.lean ====
section
/-! DEFINITION. The state of one Sleipnir CORE instance (spec/10_state.md R30 to R38), what a step can
stop on, the status codes (60_exceptions.md R350) and the state after reset (70_reset_and_hazards.md
R390). -/

namespace Sys2Proof.Machine

/-- The status codes other than OK (60_exceptions.md R350). -/
inductive StatusCode where
  | eCksum | eEmpty | eUnknownType | eDecLength | eDecEnum | eDecCount | eRxqFull
  | eEncNoLayout | eEncShape | eEncRange | eBusy | eNotPending | eIllegalOp | eCsrAddr
deriving DecidableEq, Repr

/-- ACK.KIND (10_state.md R33): 0 is ACK, 1 is NACK. -/
inductive AckKind where
  | ack | nack
deriving DecidableEq, Repr

/-- The ack/nack latch (10_state.md R33). -/
structure AckLatch where
  valid : Bool
  kind : AckKind
  echoValid : Bool
  echo : Byte
deriving DecidableEq, Repr

/-- The latch with every field 0: its reset value and what clears it (R33). -/
def AckLatch.clear : AckLatch := ⟨false, .ack, false, 0⟩

/-- The outbound command state (10_state.md R34). -/
structure CmdState where
  pending : Bool
  type : Byte
deriving DecidableEq, Repr

/-- The record of the most recent dropped frame (10_state.md R35). -/
structure LastDrop where
  code : Byte
  type : Byte
  typeValid : Bool
deriving DecidableEq, Repr

/-- The names of the thirteen diagnostic counters (10_state.md R50), CSR indices 0x10 to 0x1C. -/
inductive CounterId where
  | rxBytes | framesOk | cksumErr | empty | unknown | decodeErr | delivered | rxqDrop
  | ack | nack | evict | txFrames | hostErr
deriving DecidableEq, Repr

/-- The thirteen 32-bit counters (10_state.md R37, R50). -/
structure Counters where
  rxBytes : Word
  framesOk : Word
  cksumErr : Word
  empty : Word
  unknown : Word
  decodeErr : Word
  delivered : Word
  rxqDrop : Word
  ack : Word
  nack : Word
  evict : Word
  txFrames : Word
  hostErr : Word
deriving DecidableEq, Repr

/-- Every counter at 0 (R37). -/
def Counters.zero : Counters := ⟨0, 0, 0, 0, 0, 0, 0, 0, 0, 0, 0, 0, 0⟩

/-- The result value of an operation that ends in OK (30_encoding.md R115), or of a field codec
function (42_codec.md R245 to R266). -/
inductive OpResult where
  | unit
  | msg (v : MsgValue)
  | ack (kind : AckKind) (echoValid : Bool) (echo : Byte)
  | body (bs : List Byte)
  | csr (v : Word)
  | field (v : FieldValue)
  | bits (bs : List Bool)
deriving DecidableEq, Repr

/-- The three outcomes of an operation (00_scope.md R15); `none` before any operation has ended. -/
inductive OpOutcome where
  | none
  | ok (r : OpResult)
  | status (e : StatusCode)
  | hold
deriving DecidableEq, Repr

/-- The machine. `cfg` holds the parameters, which no operation writes (R38). `buf` to `cnt` are the
state tuple of R30, and `txs` is the egress log of R36. The last four fields are the model's own: what
each agent has issued and not yet completed, oldest first; the agents that move next, which makes an
interleaving plain data (20_memory.md R80); and the outcome last returned, with the agent that issued
the operation. -/
structure State where
  cfg : Config
  buf : List Byte
  rxq : List MsgValue
  ack : AckLatch
  cmd : CmdState
  lastDrop : LastDrop
  cnt : Counters
  txs : List Byte
  pending : List (Agent × Request)
  schedule : List Agent
  out : OpOutcome
  outFor : Option Agent
deriving DecidableEq, Repr

/-- The block has no internal faults (60_exceptions.md R364): every operation ends in OK, a status code
or HOLD, so the type has no constructor and no step can fault. -/
inductive Fault where
deriving DecidableEq, Repr

/-- Why the model refuses to run. -/
inductive Refusal where
  /-- An instruction without a meaning. Raised by no arm. Safe. -/
  | notModelled (mnemonic : String)
  /-- Raised by `step` for a configuration that fails its build-time checks: the spec has no run for it
  (41_registry.md R213, 60_exceptions.md R354). Safe. -/
  | illegalConfig (d : ConfigDefect)
  /-- Raised by the nine field rows for a descriptor word that fails check I3 or I4: no configuration can
  hold it (30_encoding.md R112, 41_registry.md R209, R210). Safe. -/
  | defectiveDescriptor (c : CheckCode)
  /-- Raised by the nine field rows for a read past the body's end, which no rule makes
  (20_memory.md R75, 00_scope.md R13). Safe. -/
  | fieldPastBody
deriving DecidableEq, Repr

/-- The state right after reset or power-on under a given configuration (70_reset_and_hazards.md R390,
R391), with nothing handed to the transport and nothing issued. -/
def State.resetWith (c : Config) : State :=
  { cfg := c, buf := [], rxq := [], ack := .clear, cmd := ⟨false, 0⟩, lastDrop := ⟨0, 0, false⟩,
    cnt := .zero, txs := [], pending := [], schedule := [], out := .none, outFor := none }

/-- The machine right after reset. DESIGN CHOICE (log 1): under the model's default parameters. -/
def State.reset : State := State.resetWith defaultConfig

end Sys2Proof.Machine
end

