-- ==== Sys2Proof/Machine/Ops.lean ====
section
/-! DEFINITION. The shared operations on the state: counters, outcomes, the two forms an error takes
(60_exceptions.md R351, R352), the latch, the queues, RESET, and the agents' request queues. -/

namespace Sys2Proof.Machine

/-- The byte of a status code other than OK (60_exceptions.md R350). -/
def statusByte : StatusCode → Byte
  | .eCksum => 0x01
  | .eEmpty => 0x02
  | .eUnknownType => 0x03
  | .eDecLength => 0x04
  | .eDecEnum => 0x05
  | .eDecCount => 0x06
  | .eRxqFull => 0x07
  | .eEncNoLayout => 0x08
  | .eEncShape => 0x09
  | .eEncRange => 0x0A
  | .eBusy => 0x0B
  | .eNotPending => 0x0C
  | .eIllegalOp => 0x0D
  | .eCsrAddr => 0x0E

/-- The status byte of an outcome (60_exceptions.md R350): 0x00 for OK, whatever its result value, and its
own byte for every other code. HOLD is no status (R353), and where no operation has ended, or a RESET
has, there is none (70_reset_and_hazards.md R390). -/
def outcomeByte : OpOutcome → Option Byte
  | .none => none
  | .ok _ => some 0x00
  | .status e => some (statusByte e)
  | .hold => none

/-- One counter (10_state.md R50). -/
def Counters.get (k : Counters) : CounterId → Word
  | .rxBytes => k.rxBytes
  | .framesOk => k.framesOk
  | .cksumErr => k.cksumErr
  | .empty => k.empty
  | .unknown => k.unknown
  | .decodeErr => k.decodeErr
  | .delivered => k.delivered
  | .rxqDrop => k.rxqDrop
  | .ack => k.ack
  | .nack => k.nack
  | .evict => k.evict
  | .txFrames => k.txFrames
  | .hostErr => k.hostErr

/-- One counter incremented modulo 2^32 (10_state.md R37). -/
def Counters.bump (k : Counters) : CounterId → Counters
  | .rxBytes => { k with rxBytes := k.rxBytes + 1 }
  | .framesOk => { k with framesOk := k.framesOk + 1 }
  | .cksumErr => { k with cksumErr := k.cksumErr + 1 }
  | .empty => { k with empty := k.empty + 1 }
  | .unknown => { k with unknown := k.unknown + 1 }
  | .decodeErr => { k with decodeErr := k.decodeErr + 1 }
  | .delivered => { k with delivered := k.delivered + 1 }
  | .rxqDrop => { k with rxqDrop := k.rxqDrop + 1 }
  | .ack => { k with ack := k.ack + 1 }
  | .nack => { k with nack := k.nack + 1 }
  | .evict => { k with evict := k.evict + 1 }
  | .txFrames => { k with txFrames := k.txFrames + 1 }
  | .hostErr => { k with hostErr := k.hostErr + 1 }

/-- Count one event (10_state.md R50). -/
def State.bump (s : State) (k : CounterId) : State := { s with cnt := s.cnt.bump k }

/-- End the operation in OK with a result value (00_scope.md R15). -/
def State.respond (s : State) (r : OpResult) : State := { s with out := .ok r }

/-- HOLD (43_host_ops.md R301): the block writes nothing; the outcome port says so. -/
def State.holdOp (s : State) : State := { s with out := .hold }

/-- A host operation that raises a code (60_exceptions.md R352): CNT_HOST_ERR counts it, the code is
returned, and nothing else is written. -/
def State.hostError (s : State) (e : StatusCode) : State :=
  { s.bump .hostErr with out := .status e }

/-- A scan step that drops its candidate (60_exceptions.md R351). The dropping rule counts it and
the candidate is consumed elsewhere. -/
def State.drop (s : State) (e : StatusCode) (t : Byte) (tv : Bool) : State :=
  { s with lastDrop := ⟨statusByte e, if tv then t else 0, tv⟩ }

/-- Discard what the ack/nack latch holds (R303, R304, R305). -/
def State.clearAck (s : State) : State := { s with ack := .clear }

/-- Latch an ACK or a NACK frame with the given body (40_reassembler.md R152). -/
def State.latchAck (s : State) (k : AckKind) (body : List Byte) : State :=
  { s with ack := ⟨true, k, !body.isEmpty, body.headD 0⟩ }

/-- Append a decoded message to the delivery queue (40_reassembler.md R154). -/
def State.enqueue (s : State) (v : MsgValue) : State := { s with rxq := s.rxq ++ [v] }

/-- `emit(bytes)`: hand bytes to the transport (10_state.md R36). -/
def State.emit (s : State) (bs : List Byte) : State := { s with txs := s.txs ++ bs }

/-- Remove the first `n` bytes of the rolling buffer (40_reassembler.md R149). -/
def State.consume (s : State) (n : Nat) : State := { s with buf := s.buf.drop n }

/-- RESET (70_reset_and_hazards.md R390): every element of the state tuple takes its reset value. The
parameters and the egress log stay, and so does what the agents have issued (R391). -/
def State.doReset (s : State) : State :=
  { State.resetWith s.cfg with
    txs := s.txs, pending := s.pending, schedule := s.schedule }

/-- The oldest request an agent has issued and not completed (20_memory.md R80). -/
def nextRequest (a : Agent) : List (Agent × Request) → Option Request
  | [] => none
  | (b, r) :: rest => if b = a then some r else nextRequest a rest

/-- The requests without an agent's oldest one. -/
def dropRequest (a : Agent) : List (Agent × Request) → List (Agent × Request)
  | [] => []
  | (b, r) :: rest => if b = a then rest else (b, r) :: dropRequest a rest

/-- The requests with an agent's oldest one replaced. -/
def replaceRequest (a : Agent) (r' : Request) : List (Agent × Request) → List (Agent × Request)
  | [] => []
  | (b, r) :: rest => if b = a then (b, r') :: rest else (b, r) :: replaceRequest a r' rest

end Sys2Proof.Machine
end

