-- ==== Sys2Proof/Machine/Operands.lean ====
section
/-! DEFINITION. The codec's access primitives (spec/20_memory.md R72 to R76), the nine field kinds in
both directions (42_codec.md R245 to R266), and the values a field can hold (R241, R269). Every
function here is pure. -/

namespace Sys2Proof.Machine

/-! ### Bits -/

/-- Bit offset `k` of a body: bit `7 - (k mod 8)` of byte `k div 8` (R72). -/
def bitAt (body : List Byte) (k : Nat) : Bool := (body.getD (k / 8) 0).getLsbD (7 - k % 8)

/-- `BitRead(body, o, w)` (R75). Its callers keep `o + w` within the body. -/
def bitRead (body : List Byte) (o : Nat) : Nat → Nat
  | 0 => 0
  | w + 1 => 2 * bitRead body o w + (bitAt body (o + w)).toNat

/-- The `w` bits of `v`, most significant first: what `BitWrite` appends (R76). -/
def bitsOf : Nat → Nat → List Bool
  | 0, _ => []
  | w + 1, v => v.testBit w :: bitsOf w v

/-- Bits read as a number, the first one most significant (R76). -/
def natOfBits (bs : List Bool) : Nat := bs.foldl (fun a b => 2 * a + b.toNat) 0

/-- `Bytes(bits)` (R76), for a bit string of whole bytes. -/
def bytesOf : List Bool → List Byte
  | a :: b :: c :: d :: e :: f :: g :: h :: rest =>
    BitVec.ofNat 8 (natOfBits [a, b, c, d, e, f, g, h]) :: bytesOf rest
  | _ => []

/-- `sext_w(p)` of a pattern `p < 2^w` (00_scope.md R12). -/
def sext (w p : Nat) : Int := if 2 ^ (w - 1) ≤ p then (p : Int) - 2 ^ w else p

/-- Whether an integer has a `w`-bit unsigned pattern. -/
abbrev fitsUnsigned (w : Nat) (n : Int) : Prop := 0 ≤ n ∧ n < 2 ^ w

/-- Whether an integer has a `w`-bit two's-complement pattern. -/
abbrev fitsSigned (w : Nat) (i : Int) : Prop := -(2 ^ (w - 1)) ≤ i ∧ i < 2 ^ (w - 1)

/-! ### Decode, one function per kind -/

/-- R245. -/
def decodeUint (w : Nat) (body : List Byte) (o : Nat) : FieldValue := .u w (bitRead body o w)

/-- R246. -/
def decodeSint (w : Nat) (body : List Byte) (o : Nat) : FieldValue := .s w (sext w (bitRead body o w))

/-- R247: the pattern is returned unchanged. -/
def decodeF32 (body : List Byte) (o : Nat) : FieldValue := .f32 (bitRead body o 32)

/-- R248. -/
def decodeF64 (body : List Byte) (o : Nat) : FieldValue := .f64 (bitRead body o 64)

/-- The `k` bytes of a blob at bit offset `o`, in order (R249). -/
def readBytes (body : List Byte) : Nat → Nat → List Byte
  | _, 0 => []
  | o, k + 1 => BitVec.ofNat 8 (bitRead body o 8) :: readBytes body (o + 8) k

/-- R249. -/
def decodeBlob (k : Nat) (body : List Byte) (o : Nat) : FieldValue := .blob (readBytes body o k)

/-- R250: a raw value outside the set fails the decode. -/
def decodeEnum (w : Nat) (set : List Nat) (body : List Byte) (o : Nat) :
    Except StatusCode FieldValue :=
  if bitRead body o w ∈ set then .ok (.e w (bitRead body o w)) else .error .eDecEnum

/-- R251: every combination of bits is accepted. -/
def decodeFlags (w : Nat) (body : List Byte) (o : Nat) : FieldValue := .fl w (bitRead body o w)

/-- R252: the raw integer is kept exactly. -/
def decodeFixu (w base : Nat) (exp : Int) (body : List Byte) (o : Nat) : FieldValue :=
  .fxu w (bitRead body o w) base exp

/-- R253. -/
def decodeFixs (w base : Nat) (exp : Int) (body : List Byte) (o : Nat) : FieldValue :=
  .fxs w (sext w (bitRead body o w)) base exp

/-- `FieldDecode(f, body, o)` (R244), by the descriptor's kind. -/
def fieldDecode (f : FieldDesc) (body : List Byte) (o : Nat) : Except StatusCode FieldValue :=
  match f.kind with
  | .uint => .ok (decodeUint f.size body o)
  | .sint => .ok (decodeSint f.size body o)
  | .f32 => .ok (decodeF32 body o)
  | .f64 => .ok (decodeF64 body o)
  | .blob => .ok (decodeBlob f.size body o)
  | .enum set => decodeEnum f.size set body o
  | .flags => .ok (decodeFlags f.size body o)
  | .fixu base exp => .ok (decodeFixu f.size base exp body o)
  | .fixs base exp => .ok (decodeFixs f.size base exp body o)

/-! ### Encode, one function per kind -/

/-- The `w`-bit pattern of an unsigned value, or E_ENC_RANGE (R258, R264, R265). -/
def packUnsigned (w : Nat) (n : Int) : Except StatusCode (List Bool) :=
  if fitsUnsigned w n then .ok (bitsOf w n.toNat) else .error .eEncRange

/-- The `w`-bit two's-complement pattern of a signed value, or E_ENC_RANGE (R259, R266). -/
def packSigned (w : Nat) (i : Int) : Except StatusCode (List Bool) :=
  if fitsSigned w i then .ok (bitsOf w (i % 2 ^ w).toNat) else .error .eEncRange

/-- R257, R258. -/
def encodeUint (w : Nat) : FieldValue → Except StatusCode (List Bool)
  | .u w' n => if w' = w then packUnsigned w n else .error .eEncShape
  | _ => .error .eEncShape

/-- R257, R259. -/
def encodeSint (w : Nat) : FieldValue → Except StatusCode (List Bool)
  | .s w' i => if w' = w then packSigned w i else .error .eEncShape
  | _ => .error .eEncShape

/-- R257, R260: every pattern is written unchanged. -/
def encodeF32 : FieldValue → Except StatusCode (List Bool)
  | .f32 b => packUnsigned 32 b
  | _ => .error .eEncShape

/-- R257, R261. -/
def encodeF64 : FieldValue → Except StatusCode (List Bool)
  | .f64 b => packUnsigned 64 b
  | _ => .error .eEncShape

/-- The bits of a byte string, each byte most significant bit first (R76). -/
def bitsOfBytes : List Byte → List Bool
  | [] => []
  | b :: bs => bitsOf 8 b.toNat ++ bitsOfBytes bs

/-- R257, R262: a blob of another length is out of range. -/
def encodeBlob (k : Nat) : FieldValue → Except StatusCode (List Bool)
  | .blob bs => if bs.length = k then .ok (bitsOfBytes bs) else .error .eEncRange
  | _ => .error .eEncShape

/-- R257, R263: a value outside the set is out of range. -/
def encodeEnum (w : Nat) (set : List Nat) : FieldValue → Except StatusCode (List Bool)
  | .e w' n =>
    if w' = w then
      if 0 ≤ n ∧ n.toNat ∈ set then .ok (bitsOf w n.toNat) else .error .eEncRange
    else .error .eEncShape
  | _ => .error .eEncShape

/-- R257, R264. -/
def encodeFlags (w : Nat) : FieldValue → Except StatusCode (List Bool)
  | .fl w' n => if w' = w then packUnsigned w n else .error .eEncShape
  | _ => .error .eEncShape

/-- R257, R265: the carried width, base and exponent must be the descriptor's. -/
def encodeFixu (w base : Nat) (exp : Int) : FieldValue → Except StatusCode (List Bool)
  | .fxu w' n base' exp' =>
    if w' = w ∧ base' = base ∧ exp' = exp then packUnsigned w n else .error .eEncShape
  | _ => .error .eEncShape

/-- R257, R266. -/
def encodeFixs (w base : Nat) (exp : Int) : FieldValue → Except StatusCode (List Bool)
  | .fxs w' i base' exp' =>
    if w' = w ∧ base' = base ∧ exp' = exp then packSigned w i else .error .eEncShape
  | _ => .error .eEncShape

/-- `FieldEncode(f, v)` (R256), by the descriptor's kind. -/
def fieldEncode (f : FieldDesc) (v : FieldValue) : Except StatusCode (List Bool) :=
  match f.kind with
  | .uint => encodeUint f.size v
  | .sint => encodeSint f.size v
  | .f32 => encodeF32 v
  | .f64 => encodeF64 v
  | .blob => encodeBlob f.size v
  | .enum set => encodeEnum f.size set v
  | .flags => encodeFlags f.size v
  | .fixu base exp => encodeFixu f.size base exp v
  | .fixs base exp => encodeFixs f.size base exp v

/-! ### Values -/

/-- The logical value of a fixed-point field, an exact rational number (R269). The block never computes
it. -/
def logicalValue : FieldValue → Option ℚ
  | .fxu _ n base exp => some ((n : ℚ) * (base : ℚ) ^ exp)
  | .fxs _ i base exp => some ((i : ℚ) * (base : ℚ) ^ exp)
  | _ => none

/-- Whether a value has the form and the range that R241 gives a descriptor's kind. -/
def valueFits (f : FieldDesc) (v : FieldValue) : Bool :=
  match f.kind, v with
  | .uint, .u w n => w = f.size && decide (fitsUnsigned w n)
  | .sint, .s w i => w = f.size && decide (fitsSigned w i)
  | .f32, .f32 b => decide (fitsUnsigned 32 b)
  | .f64, .f64 b => decide (fitsUnsigned 64 b)
  | .blob, .blob bs => bs.length = f.size
  | .enum set, .e w n => w = f.size && decide (0 ≤ n ∧ n.toNat ∈ set)
  | .flags, .fl w n => w = f.size && decide (fitsUnsigned w n)
  | .fixu base exp, .fxu w n base' exp' =>
    w = f.size && base' = base && exp' = exp && decide (fitsUnsigned w n)
  | .fixs base exp, .fxs w i base' exp' =>
    w = f.size && base' = base && exp' = exp && decide (fitsSigned w i)
  | _, _ => false

/-- Whether a value list fits a field list, one value per field in order (R240). -/
def valuesFit : List FieldDesc → List FieldValue → Bool
  | [], [] => true
  | f :: fs, v :: vs => valueFits f v && valuesFit fs vs
  | _, _ => false

end Sys2Proof.Machine
end

