-- ==== Sys2Proof/Machine/Codec.lean ====
section
/-! DEFINITION. The Message Codec Engine (spec/42_codec.md): the field iterator, DecodeIn with the
array iterator, and EncodeOut. Every function is pure: it reads the registry and its arguments. -/

namespace Sys2Proof.Machine

/-- `UnpackFields` (R244): the values and the bit offset after the last field; the first failing field
decides. -/
def unpackFields : List FieldDesc → List Byte → Nat → Except StatusCode (List FieldValue × Nat)
  | [], _, o => .ok ([], o)
  | f :: fs, body, o =>
    match fieldDecode f body o with
    | .error e => .error e
    | .ok v =>
      match unpackFields fs body (o + fieldWidth f) with
      | .error e => .error e
      | .ok (vs, o') => .ok (v :: vs, o')

/-- The item loop of `DecodeArray` (R254): `n` sub-records from bit offset `o`. -/
def unpackItems (sub : List FieldDesc) (body : List Byte) :
    Nat → Nat → Except StatusCode (List (List FieldValue))
  | 0, _ => .ok []
  | n + 1, o =>
    match unpackFields sub body o with
    | .error e => .error e
    | .ok (iv, o') =>
      match unpackItems sub body n o' with
      | .error e => .error e
      | .ok items => .ok (iv :: items)

/-- The number in the header's count field (R254); a UINT by check I7. -/
def countOf (hv : List FieldValue) (idx : Nat) : Option Int :=
  match hv[idx]? with
  | some (.u _ n) => some n
  | _ => none

/-- `DecodeArray` (R254). The order of the tests is length, header fields, count, items (R255). -/
def decodeArray (t : Byte) (header : List FieldDesc) (headerBits countIdx : Nat)
    (sub : List FieldDesc) (subBits : Nat) (body : List Byte) : Except StatusCode MsgValue :=
  if 8 * body.length < headerBits then .error .eDecLength
  else if (8 * body.length - headerBits) % subBits ≠ 0 then .error .eDecLength
  else
    match unpackFields header body 0 with
    | .error e => .error e
    | .ok (hv, o) =>
      if countOf hv countIdx = some (((8 * body.length - headerBits) / subBits : Nat) : Int) then
        match unpackItems sub body ((8 * body.length - headerBits) / subBits) o with
        | .error e => .error e
        | .ok items => .ok ⟨t, hv, some items⟩
      else .error .eDecCount

/-- `DecodeIn` under a given layout (R242, R243). -/
def decodeLayout (t : Byte) (lay : Layout) (body : List Byte) : Except StatusCode MsgValue :=
  match lay with
  | .fixed fields bits =>
    if 8 * body.length = bits then
      match unpackFields fields body 0 with
      | .error e => .error e
      | .ok (vals, _) => .ok ⟨t, vals, none⟩
    else .error .eDecLength
  | .array header headerBits countIdx sub subBits =>
    decodeArray t header headerBits countIdx sub subBits body

/-- The look-up and `DecodeIn(T, body)` (R242): a type without an inbound layout is E_UNKNOWN_TYPE for
both callers (40_reassembler.md R153, 43_host_ops.md R306). -/
def decodeIn (c : Config) (t : Byte) (body : List Byte) : Except StatusCode MsgValue :=
  match inLayout c t with
  | none => .error .eUnknownType
  | some lay => decodeLayout t lay body

/-- The field loop of `EncodeOut` (R256): the concatenated patterns, the first failing field's code, or
E_ENC_SHAPE for a list of another length. -/
def packFields : List FieldDesc → List FieldValue → Except StatusCode (List Bool)
  | [], [] => .ok []
  | f :: fs, v :: vs =>
    match fieldEncode f v with
    | .error e => .error e
    | .ok bits =>
      match packFields fs vs with
      | .error e => .error e
      | .ok rest => .ok (bits ++ rest)
  | _, _ => .error .eEncShape

/-- `EncodeOut` under a given layout (R256). OUT is never ARRAY, by check I6, so the last case has no
run. -/
def encodeLayout (lay : Layout) (vals : List FieldValue) : Except StatusCode (List Byte) :=
  match lay with
  | .fixed fields _ =>
    if vals.length = fields.length then
      match packFields fields vals with
      | .error e => .error e
      | .ok bits => .ok (bytesOf bits)
    else .error .eEncShape
  | .array .. => .error .eEncNoLayout

/-- `EncodeOut(T, vals)` (R256). -/
def encodeOut (c : Config) (t : Byte) (vals : List FieldValue) : Except StatusCode (List Byte) :=
  match outLayout c t with
  | none => .error .eEncNoLayout
  | some lay => encodeLayout lay vals

/-- Whether a message value is one that a layout's decode can produce: every field and item value fits
its descriptor, and an array's count field equals its number of items (R240, R241, R254). -/
def messageFits (lay : Layout) (m : MsgValue) : Bool :=
  match lay, m.items with
  | .fixed fields _, none => valuesFit fields m.fields
  | .array header _ countIdx sub _, some items =>
    valuesFit header m.fields && items.all (valuesFit sub)
      && countOf m.fields countIdx == some (items.length : Int)
  | _, _ => false

/-- Whether a message value fits the inbound layout of its type. -/
def messageTyped (c : Config) (m : MsgValue) : Bool :=
  match inLayout c m.type with
  | none => false
  | some lay => messageFits lay m

end Sys2Proof.Machine
end

