-- ==== Sys2Proof/Machine/Fields.lean ====
section
/-! DEFINITION. The meanings of the nine FIELD rows: one field descriptor applied to a body (decode) or
to a value (encode), as the field iterators of spec/42_codec.md R244 and R256 apply it. The codec is
pure, so only the outcome port is written; a status code of a field function is no host error and
counts nowhere. -/

namespace Sys2Proof.Machine

/-- Hand a codec result to the outcome port. -/
def State.answer (s : State) (r : Except StatusCode OpResult) : State :=
  match r with
  | .ok v => { s with out := .ok v }
  | .error e => { s with out := .status e }

/-- Apply a checked descriptor: FieldDecode within the body, or FieldEncode (R244, R256). -/
def applyField (f : FieldDesc) (op : FieldOp) (s : State) : Host.Outcome State Fault Refusal :=
  match op with
  | .decode body o =>
    if o + fieldWidth f ≤ 8 * body.length then .next (s.answer ((fieldDecode f body o).map .field))
    else .refused .fieldPastBody
  | .encode v => .next (s.answer ((fieldEncode f v).map .bits))

/-- Apply a packed descriptor, refused where it fails check I3 or I4 (41_registry.md R209, R210). -/
def applyDescriptor (k : KindCode) (d : DescBits) (op : FieldOp) (s : State) :
    Host.Outcome State Fault Refusal :=
  match descOf s.cfg.enumSets k d with
  | .error c => .refused (.defectiveDescriptor c)
  | .ok f => applyField f op s

/-- FIELD_UINT (R245, R258). -/
def execFieldUint (d : DescBits) (op : FieldOp) (s : State) : Host.Outcome State Fault Refusal :=
  applyDescriptor .uint d op s

/-- FIELD_SINT (R246, R259). -/
def execFieldSint (d : DescBits) (op : FieldOp) (s : State) : Host.Outcome State Fault Refusal :=
  applyDescriptor .sint d op s

/-- FIELD_F32 (R247, R260). -/
def execFieldF32 (d : DescBits) (op : FieldOp) (s : State) : Host.Outcome State Fault Refusal :=
  applyDescriptor .f32 d op s

/-- FIELD_F64 (R248, R261). -/
def execFieldF64 (d : DescBits) (op : FieldOp) (s : State) : Host.Outcome State Fault Refusal :=
  applyDescriptor .f64 d op s

/-- FIELD_BLOB (R249, R262). -/
def execFieldBlob (d : DescBits) (op : FieldOp) (s : State) : Host.Outcome State Fault Refusal :=
  applyDescriptor .blob d op s

/-- FIELD_ENUM (R250, R263). -/
def execFieldEnum (d : DescBits) (op : FieldOp) (s : State) : Host.Outcome State Fault Refusal :=
  applyDescriptor .enum d op s

/-- FIELD_FLAGS (R251, R264). -/
def execFieldFlags (d : DescBits) (op : FieldOp) (s : State) : Host.Outcome State Fault Refusal :=
  applyDescriptor .flags d op s

/-- FIELD_FIXU (R252, R265). -/
def execFieldFixu (d : DescBits) (op : FieldOp) (s : State) : Host.Outcome State Fault Refusal :=
  applyDescriptor .fixu d op s

/-- FIELD_FIXS (R253, R266). -/
def execFieldFixs (d : DescBits) (op : FieldOp) (s : State) : Host.Outcome State Fault Refusal :=
  applyDescriptor .fixs d op s

end Sys2Proof.Machine
end

