-- ==== Sys2Proof/Machine/Flags.lean ====
section
/-! DEFINITION. The derived status flags (spec/10_state.md R42), which are also the two level outputs of
60_exceptions.md R357, and the read-only CSR space (R43 to R51). -/

namespace Sys2Proof.Machine

/-- MSG_AVAIL (R42, R357). -/
def msgAvail (s : State) : Bool := !s.rxq.isEmpty

/-- RXQ_EMPTY (R42). -/
def rxqEmpty (s : State) : Bool := s.rxq.isEmpty

/-- RXQ_FULL (R42). -/
def rxqFull (s : State) : Bool := s.rxq.length == s.cfg.rxqDepth

/-- ACK_AVAIL (R42, R357). -/
def ackAvail (s : State) : Bool := s.ack.valid

/-- The status byte on the outcome port (60_exceptions.md R350), where an operation has ended with one. -/
def statusOut (s : State) : Option Byte := outcomeByte s.out

/-- ACK.KIND as its bit (R33). -/
def kindBit : AckKind → Bool
  | .ack => false
  | .nack => true

/-- The STATUS register (R44), from bit 31 down. -/
def statusCsr (s : State) : Word :=
  s.cmd.type ++ (0 : BitVec 6) ++ BitVec.ofBool (rxqFull s) ++ BitVec.ofBool (rxqEmpty s)
    ++ s.ack.echo ++ (0 : BitVec 4) ++ BitVec.ofBool s.ack.echoValid
    ++ BitVec.ofBool (kindBit s.ack.kind) ++ BitVec.ofBool s.ack.valid
    ++ BitVec.ofBool s.cmd.pending

/-- The LAST_DROP register (R49), from bit 31 down. -/
def lastDropCsr (s : State) : Word :=
  (0 : BitVec 15) ++ BitVec.ofBool s.lastDrop.typeValid ++ s.lastDrop.type ++ s.lastDrop.code

/-- The counter at a CSR index (R50). -/
def counterAt (i : Nat) : Option CounterId :=
  match i with
  | 0x10 => some .rxBytes
  | 0x11 => some .framesOk
  | 0x12 => some .cksumErr
  | 0x13 => some .empty
  | 0x14 => some .unknown
  | 0x15 => some .decodeErr
  | 0x16 => some .delivered
  | 0x17 => some .rxqDrop
  | 0x18 => some .ack
  | 0x19 => some .nack
  | 0x1A => some .evict
  | 0x1B => some .txFrames
  | 0x1C => some .hostErr
  | _ => none

/-- The CSR at an index, or `none` where the index is unmapped (R44 to R51). -/
def csrValue (s : State) (i : Byte) : Option Word :=
  match i.toNat with
  | 0x00 => some (statusCsr s)
  | 0x01 => some (BitVec.ofNat 32 s.buf.length)
  | 0x02 => some (BitVec.ofNat 32 s.rxq.length)
  | 0x03 => some (BitVec.ofNat 32 s.cfg.bufCap)
  | 0x04 => some (BitVec.ofNat 32 s.cfg.rxqDepth)
  | 0x05 => some (lastDropCsr s)
  | n => (counterAt n).map s.cnt.get

end Sys2Proof.Machine
end

