-- ==== Sys2Proof/Machine/Frames.lean ====
section
/-! DEFINITION. The type-byte dispatch of a checksum-valid candidate (spec/30_encoding.md R108,
40_reassembler.md R151 to R155) and the meanings of the five FRAME rows. They run after the checksum has
passed and the candidate has been counted and consumed (40_reassembler.md R148, R149). -/

namespace Sys2Proof.Machine

/-- Latch an ACK (R152). -/
def acceptAck (body : List Byte) (s : State) : State := (s.latchAck .ack body).bump .ack

/-- Latch a NACK (R152). -/
def acceptNack (body : List Byte) (s : State) : State := (s.latchAck .nack body).bump .nack

/-- Drop a frame whose type has no inbound layout (R153). -/
def rejectUnknown (t : Byte) (s : State) : State :=
  (s.bump .unknown).drop .eUnknownType t true

/-- Drop a frame whose decode failed (R154). -/
def rejectDecode (t : Byte) (e : StatusCode) (s : State) : State :=
  (s.bump .decodeErr).drop e t true

/-- Deliver a decoded message, or drop it where the queue is full (R154, R155). -/
def deliver (t : Byte) (v : MsgValue) (s : State) : State :=
  if s.rxq.length = s.cfg.rxqDepth then (s.bump .rxqDrop).drop .eRxqFull t true
  else (s.enqueue v).bump .delivered

/-- Look up, decode and deliver (R153, R154, R155). -/
def decodeAndDeliver (t : Byte) (body : List Byte) (s : State) : State :=
  match inLayout s.cfg t with
  | none => rejectUnknown t s
  | some lay =>
    match decodeLayout t lay body with
    | .error e => rejectDecode t e s
    | .ok v => deliver t v s

/-- The dispatch on the type byte (R108, R151). -/
def dispatchFrame (t : Byte) (body : List Byte) (s : State) : State :=
  match frameRow s.cfg t with
  | .ack => acceptAck body s
  | .nack => acceptNack body s
  | .measTime => decodeAndDeliver measTimeId body s
  | .registered => decodeAndDeliver t body s
  | .unknown => rejectUnknown t s

/-- FRAME_ACK (R152). -/
def execFrameAck (body : List Byte) (s : State) : Host.Outcome State Fault Refusal :=
  .next (acceptAck body s)

/-- FRAME_NACK (R152). -/
def execFrameNack (body : List Byte) (s : State) : Host.Outcome State Fault Refusal :=
  .next (acceptNack body s)

/-- FRAME_MEAS_TIME (R154 with the entry of 41_registry.md R216). -/
def execFrameMeasTime (body : List Byte) (s : State) : Host.Outcome State Fault Refusal :=
  .next (decodeAndDeliver measTimeId body s)

/-- FRAME_REGISTERED (R154, R155). -/
def execFrameRegistered (t : Byte) (body : List Byte) (s : State) :
    Host.Outcome State Fault Refusal :=
  .next (decodeAndDeliver t body s)

/-- FRAME_UNKNOWN (R153). The body is not read. -/
def execFrameUnknown (t : Byte) (_body : List Byte) (s : State) :
    Host.Outcome State Fault Refusal :=
  .next (rejectUnknown t s)

end Sys2Proof.Machine
end

