-- ==== Sys2Proof/Machine/Reassembler.lean ====
section
/-! DEFINITION. The Frame Reassembler (spec/40_reassembler.md): the rolling buffer, the scan, FEED_BYTE
and the transmit framer. -/

namespace Sys2Proof.Machine

/-- `XOR(s)` (00_scope.md R12). -/
def xorAll (bs : List Byte) : Byte := bs.foldl (· ^^^ ·) 0

/-- `s[i..j)` (00_scope.md R13). -/
def slice (bs : List Byte) (i j : Nat) : List Byte := (bs.take j).drop i

/-- The least index at which the byte pair `x`, `y` stands. -/
def findPair (x y : Byte) : List Byte → Option Nat
  | a :: b :: rest => if a = x ∧ b = y then some 0 else (findPair x y (b :: rest)).map (· + 1)
  | _ => none

/-- The preamble search (R144). -/
def findPreamble (buf : List Byte) : Option Nat := findPair 0xA0 0xA1 buf

/-- The trailer search from index `s` on (R146). -/
def findTrailer (buf : List Byte) (s : Nat) : Option Nat :=
  (findPair 0x0D 0x0A (buf.drop s)).map (s + ·)

/-- The length field of a preamble at index `p`, big-endian (R145). -/
def lengthAt (buf : List Byte) (p : Nat) : Nat :=
  (buf.getD (p + 2) 0).toNat * 256 + (buf.getD (p + 3) 0).toNat

/-- A candidate: the index of its preamble, its length field, the index of its trailer (R144 to
R147). -/
structure Candidate where
  p : Nat
  len : Nat
  t : Nat
deriving DecidableEq, Repr

/-- The candidate at the front of a buffer, or `none` where the scan waits (R143 to R146). -/
def locate (buf : List Byte) : Option Candidate :=
  if buf.length < 8 then none
  else
    match findPreamble buf with
    | none => none
    | some p =>
      if buf.length < p + 4 then none
      else
        match findTrailer buf (p + 5 + lengthAt buf p) with
        | none => none
        | some t => some ⟨p, lengthAt buf p, t⟩

/-- The payload: the bytes from the length field to the checksum byte (R147). -/
def candidatePayload (buf : List Byte) (k : Candidate) : List Byte := slice buf (k.p + 4) (k.t - 1)

/-- The exclusive-or of the payload and the checksum byte (R148). -/
def candidateXor (buf : List Byte) (k : Candidate) : Byte := xorAll (slice buf (k.p + 4) k.t)

/-- The dispatch of a checksum-valid candidate (R150, R151). -/
def dispatchPayload (payload : List Byte) (s : State) : State :=
  match payload with
  | [] => (s.bump .empty).drop .eEmpty 0 false
  | t :: body => dispatchFrame t body s

/-- The handling of a located candidate: the checksum, the consume and the dispatch (R148 to R155). -/
def handleCandidate (k : Candidate) (s : State) : State :=
  if candidateXor s.buf k = 0 then
    dispatchPayload (candidatePayload s.buf k) ((s.consume (k.t + 2)).bump .framesOk)
  else ((s.consume (k.t + 2)).bump .cksumErr).drop .eCksum 0 false

/-- `ScanStep` (R142): `none` is WAIT, `some` is CONSUMED. -/
def scanStep (s : State) : Option State :=
  match locate s.buf with
  | none => none
  | some k => some (handleCandidate k s)

/-- The scan loop, at most `fuel` steps. -/
def scanLoop : Nat → State → State
  | 0, s => s
  | fuel + 1, s =>
    match scanStep s with
    | none => s
    | some s' => scanLoop fuel s'

/-- `Scan` (R142). One scan runs at most `|BUF| / 7 + 1` steps (R157). -/
def scan (s : State) : State := scanLoop (s.buf.length / 7 + 1) s

/-- Make room for one byte: a full buffer loses its oldest byte (R141). -/
def evict (s : State) : State :=
  if s.buf.length = s.cfg.bufCap then ({ s with buf := s.buf.drop 1 } : State).bump .evict else s

/-- Append one ingress byte (R140). -/
def appendByte (b : Byte) (s : State) : State :=
  ({ s with buf := s.buf ++ [b] } : State).bump .rxBytes

/-- The state change of FEED_BYTE (R140). -/
def feedByte (b : Byte) (s : State) : State := scan (appendByte b (evict s))

/-- FEED of a chunk, with no other operation in between (43_host_ops.md R309). -/
def feedBytes : List Byte → State → State
  | [], s => s
  | b :: bs, s => feedBytes bs (feedByte b s)

/-- FEED_BYTE (R140): always OK. -/
def execFeedByte (b : Byte) (s : State) : Host.Outcome State Fault Refusal :=
  .next ((feedByte b s).respond .unit)

/-- `TxFrame(T, body)` (R164), for bodies of at most 65534 bytes. DESIGN CHOICE (log 18): for a longer body,
which only FEED_FRAME can hand over, the length field is `1 + |body|` modulo 2^16. -/
def txFrame (t : Byte) (body : List Byte) : List Byte :=
  [0xA0, 0xA1, BitVec.ofNat 8 ((body.length + 1) / 256), BitVec.ofNat 8 ((body.length + 1) % 256)]
    ++ (t :: body) ++ [xorAll (t :: body), 0x0D, 0x0A]

end Sys2Proof.Machine
end

