-- ==== Sys2Proof/Machine/HostOps.lean ====
section
/-! DEFINITION. The host operations other than FEED_BYTE (spec/43_host_ops.md R302 to R308), with the
order of tests of 60_exceptions.md R356. -/

namespace Sys2Proof.Machine

/-- GET_MSG (R302): take the oldest delivered message, or hold. -/
def execGetMsg (s : State) : Host.Outcome State Fault Refusal :=
  match s.rxq with
  | [] => .next s.holdOp
  | v :: rest => .next (({ s with rxq := rest } : State).respond (.msg v))

/-- The effect of a SEND_CMD that succeeds, with the encoded body (R303). -/
def sendFrame (t : Byte) (body : List Byte) (s : State) : State :=
  { ((s.clearAck.emit (txFrame t body)).bump .txFrames) with cmd := ⟨true, t⟩ }

/-- SEND_CMD (R303): encode, frame and send one outbound command. -/
def execSendCmd (t : Byte) (vals : List FieldValue) (s : State) :
    Host.Outcome State Fault Refusal :=
  if s.cmd.pending then .next (s.hostError .eBusy)
  else
    match encodeOut s.cfg t vals with
    | .error e => .next (s.hostError e)
    | .ok body => .next ((sendFrame t body s).respond .unit)

/-- WAIT_ACK (R304): take the pending command's ACK or NACK, or hold. CMD.TYPE keeps its value. -/
def execWaitAck (s : State) : Host.Outcome State Fault Refusal :=
  if s.cmd.pending then
    if s.ack.valid then
      .next (({ s.clearAck with cmd := ⟨false, s.cmd.type⟩ } : State).respond
        (.ack s.ack.kind s.ack.echoValid s.ack.echo))
    else .next s.holdOp
  else .next (s.hostError .eNotPending)

/-- ABANDON (R305): always OK. -/
def execAbandon (s : State) : Host.Outcome State Fault Refusal :=
  .next (({ s.clearAck with cmd := ⟨false, 0⟩ } : State).respond .unit)

/-- DECODE (R306): decode a body without the wire. -/
def execDecodeMsg (t : Byte) (body : List Byte) (s : State) : Host.Outcome State Fault Refusal :=
  match inLayout s.cfg t with
  | none => .next (s.hostError .eUnknownType)
  | some lay =>
    if maxBody < body.length then .next (s.hostError .eDecLength)
    else
      match decodeLayout t lay body with
      | .error e => .next (s.hostError e)
      | .ok v => .next (s.respond (.msg v))

/-- ENCODE (R307): encode a body without sending it. -/
def execEncodeMsg (t : Byte) (vals : List FieldValue) (s : State) :
    Host.Outcome State Fault Refusal :=
  match encodeOut s.cfg t vals with
  | .error e => .next (s.hostError e)
  | .ok body => .next (s.respond (.body body))

/-- CSR_READ (R308). -/
def execCsrRead (i : Byte) (s : State) : Host.Outcome State Fault Refusal :=
  match csrValue s i with
  | none => .next (s.hostError .eCsrAddr)
  | some v => .next (s.respond (.csr v))

/-! ### Pseudo-operations (30_encoding.md R119) -/

/-- The request of FEED_BYTE `b`. -/
def feedByteRequest (b : Byte) : Request := .command (commandWord 1 b) [] []

/-- The request of WAIT_ACK. -/
def waitAckRequest : Request := .command (commandWord 4 0) [] []

/-- `FEED [b0 … ]`: one FEED_BYTE per byte, in order (43_host_ops.md R309). -/
def feedRequests (bs : List Byte) : List Request := bs.map feedByteRequest

/-- `FEED_FRAME T [body]` (R119). DESIGN CHOICE (log 18): a body over 65534 bytes, outside TxFrame's operand
line, is accepted, and its frame's length field is taken modulo 2^16. -/
def feedFrameRequests (t : Byte) (body : List Byte) : List Request := feedRequests (txFrame t body)

end Sys2Proof.Machine
end

