-- ==== Sys2Proof/Machine/Dispatch.lean ====
section
/-! DEFINITION. `exec`: one arm per constructor of `Instr`, each one call of its meaning. -/

namespace Sys2Proof.Machine

def exec (i : Instr) (s : State) : Host.Outcome State Fault Refusal :=
  match i with
  | .feedByte b => Sys2Proof.Machine.execFeedByte b s
  | .getMsg => Sys2Proof.Machine.execGetMsg s
  | .sendCmd t vals => Sys2Proof.Machine.execSendCmd t vals s
  | .waitAck => Sys2Proof.Machine.execWaitAck s
  | .abandon => Sys2Proof.Machine.execAbandon s
  | .decodeMsg t body => Sys2Proof.Machine.execDecodeMsg t body s
  | .encodeMsg t vals => Sys2Proof.Machine.execEncodeMsg t vals s
  | .csrRead c => Sys2Proof.Machine.execCsrRead c s
  | .frameAck body => Sys2Proof.Machine.execFrameAck body s
  | .frameNack body => Sys2Proof.Machine.execFrameNack body s
  | .frameMeasTime body => Sys2Proof.Machine.execFrameMeasTime body s
  | .frameRegistered t body => Sys2Proof.Machine.execFrameRegistered t body s
  | .frameUnknown t body => Sys2Proof.Machine.execFrameUnknown t body s
  | .fieldUint d op => Sys2Proof.Machine.execFieldUint d op s
  | .fieldSint d op => Sys2Proof.Machine.execFieldSint d op s
  | .fieldF32 d op => Sys2Proof.Machine.execFieldF32 d op s
  | .fieldF64 d op => Sys2Proof.Machine.execFieldF64 d op s
  | .fieldBlob d op => Sys2Proof.Machine.execFieldBlob d op s
  | .fieldEnum d op => Sys2Proof.Machine.execFieldEnum d op s
  | .fieldFlags d op => Sys2Proof.Machine.execFieldFlags d op s
  | .fieldFixu d op => Sys2Proof.Machine.execFieldFixu d op s
  | .fieldFixs d op => Sys2Proof.Machine.execFieldFixs d op s

end Sys2Proof.Machine
end

