-- ==== Sys2Proof/Machine/Rom.lean ====
section
/-! DEFINITION. The registry in its packed form (spec/30_encoding.md R111 to R113): what a descriptor word
stands for, which check a defective one fails (41_registry.md R209, R210), and the configuration that a
packed registry builds, which the build-time checks then refuse or accept. -/

namespace Sys2Proof.Machine

/-- The field descriptor that a packed word stands for, or the check it fails (R111, R112, 41_registry.md
R209): a reserved KIND fails I3. -/
def unpackDescriptor (enumSets : List (List Nat)) (w : Word) : Except CheckCode FieldDesc :=
  match kindOfCode (kindField w) with
  | none => .error .i3
  | some k => descOf enumSets k (descField w)

/-- The record of a packed word in a registry. A word that sets a bit the packing leaves 0 becomes a record
of size 0, and a word of a reserved KIND, which no record form has, a UINT of size 0: the record fails
the check that the word fails, so the registry is refused for it (R112, R120, 41_registry.md R213).
DEDUCED (log 11). -/
def recordOf (enumSets : List (List Nat)) (w : Word) : FieldDesc :=
  match kindOfCode (kindField w) with
  | none => ⟨"", .uint, 0⟩
  | some k =>
    ⟨"", kindOf enumSets k (descField w),
      if unusedBitsZero k (descField w) then (descField w).size.toNat else 0⟩

/-- A layout whose field lists are descriptor words (R113). -/
inductive PackedLayout where
  | fixed (fields : List Word)
  | array (header : List Word) (countIdx : Nat) (sub : List Word)
deriving DecidableEq, Repr

/-- An entry of packed layouts (R113). -/
structure PackedEntry where
  inWords : Option PackedLayout
  outWords : Option PackedLayout
deriving DecidableEq, Repr

/-- A layout from its packed form. The packed form carries no declared lengths, so they are the sums of the
widths. -/
def unpackLayout (enumSets : List (List Nat)) : PackedLayout → Layout
  | .fixed fields => .fixed (fields.map (recordOf enumSets)) (widthSum (fields.map (recordOf enumSets)))
  | .array header countIdx sub =>
    .array (header.map (recordOf enumSets)) (widthSum (header.map (recordOf enumSets))) countIdx
      (sub.map (recordOf enumSets)) (widthSum (sub.map (recordOf enumSets)))

/-- An entry from its packed form, without a name. -/
def unpackEntry (enumSets : List (List Nat)) (e : PackedEntry) : Entry :=
  ⟨"", e.inWords.map (unpackLayout enumSets), e.outWords.map (unpackLayout enumSets)⟩

/-- A configuration with its registry from packed entries; `configDefects` refuses or accepts it. -/
def withRom (c : Config) (rom : List (Byte × PackedEntry)) : Config :=
  { c with registry := rom.map fun x => (x.1, unpackEntry c.enumSets x.2) }

end Sys2Proof.Machine
end

