-- ==== Sys2Proof/Machine/Fetch.lean ====
section
/-! DEFINITION. How a request becomes an operation and how it ends (spec/00_scope.md R5, R6,
20_memory.md R80, 43_host_ops.md R300, R301), and how the model places a word of the opcode table where
its next step fetches it. -/

namespace Sys2Proof.Machine

/-- Record whose operation the outcome belongs to, and take its request away, unless the operation
holds: a held request stays the agent's oldest (R301). -/
def completeOp (a : Agent) (s : State) : State :=
  if s.out = .hold then { s with outFor := some a }
  else { s with outFor := some a, pending := dropRequest a s.pending }

/-- The end of an agent's operation. -/
def settle (a : Agent) (o : Host.Outcome State Fault Refusal) : Host.Outcome State Fault Refusal :=
  match o with
  | .next s => .next (completeOp a s)
  | .fault r => .fault r
  | .refused r => .refused r

/-- `Execute(word, rec)` (R300): an illegal word returns E_ILLEGAL_OP. -/
def runCommand (a : Agent) (word : CommandWord) (vals : List FieldValue) (body : List Byte)
    (s : State) : Host.Outcome State Fault Refusal :=
  match decodeCommand word vals body with
  | .error _ => .next (completeOp a (s.hostError .eIllegalOp))
  | .ok i => settle a (exec i s)

/-- The end of SEND_AND_WAIT's first half (R310): an OK SEND_CMD leaves WAIT_ACK to be issued next by
the same agent; an error code is the pseudo-operation's result. -/
def continueWait (a : Agent) (s : State) : State :=
  if s.out = .ok .unit then
    { s with outFor := some a, pending := replaceRequest a waitAckRequest s.pending }
  else completeOp a s

/-- SEND_AND_WAIT (R310): its SEND_CMD half. -/
def runSendAndWait (a : Agent) (t : Byte) (vals : List FieldValue) (s : State) :
    Host.Outcome State Fault Refusal :=
  match exec (.sendCmd t vals) s with
  | .next s' => .next (continueWait a s')
  | .fault r => .fault r
  | .refused r => .refused r

/-- RESET as an issued input (70_reset_and_hazards.md R390): it always completes and returns no
status. -/
def runReset (a : Agent) (s : State) : State :=
  { s.doReset with outFor := some a, pending := dropRequest a s.pending }

/-- Run one request of an agent as one atomic operation (R5). -/
def runRequest (a : Agent) (r : Request) (s : State) : Host.Outcome State Fault Refusal :=
  match r with
  | .command word vals body => runCommand a word vals body s
  | .sendAndWait t vals => runSendAndWait a t vals s
  | .reset => .next (runReset a s)

/-- The move of one agent: its oldest request, or nothing where it has issued none (R80). -/
def agentStep (a : Agent) (s : State) : Host.Outcome State Fault Refusal :=
  match nextRequest a s.pending with
  | none => .next s
  | some r => runRequest a r s

/-! ### Placing a word of the opcode table -/

/-- Put a request first, as the next agent's oldest. -/
def State.issueFirst (s : State) (a : Agent) (r : Request) : State :=
  { s with pending := (a, r) :: s.pending, schedule := a :: s.schedule }

/-- The operand of zeros of a frame row that fits the rolling buffer. -/
def frameOperand (c : Config) (t : Byte) : List Byte :=
  if 8 + (zeroFrameBody c t).length ≤ c.bufCap then zeroFrameBody c t else []

/-- A frame of type `t` in the rolling buffer, all but its last byte, and that byte's FEED_BYTE: the
type byte is fetched by the scan that the byte completes. -/
def State.placeFrame (s : State) (t : Byte) : State :=
  ({ s with buf := (txFrame t (frameOperand s.cfg t)).dropLast } : State).issueFirst .ingress
    (feedByteRequest 0x0A)

/-- A UINT field that fills a width up to whole bytes (check I2). -/
def padField (w : Nat) : List FieldDesc :=
  if w % 8 = 0 then [] else [⟨"", .uint, 8 - w % 8⟩]

/-- A registry entry whose inbound layout is one field and its padding. -/
def fieldEntry (f : FieldDesc) : Entry :=
  ⟨"", some (.fixed (f :: padField (fieldWidth f)) (widthSum (f :: padField (fieldWidth f)))), none⟩

/-- A configuration whose slot 0x00 holds the given entry. -/
def withSlotZero (c : Config) (e : Entry) : Config :=
  { c with registry := (0, e) :: c.registry.filter (fun x => x.1 != 0) }

/-- A registry with the descriptor in slot 0x00, and a DECODE of that type with a body of zeros: the
descriptor is fetched by the field iterator of that decode. A word that fails check I3 or I4, one of a
reserved KIND among them, makes a registry that the step refuses for it. -/
def State.placeDescriptor (s : State) (w : Word) : State :=
  let f := recordOf s.cfg.enumSets w
  let bits := widthSum (f :: padField (fieldWidth f))
  ({ s with cfg := withSlotZero s.cfg (fieldEntry f) } : State).issueFirst .commander
    (.command (commandWord 6 0) [] (zeroBody bits))

/-- Place a word of the opcode table where the next step fetches it. -/
def State.placeWord (s : State) (nbits w : Nat) : State :=
  match nbits with
  | 16 => s.issueFirst .commander (.command (BitVec.ofNat 16 w) [] [])
  | 8 => s.placeFrame (BitVec.ofNat 8 w)
  | 32 => s.placeDescriptor (BitVec.ofNat 32 w)
  | _ => s

end Sys2Proof.Machine
end

