-- ==== Sys2Proof/Machine/Step.lean ====
section
/-! DEFINITION. One step of the machine: one agent's move, which is at most one atomic operation
(spec/00_scope.md R5, 20_memory.md R80). -/

namespace Sys2Proof.Machine

/-- One step. A configuration that fails its checks is refused (41_registry.md R213). Otherwise the
schedule says which agent moves, and with nobody scheduled the block keeps its state. -/
def step (s : State) : Host.Outcome State Fault Refusal :=
  match configDefects s.cfg with
  | d :: _ => .refused (.illegalConfig d)
  | [] =>
    match s.schedule with
    | [] => .next s
    | a :: rest => agentStep a { s with schedule := rest }

/-- `s` with a word of the opcode table placed where the next step fetches and runs it: a command word
is issued by the commander, a type byte stands in a frame whose last byte arrives, and a descriptor
word stands in a registry layout that is decoded with. -/
def State.withFetchWord (s : State) (nbits w : Nat) : State := s.placeWord nbits w

end Sys2Proof.Machine
end

