-- ==== Sys2Proof/Machine/Assembler.lean ====
section
/-! DEFINITION. The assembler of spec/30_encoding.md R118 and R119: one operation or pseudo-operation per
line, as text, to the requests an agent issues. -/

namespace Sys2Proof.Machine

/-- What a line is made of: words (mnemonics, tags, numbers, CSR names) and punctuation. -/
inductive Token where
  | word (cs : List Char)
  | openBrace | closeBrace
  | openSquare | closeSquare
  | openParen | closeParen
  | comma
deriving DecidableEq, Repr

/-- The punctuation of R118. Braces are characters 123 and 125. -/
def punctuation (c : Char) : Option Token :=
  match c.toNat with
  | 123 => some .openBrace
  | 125 => some .closeBrace
  | 91 => some .openSquare
  | 93 => some .closeSquare
  | 40 => some .openParen
  | 41 => some .closeParen
  | 44 => some .comma
  | _ => none

/-- The word collected so far, its last character first. -/
def endWord (cur : List Char) : List Token := if cur = [] then [] else [.word cur.reverse]

/-- Split a line into tokens; `;` starts a comment (R118). -/
def tokenize : List Char → List Char → List Token
  | cur, [] => endWord cur
  | cur, c :: cs =>
    if c = ';' then endWord cur
    else if c.isWhitespace then endWord cur ++ tokenize [] cs
    else
      match punctuation c with
      | some t => endWord cur ++ t :: tokenize [] cs
      | none => tokenize (c :: cur) cs

/-- The value of a digit in base 16. -/
def digitValue (c : Char) : Option Nat :=
  if '0' ≤ c ∧ c ≤ '9' then some (c.toNat - 48)
  else if 'A' ≤ c ∧ c ≤ 'F' then some (c.toNat - 55)
  else if 'a' ≤ c ∧ c ≤ 'f' then some (c.toNat - 87)
  else none

/-- Digits of a base, most significant first, onto an accumulated value. -/
def digitsValue (base : Nat) : Nat → List Char → Option Nat
  | acc, [] => some acc
  | acc, c :: cs =>
    match digitValue c with
    | some d => if d < base then digitsValue base (base * acc + d) cs else none
    | none => none

/-- A non-empty run of digits of a base. -/
def digits (base : Nat) (cs : List Char) : Option Nat :=
  if cs = [] then none else digitsValue base 0 cs

/-- A natural number: hexadecimal with `0x`, or decimal (R118). -/
def parseNat : List Char → Option Nat
  | '0' :: 'x' :: cs => digits 16 cs
  | cs => digits 10 cs

/-- An integer: a number, or one behind a minus sign. -/
def parseInt : List Char → Option Int
  | '-' :: cs => (parseNat cs).map fun n => -(n : Int)
  | cs => (parseNat cs).map fun n => (n : Int)

/-- A number that fits one byte. -/
def byteOfNat (n : Nat) : Option Byte := if n < 256 then some (BitVec.ofNat 8 n) else none

/-- The items of a byte list up to its closing bracket: hexadecimal bytes (R118). -/
def parseBytes : List Token → Option (List Byte × List Token)
  | .closeSquare :: ts => some ([], ts)
  | .word cs :: ts => do
    let b ← (digits 16 cs).bind byteOfNat
    let (bs, rest) ← parseBytes ts
    return (b :: bs, rest)
  | _ => none

/-- The numbers of a tagged value up to its closing parenthesis. -/
def parseArgs : List Token → Option (List Int × List Token)
  | .word cs :: .comma :: ts => do
    let n ← parseInt cs
    let (ns, rest) ← parseArgs ts
    return (n :: ns, rest)
  | .word cs :: .closeParen :: ts => do
    let n ← parseInt cs
    return ([n], ts)
  | _ => none

/-- The tagged value of a tag and its numbers (42_codec.md R241). -/
def taggedValue (tag : List Char) (ns : List Int) : Option FieldValue :=
  match ns with
  | [b] =>
    if tag = "F32".toList then some (.f32 b)
    else if tag = "F64".toList then some (.f64 b)
    else none
  | [w, n] =>
    if w < 0 then none
    else if tag = "U".toList then some (.u w.toNat n)
    else if tag = "S".toList then some (.s w.toNat n)
    else if tag = "E".toList then some (.e w.toNat n)
    else if tag = "FL".toList then some (.fl w.toNat n)
    else none
  | [w, n, base, exp] =>
    if w < 0 ∨ base < 0 then none
    else if tag = "FXU".toList then some (.fxu w.toNat n base.toNat exp)
    else if tag = "FXS".toList then some (.fxs w.toNat n base.toNat exp)
    else none
  | _ => none

/-- One tagged value (R118). -/
def parseValue : List Token → Option (FieldValue × List Token)
  | .word tag :: .openParen :: .openSquare :: ts => do
    let (bs, rest) ← parseBytes ts
    match rest with
    | .closeParen :: rest' => if tag = "BLOB".toList then some (.blob bs, rest') else none
    | _ => none
  | .word tag :: .openParen :: ts => do
    let (ns, rest) ← parseArgs ts
    let v ← taggedValue tag ns
    return (v, rest)
  | _ => none

/-- The rest of a field list up to its closing brace, after at least one value. -/
def parseValues : Nat → List Token → Option (List FieldValue × List Token)
  | 0, _ => none
  | fuel + 1, ts => do
    let (v, rest) ← parseValue ts
    match rest with
    | .comma :: rest' =>
      let (vs, rest'') ← parseValues fuel rest'
      return (v :: vs, rest'')
    | .closeBrace :: rest' => some ([v], rest')
    | _ => none

/-- A whole field list, nothing after it (R118). -/
def fieldList : List Token → Option (List FieldValue)
  | [.openBrace, .closeBrace] => some []
  | .openBrace :: ts =>
    match parseValues ts.length ts with
    | some (vs, []) => some vs
    | _ => none
  | _ => none

/-- A whole byte list, nothing after it (R118). -/
def byteList : List Token → Option (List Byte)
  | .openSquare :: ts =>
    match parseBytes ts with
    | some (bs, []) => some bs
    | _ => none
  | _ => none

/-- The CSR names of 10_state.md R44 to R50. -/
def csrNames : List (String × Byte) :=
  [("STATUS", 0x00), ("BUF_LEVEL", 0x01), ("RXQ_LEVEL", 0x02), ("CFG_BUF_CAP", 0x03),
    ("CFG_RXQ_DEPTH", 0x04), ("LAST_DROP", 0x05), ("CNT_RX_BYTES", 0x10), ("CNT_FRAMES_OK", 0x11),
    ("CNT_CKSUM_ERR", 0x12), ("CNT_EMPTY", 0x13), ("CNT_UNKNOWN", 0x14), ("CNT_DECODE_ERR", 0x15),
    ("CNT_DELIVERED", 0x16), ("CNT_RXQ_DROP", 0x17), ("CNT_ACK", 0x18), ("CNT_NACK", 0x19),
    ("CNT_EVICT", 0x1A), ("CNT_TX_FRAMES", 0x1B), ("CNT_HOST_ERR", 0x1C)]

/-- A CSR by its index or its name (R118). -/
def csrIndex (cs : List Char) : Option Byte :=
  match csrNames.find? (fun x => x.1.toList == cs) with
  | some x => some x.2
  | none => (parseNat cs).bind byteOfNat

/-- An operation that takes no operand. -/
def nullary (op : BitVec 4) : List Token → Option (List Request)
  | [] => some [.command (commandWord op 0) [] []]
  | _ => none

/-- The type byte that starts an operand list. -/
def withType (ts : List Token) (k : Byte → List Token → Option (List Request)) :
    Option (List Request) :=
  match ts with
  | .word cs :: rest =>
    match (parseNat cs).bind byteOfNat with
    | some t => k t rest
    | none => none
  | _ => none

/-- The requests of one operation or pseudo-operation (R118, R119). -/
def assembleTokens (m : List Char) (ts : List Token) : Option (List Request) :=
  if m = "FEED_BYTE".toList then
    withType ts fun b rest => if rest = [] then some [feedByteRequest b] else none
  else if m = "GET_MSG".toList then nullary 2 ts
  else if m = "SEND_CMD".toList then
    withType ts fun t rest => (fieldList rest).map fun vs => [.command (commandWord 3 t) vs []]
  else if m = "WAIT_ACK".toList then nullary 4 ts
  else if m = "ABANDON".toList then nullary 5 ts
  else if m = "DECODE".toList then
    withType ts fun t rest => (byteList rest).map fun bs => [.command (commandWord 6 t) [] bs]
  else if m = "ENCODE".toList then
    withType ts fun t rest => (fieldList rest).map fun vs => [.command (commandWord 7 t) vs []]
  else if m = "CSR_READ".toList then
    match ts with
    | [.word cs] => (csrIndex cs).map fun i => [.command (commandWord 8 i) [] []]
    | _ => none
  else if m = "FEED".toList then (byteList ts).map feedRequests
  else if m = "SEND_AND_WAIT".toList then
    withType ts fun t rest => (fieldList rest).map fun vs => [.sendAndWait t vs]
  else if m = "FEED_FRAME".toList then
    withType ts fun t rest => (byteList rest).map (feedFrameRequests t)
  else none

/-- One line (R118): an empty or comment line stands for no request, and `none` is a line that is not of
the syntax. -/
def assembleLine (line : String) : Option (List Request) :=
  match tokenize [] line.toList with
  | [] => some []
  | .word m :: ts => assembleTokens m ts
  | _ => none

/-- A list of lines, in order (R118: one operation per line). -/
def assembleLines : List String → Option (List Request)
  | [] => some []
  | l :: ls => do
    let r ← assembleLine l
    let rs ← assembleLines ls
    return r ++ rs

end Sys2Proof.Machine
end

