-- ==== Sys2Proof/Safety.lean ====
section
/-! DEFINITION. What a sound state of Sleipnir CORE is, in the terms the statements use: the bounds and
the forms that spec/10_state.md and spec/60_exceptions.md give the state elements. -/

namespace Sys2Proof

open Sys2Proof.Machine

/-- The scan would wait: no complete candidate stands in the buffer (00_scope.md, glossary). -/
def Quiescent (s : State) : Prop := scanStep s = none

/-- The latch is all 0 unless it holds something, and its echo is 0x00 unless the frame had a body
(10_state.md R33). -/
def AckForm (a : AckLatch) : Prop :=
  (a.valid = false → a = AckLatch.clear) ∧ (a.echoValid = false → a.echo = 0)

/-- LAST_DROP holds no code or a drop code 0x01 to 0x07; the type byte is valid exactly for the codes
0x03 to 0x07, and 0x00 otherwise (10_state.md R35, 60_exceptions.md R350, R351). -/
def DropForm (d : LastDrop) : Prop :=
  d.code.toNat ≤ 7 ∧ (d.typeValid = true ↔ 3 ≤ d.code.toNat) ∧ (d.typeValid = false → d.type = 0)

/-- The seven counters one of which counts a checksum-valid candidate (10_state.md R50). -/
def outcomeSum (k : Counters) : Word :=
  k.empty + k.unknown + k.decodeErr + k.delivered + k.rxqDrop + k.ack + k.nack

/-- A sound state: a legal configuration, both queues within their capacity (10_state.md R31, R32), a
quiescent buffer, the forms of the latch and the drop record, the counter accounting of R50, and only
messages in the delivery queue that their type's layout decodes to (42_codec.md R240, R254). -/
structure Sound (s : State) : Prop where
  legal : Legal s.cfg
  bufBound : s.buf.length ≤ s.cfg.bufCap
  rxqBound : s.rxq.length ≤ s.cfg.rxqDepth
  quiescent : Quiescent s
  ackForm : AckForm s.ack
  dropForm : DropForm s.lastDrop
  accounting : s.cnt.framesOk = outcomeSum s.cnt
  typed : ∀ m ∈ s.rxq, messageTyped s.cfg m = true

/-- The states that differ at most in the model's own fields: what is issued, who moves next, and the
outcome port. -/
def SameBlock (s s' : State) : Prop :=
  s'.cfg = s.cfg ∧ s'.buf = s.buf ∧ s'.rxq = s.rxq ∧ s'.ack = s.ack ∧ s'.cmd = s.cmd ∧
    s'.lastDrop = s.lastDrop ∧ s'.cnt = s.cnt ∧ s'.txs = s.txs

/-- `i` is the least index from `start` on at which the byte pair `x`, `y` stands (40_reassembler.md R144,
R146). -/
def LeastPair (x y : Byte) (buf : List Byte) (start i : Nat) : Prop :=
  start ≤ i ∧ i + 1 < buf.length ∧ buf.getD i 0 = x ∧ buf.getD (i + 1) 0 = y ∧
    ∀ j, start ≤ j → j < i → ¬(buf.getD j 0 = x ∧ buf.getD (j + 1) 0 = y)

/-- The scan loop as the spec writes it (40_reassembler.md R142): ScanStep again and again until it
returns WAIT. -/
inductive ScanRun : State → State → Prop where
  | wait {s : State} : scanStep s = none → ScanRun s s
  | consumed {s s' t : State} : scanStep s = some s' → ScanRun s' t → ScanRun s t

/-- The conditions I3 and I4 on a field descriptor (41_registry.md R209, R210). -/
def FieldSound (f : FieldDesc) : Prop :=
  match f.kind with
  | .uint => 1 ≤ f.size ∧ f.size ≤ 64
  | .sint => 1 ≤ f.size ∧ f.size ≤ 64
  | .f32 => f.size = 32
  | .f64 => f.size = 64
  | .blob => 1 ≤ f.size ∧ f.size ≤ 4095
  | .enum set => 1 ≤ f.size ∧ f.size ≤ 64 ∧ set ≠ [] ∧ ∀ v ∈ set, v < 2 ^ f.size
  | .flags => 1 ≤ f.size ∧ f.size ≤ 64
  | .fixu base exp => 1 ≤ f.size ∧ f.size ≤ 64 ∧ (base = 2 ∨ base = 10) ∧ -128 ≤ exp ∧ exp ≤ 127
  | .fixs base exp => 1 ≤ f.size ∧ f.size ≤ 64 ∧ (base = 2 ∨ base = 10) ∧ -128 ≤ exp ∧ exp ≤ 127

/-- The conditions I1, I2, I7 and I8 on a layout, and I3 and I4 on its fields (41_registry.md R207 to
R210, R212). -/
def LayoutSound : Layout → Prop
  | .fixed fields bits =>
    (∀ f ∈ fields, FieldSound f) ∧ (fields.map fieldWidth).sum = bits ∧ bits % 8 = 0 ∧
      bits ≤ 8 * 65534
  | .array header headerBits countIdx sub subBits =>
    (∀ f ∈ header, FieldSound f) ∧ (∀ f ∈ sub, FieldSound f) ∧
      (header.map fieldWidth).sum = headerBits ∧ (sub.map fieldWidth).sum = subBits ∧
      headerBits ≤ 8 * 65534 ∧ (∃ f, header[countIdx]? = some f ∧ f.kind = .uint) ∧ sub ≠ []

/-- The checks I1 to I9 on one filled slot (41_registry.md R207 to R212). -/
def EntrySound (t : Byte) (e : Entry) : Prop :=
  t ≠ 0x83 ∧ t ≠ 0x84 ∧ (e.inLayout ≠ none ∨ e.outLayout ≠ none) ∧
    (∀ lay, e.inLayout = some lay → LayoutSound lay) ∧
    (∀ lay, e.outLayout = some lay → LayoutSound lay ∧ ∃ fields bits, lay = .fixed fields bits)

/-- The bit offset of field `i` in its list: the widths of the fields before it (20_memory.md R73). -/
def fieldOffset (fs : List FieldDesc) (i : Nat) : Nat := ((fs.take i).map fieldWidth).sum

/-- `vals` are the values of all the fields of a list, each decoded at its own offset from bit `o` on
(42_codec.md R244). -/
def FieldsRead (fs : List FieldDesc) (body : List Byte) (o : Nat) (vals : List FieldValue) : Prop :=
  vals.length = fs.length ∧ ∀ (i : Nat) (f : FieldDesc), fs[i]? = some f →
    ∃ v, vals[i]? = some v ∧ fieldDecode f body (o + fieldOffset fs i) = .ok v

/-- The first field of a list that does not decode gives the code `e` (42_codec.md R244, R255). -/
def FirstReadFailure (fs : List FieldDesc) (body : List Byte) (o : Nat) (e : StatusCode) : Prop :=
  ∃ (i : Nat) (f : FieldDesc), fs[i]? = some f ∧ fieldDecode f body (o + fieldOffset fs i) = .error e ∧
    ∀ (j : Nat) (g : FieldDesc), j < i → fs[j]? = some g →
      ∃ v, fieldDecode g body (o + fieldOffset fs j) = .ok v

/-- `pats` are the bit patterns of a value list, one field each (42_codec.md R256). -/
def FieldsWritten (fs : List FieldDesc) (vals : List FieldValue) (pats : List (List Bool)) : Prop :=
  vals.length = fs.length ∧ pats.length = fs.length ∧
    ∀ (i : Nat) (f : FieldDesc) (v : FieldValue), fs[i]? = some f → vals[i]? = some v →
      ∃ p, pats[i]? = some p ∧ fieldEncode f v = .ok p

/-- The first value of a list that its field does not encode gives the code `e` (42_codec.md R256). -/
def FirstWriteFailure (fs : List FieldDesc) (vals : List FieldValue) (e : StatusCode) : Prop :=
  ∃ (i : Nat) (f : FieldDesc) (v : FieldValue),
    fs[i]? = some f ∧ vals[i]? = some v ∧ fieldEncode f v = .error e ∧
    ∀ (j : Nat) (g : FieldDesc) (u : FieldValue), j < i → fs[j]? = some g → vals[j]? = some u →
      ∃ p, fieldEncode g u = .ok p

/-- The source's `feed(chunk)`: append the whole chunk, then scan (40_reassembler.md R160). -/
def feedChunk (bs : List Byte) (s : State) : State :=
  scan { s with
    buf := s.buf ++ bs,
    cnt := { s.cnt with rxBytes := s.cnt.rxBytes + BitVec.ofNat 32 bs.length } }

/-- A stream fed in chunks. -/
def feedChunks : List (List Byte) → State → State
  | [], s => s
  | bs :: rest, s => feedChunks rest (feedChunk bs s)

end Sys2Proof
end

