-- ==== Sys2Proof/Certificates/Slice0/Obligations.lean ====
section
/-! DEFINITION. The statements for the provers. Each cites the rule of spec/ it formalises. -/

open Sys2Proof Sys2Proof.Machine

/-! ### Reset and the invariant -/

/-- 70_reset_and_hazards.md R390: RESET, issued by any agent, always completes; every element of the
state tuple takes its reset value, the configuration and the egress log stay, and no status is
returned. Power-on gives the same state. Every register and both level outputs then show the values of
R391's table. That the outcome port then reads none, that the turn is taken and that what is issued
stays are the model's (log 13, log 2). -/
def Obligations.ResetGivesEveryElementItsResetValue : Prop :=
  (∀ (s : State) (a : Agent) (rest : List Agent),
    Legal s.cfg → s.schedule = a :: rest → nextRequest a s.pending = some .reset →
    ∃ t, step s = .next t ∧ t.buf = [] ∧ t.rxq = [] ∧ t.ack = ⟨false, .ack, false, 0⟩ ∧
      t.cmd = ⟨false, 0⟩ ∧ t.lastDrop = ⟨0, 0, false⟩ ∧ (∀ k, t.cnt.get k = 0) ∧
      t.cfg = s.cfg ∧ t.txs = s.txs ∧ t.out = .none ∧
      t.schedule = rest ∧ t.pending = dropRequest a s.pending ∧
      csrValue t 0x00 = some 0x00010000 ∧ csrValue t 0x01 = some 0) ∧
  (∀ c : Config, (State.resetWith c).doReset = State.resetWith c) ∧
  (∀ c : Config, Legal c →
    csrValue (State.resetWith c) 0x00 = some 0x00010000 ∧
    csrValue (State.resetWith c) 0x01 = some 0 ∧
    csrValue (State.resetWith c) 0x02 = some 0 ∧
    csrValue (State.resetWith c) 0x03 = some (BitVec.ofNat 32 c.bufCap) ∧
    csrValue (State.resetWith c) 0x04 = some (BitVec.ofNat 32 c.rxqDepth) ∧
    csrValue (State.resetWith c) 0x05 = some 0 ∧
    (∀ i : Byte, 0x10 ≤ i.toNat → i.toNat ≤ 0x1C → csrValue (State.resetWith c) i = some 0) ∧
    msgAvail (State.resetWith c) = false ∧ ackAvail (State.resetWith c) = false)

/-- The state after reset is sound under every legal configuration, and the model's default
configuration, a DESIGN CHOICE (log 1), is legal. -/
def Obligations.ResetStateIsSound : Prop :=
  (∀ c : Config, Legal c → Sound (State.resetWith c)) ∧ Legal defaultConfig ∧ Sound State.reset

/-- Every step keeps a sound state sound: the bounds of 10_state.md R31 and R32, quiescence, the forms of
the latch (R33) and the drop record (R35), the counter accounting of R50, and the typing of every
queued message (42_codec.md R240, R254). -/
def Obligations.EveryStepKeepsTheStateSound : Prop :=
  ∀ s s' : State, Sound s → step s = .next s' → Sound s'

/-! ### The machine's step -/

/-- A step runs the decoded operation: where the scheduled agent's oldest request is a command word that
decodes to `i`, the step is `exec i` with the agent's turn taken, and the request is taken away unless
the operation holds (43_host_ops.md R300, R301). The schedule and the request queues are the model's
(log 2, log 3). -/
def Obligations.StepRunsTheDecodedOperation : Prop :=
  ∀ (s t : State) (a : Agent) (rest : List Agent) (w : CommandWord) (vals : List FieldValue)
    (body : List Byte) (i : Instr),
    Legal s.cfg → s.schedule = a :: rest →
    nextRequest a s.pending = some (.command w vals body) → decodeCommand w vals body = .ok i →
    exec i { s with schedule := rest } = .next t →
    step s = .next (if t.out = .hold then { t with outFor := some a }
      else { t with outFor := some a, pending := dropRequest a t.pending })

/-- 30_encoding.md R116: which command words are illegal, and that an illegal word returns E_ILLEGAL_OP
and changes no state but CNT_HOST_ERR. The outcome port, the turn and the request taken away are the
model's (log 2). -/
def Obligations.IllegalWordsReturnIllegalOp : Prop :=
  (∀ (w : CommandWord) (vals : List FieldValue) (body : List Byte),
    (∃ e, decodeCommand w vals body = .error e) ↔
      (w.toNat / 4096 = 0 ∨ 9 ≤ w.toNat / 4096 ∨ w.toNat / 256 % 16 ≠ 0 ∨
        (w.toNat % 256 ≠ 0 ∧
          (w.toNat / 4096 = 2 ∨ w.toNat / 4096 = 4 ∨ w.toNat / 4096 = 5)))) ∧
  (∀ (s : State) (a : Agent) (rest : List Agent) (w : CommandWord) (vals : List FieldValue)
    (body : List Byte) (e : DecodeError),
    Legal s.cfg → s.schedule = a :: rest →
    nextRequest a s.pending = some (.command w vals body) → decodeCommand w vals body = .error e →
    step s = .next { s with
      cnt := { s.cnt with hostErr := s.cnt.hostErr + 1 }, out := .status .eIllegalOp,
      outFor := some a, schedule := rest, pending := dropRequest a s.pending })

/-- 43_host_ops.md R301: a held operation writes nothing of the block and stays its agent's oldest
request; only GET_MSG with an empty queue and WAIT_ACK without a latched acknowledgement hold. That a
held operation shows as a step with the outcome `hold` is the model's choice (log 3). -/
def Obligations.HeldOperationChangesNothingAndWaits : Prop :=
  ∀ (s t : State) (a : Agent) (rest : List Agent) (w : CommandWord) (vals : List FieldValue)
    (body : List Byte) (i : Instr),
    Legal s.cfg → s.schedule = a :: rest →
    nextRequest a s.pending = some (.command w vals body) → decodeCommand w vals body = .ok i →
    exec i { s with schedule := rest } = .next t → t.out = .hold →
    (∃ s', step s = .next s' ∧ SameBlock s s' ∧ s'.out = .hold ∧ s'.pending = s.pending ∧
      s'.schedule = rest) ∧
    ((i = .getMsg ∧ s.rxq = []) ∨
      (i = .waitAck ∧ s.cmd.pending = true ∧ s.ack.valid = false))

/-- 43_host_ops.md R310: SEND_AND_WAIT runs SEND_CMD; on OK the same agent's next request is WAIT_ACK, and
on an error code the pseudo-operation is over with that code. The request queue is the model's
(log 2). -/
def Obligations.SendAndWaitIsSendThenWait : Prop :=
  ∀ (s t : State) (a : Agent) (rest : List Agent) (ty : Byte) (vals : List FieldValue),
    Legal s.cfg → s.schedule = a :: rest →
    nextRequest a s.pending = some (.sendAndWait ty vals) →
    exec (.sendCmd ty vals) { s with schedule := rest } = .next t →
    (t.out = .ok .unit → ∃ u, step s = .next u ∧ SameBlock t u ∧ u.out = .ok .unit ∧
      nextRequest a u.pending = some (.command 0x4000 [] []) ∧
      decodeCommand 0x4000 [] [] = .ok .waitAck ∧
      ∀ b, b ≠ a → nextRequest b u.pending = nextRequest b s.pending) ∧
    (∀ e, t.out = .status e → ∃ u, step s = .next u ∧ SameBlock t u ∧ u.out = .status e ∧
      u.pending = dropRequest a s.pending)

/-- 00_scope.md R15: every host operation ends in OK with a result value, in a status code or in HOLD, in
every state. 60_exceptions.md R350, R352, R353: OK is the status byte 0x00, every other code a host can
get has its byte in 0x03 to 0x06 or 0x08 to 0x0E, and HOLD is no code.
The spec marks this as its own inference (00_scope.md R15, [derived]). -/
def Obligations.EveryHostOperationHasADefinedOutcome : Prop :=
  ∀ (w : CommandWord) (vals : List FieldValue) (body : List Byte) (i : Instr) (s : State),
    decodeCommand w vals body = .ok i →
    ∃ t, exec i s = .next t ∧
      (((∃ r, t.out = .ok r) ∧ statusOut t = some 0x00) ∨
        (∃ e b, t.out = .status e ∧ statusOut t = some b ∧
          ((0x03 ≤ b.toNat ∧ b.toNat ≤ 0x06) ∨ (0x08 ≤ b.toNat ∧ b.toNat ≤ 0x0E))) ∨
        (t.out = .hold ∧ statusOut t = none))

/-- 60_exceptions.md R364: under a legal configuration every step answers a next state.
The spec marks this as its own inference (60_exceptions.md R364, [derived]). -/
def Obligations.LegalConfigurationNeverStops : Prop :=
  ∀ s : State, Legal s.cfg → ∃ s', step s = .next s'

/-- 41_registry.md R213: a configuration that fails a check has no run. That the step refuses it, naming a
defect of it, is the model's form of this (log 11). -/
def Obligations.DefectiveConfigurationHasNoRun : Prop :=
  ∀ s : State, ¬ Legal s.cfg →
    ∃ d, d ∈ configDefects s.cfg ∧ step s = .refused (.illegalConfig d)

/-- 41_registry.md R207 to R212, 00_scope.md R7 to R9: what a legal configuration is, check by check. -/
def Obligations.LegalMeansEveryCheckPasses : Prop :=
  ∀ c : Config, Legal c ↔
    (8 ≤ c.bufCap ∧ c.bufCap ≤ 2 ^ 32 - 1) ∧ (1 ≤ c.rxqDepth ∧ c.rxqDepth ≤ 2 ^ 32 - 1) ∧
    c.registry.Pairwise (fun x y => x.1.toNat < y.1.toNat) ∧
    (∀ t e, (t, e) ∈ c.registry → EntrySound t e) ∧
    (∃ fields, inLayout c 0xDC = some (.fixed fields 72) ∧
      fields.map (fun f => (f.kind, f.size)) = [(.uint, 8), (.uint, 16), (.uint, 32), (.uint, 16)]) ∧
    outLayout c 0xDC = none

/-- 10_state.md R38 and R31: no step changes the configuration, and a step changes the rolling buffer only
where it runs a FEED_BYTE or a RESET. -/
def Obligations.ConfigurationIsFixedAndBufferIsWrittenOnlyByFeedByteAndReset : Prop :=
  (∀ s s' : State, step s = .next s' → s'.cfg = s.cfg) ∧
  (∀ s s' : State, step s = .next s' → s'.buf ≠ s.buf →
    ∃ a rest, s.schedule = a :: rest ∧
      (nextRequest a s.pending = some .reset ∨
        ∃ w vals body b, nextRequest a s.pending = some (.command w vals body) ∧
          decodeCommand w vals body = .ok (.feedByte b)))

/-- 10_state.md R36: the egress stream only grows, by one whole frame at a time, and only a SEND_CMD (or
the SEND_CMD of a SEND_AND_WAIT) appends to it. -/
def Obligations.EgressGrowsByWholeFrames : Prop :=
  ∀ s s' : State, step s = .next s' →
    s'.txs = s.txs ∨
    ∃ a rest t body, s.schedule = a :: rest ∧ s'.txs = s.txs ++ txFrame t body ∧
      body.length ≤ 65534 ∧
      ((∃ w vals bs, nextRequest a s.pending = some (.command w vals bs) ∧
          decodeCommand w vals bs = .ok (.sendCmd t vals)) ∨
        ∃ vals, nextRequest a s.pending = some (.sendAndWait t vals))

/-- 10_state.md R32, 20_memory.md R81: messages enter the delivery queue at the back and leave it from the
front. A step appends, removes the oldest, or (a RESET) empties the queue.
The spec marks this as its own inference (20_memory.md R81, [derived]). -/
def Obligations.DeliveryQueueIsFirstInFirstOut : Prop :=
  ∀ s s' : State, step s = .next s' →
    (∃ new, s'.rxq = s.rxq ++ new) ∨ (∃ v, s.rxq = v :: s'.rxq ∧ s'.out = .ok (.msg v)) ∨
    (s'.rxq = [] ∧ ∃ a rest, s.schedule = a :: rest ∧ nextRequest a s.pending = some .reset)

/-- 70_reset_and_hazards.md section 1: operations held across a RESET. A held WAIT_ACK returns
E_NOT_PENDING and CNT_HOST_ERR is then 1; a held GET_MSG stays held. -/
def Obligations.ResetReleasesHeldWaitAckOnly : Prop :=
  ∀ (s : State) (r a : Agent) (rest : List Agent), Legal s.cfg → r ≠ a →
    s.schedule = r :: a :: rest → nextRequest r s.pending = some .reset →
    (nextRequest a s.pending = some (.command 0x4000 [] []) →
      ∃ u, Sys2Proof.core.run 2 s = .next u ∧ u.out = .status .eNotPending ∧
        u.cnt = { Counters.zero with hostErr := 1 } ∧
        u.pending = dropRequest a (dropRequest r s.pending)) ∧
    (nextRequest a s.pending = some (.command 0x2000 [] []) →
      ∃ u, Sys2Proof.core.run 2 s = .next u ∧ u.out = .hold ∧ u.cnt = Counters.zero ∧
        nextRequest a u.pending = some (.command 0x2000 [] []))

/-! ### Host operations -/

/-- 43_host_ops.md R302. HOLD shows as the outcome `hold` (log 3). -/
def Obligations.GetMsgTakesTheOldestOrHolds : Prop :=
  decodeCommand 0x2000 [] [] = .ok .getMsg ∧
  (∀ (s : State) (v : MsgValue) (rest : List MsgValue), s.rxq = v :: rest →
    exec .getMsg s = .next { s with rxq := rest, out := .ok (.msg v) }) ∧
  (∀ s : State, s.rxq = [] → exec .getMsg s = .next { s with out := .hold })

/-- 43_host_ops.md R303: one frame is sent where no command is pending and the value list encodes; the
codes are E_BUSY before any encoder code, and an error sends nothing. -/
def Obligations.SendCmdSendsOneFrame : Prop :=
  (∀ (t : Byte) (vals : List FieldValue),
    decodeCommand (BitVec.ofNat 16 (0x3000 + t.toNat)) vals [] = .ok (.sendCmd t vals)) ∧
  (∀ (s : State) (t : Byte) (vals : List FieldValue), s.cmd.pending = true →
    exec (.sendCmd t vals) s = .next { s with
      cnt := { s.cnt with hostErr := s.cnt.hostErr + 1 }, out := .status .eBusy }) ∧
  (∀ (s : State) (t : Byte) (vals : List FieldValue) (e : StatusCode), s.cmd.pending = false →
    encodeOut s.cfg t vals = .error e →
    exec (.sendCmd t vals) s = .next { s with
      cnt := { s.cnt with hostErr := s.cnt.hostErr + 1 }, out := .status e }) ∧
  (∀ (s : State) (t : Byte) (vals : List FieldValue) (body : List Byte), s.cmd.pending = false →
    encodeOut s.cfg t vals = .ok body →
    exec (.sendCmd t vals) s = .next { s with
      ack := ⟨false, .ack, false, 0⟩, txs := s.txs ++ txFrame t body,
      cnt := { s.cnt with txFrames := s.cnt.txFrames + 1 }, cmd := ⟨true, t⟩, out := .ok .unit }) ∧
  (∀ (c : Config) (vals : List FieldValue), Legal c →
    encodeOut c 0x83 vals = .error .eEncNoLayout ∧ encodeOut c 0x84 vals = .error .eEncNoLayout)

/-- 43_host_ops.md R304: the latch is returned and cleared, and CMD.TYPE keeps its value. HOLD shows as the
outcome `hold` (log 3). -/
def Obligations.WaitAckReturnsAndClearsTheLatch : Prop :=
  decodeCommand 0x4000 [] [] = .ok .waitAck ∧
  (∀ s : State, s.cmd.pending = true → s.ack.valid = true →
    exec .waitAck s = .next { s with
      ack := ⟨false, .ack, false, 0⟩, cmd := ⟨false, s.cmd.type⟩,
      out := .ok (.ack s.ack.kind s.ack.echoValid s.ack.echo) }) ∧
  (∀ s : State, s.cmd.pending = true → s.ack.valid = false →
    exec .waitAck s = .next { s with out := .hold }) ∧
  (∀ s : State, s.cmd.pending = false →
    exec .waitAck s = .next { s with
      cnt := { s.cnt with hostErr := s.cnt.hostErr + 1 }, out := .status .eNotPending })

/-- 43_host_ops.md R305. -/
def Obligations.AbandonClearsCommandAndLatch : Prop :=
  decodeCommand 0x5000 [] [] = .ok .abandon ∧
  (∀ s : State, exec .abandon s = .next { s with
    cmd := ⟨false, 0⟩, ack := ⟨false, .ack, false, 0⟩, out := .ok .unit })

/-- 43_host_ops.md R306: DECODE answers the message value and writes nothing else, or raises the first
code of its order. -/
def Obligations.DecodeAnswersTheMessage : Prop :=
  (∀ (t : Byte) (body : List Byte),
    decodeCommand (BitVec.ofNat 16 (0x6000 + t.toNat)) [] body = .ok (.decodeMsg t body)) ∧
  (∀ (s : State) (t : Byte) (body : List Byte), inLayout s.cfg t = none →
    exec (.decodeMsg t body) s = .next { s with
      cnt := { s.cnt with hostErr := s.cnt.hostErr + 1 }, out := .status .eUnknownType }) ∧
  (∀ (s : State) (t : Byte) (body : List Byte), inLayout s.cfg t ≠ none → 65534 < body.length →
    exec (.decodeMsg t body) s = .next { s with
      cnt := { s.cnt with hostErr := s.cnt.hostErr + 1 }, out := .status .eDecLength }) ∧
  (∀ (s : State) (t : Byte) (body : List Byte) (e : StatusCode), inLayout s.cfg t ≠ none →
    body.length ≤ 65534 → decodeIn s.cfg t body = .error e →
    exec (.decodeMsg t body) s = .next { s with
      cnt := { s.cnt with hostErr := s.cnt.hostErr + 1 }, out := .status e }) ∧
  (∀ (s : State) (t : Byte) (body : List Byte) (m : MsgValue), inLayout s.cfg t ≠ none →
    body.length ≤ 65534 → decodeIn s.cfg t body = .ok m →
    exec (.decodeMsg t body) s = .next { s with out := .ok (.msg m) }) ∧
  (∀ c : Config, Legal c → inLayout c 0x83 = none ∧ inLayout c 0x84 = none)

/-- 43_host_ops.md R307: ENCODE answers the body bytes and writes nothing else, also while a command is
pending. -/
def Obligations.EncodeAnswersTheBody : Prop :=
  (∀ (t : Byte) (vals : List FieldValue),
    decodeCommand (BitVec.ofNat 16 (0x7000 + t.toNat)) vals [] = .ok (.encodeMsg t vals)) ∧
  (∀ (s : State) (t : Byte) (vals : List FieldValue) (body : List Byte),
    encodeOut s.cfg t vals = .ok body →
    exec (.encodeMsg t vals) s = .next { s with out := .ok (.body body) }) ∧
  (∀ (s : State) (t : Byte) (vals : List FieldValue) (e : StatusCode),
    encodeOut s.cfg t vals = .error e →
    exec (.encodeMsg t vals) s = .next { s with
      cnt := { s.cnt with hostErr := s.cnt.hostErr + 1 }, out := .status e })

/-- 43_host_ops.md R308, 10_state.md R51: a mapped index answers its register with no other effect, and an
unmapped one raises E_CSR_ADDR. -/
def Obligations.CsrReadAnswersMappedIndices : Prop :=
  (∀ i : Byte,
    decodeCommand (BitVec.ofNat 16 (0x8000 + i.toNat)) [] [] = .ok (.csrRead i)) ∧
  (∀ (s : State) (i : Byte), (i.toNat ≤ 0x05 ∨ (0x10 ≤ i.toNat ∧ i.toNat ≤ 0x1C)) →
    ∃ v, csrValue s i = some v ∧ exec (.csrRead i) s = .next { s with out := .ok (.csr v) }) ∧
  (∀ (s : State) (i : Byte), ((0x06 ≤ i.toNat ∧ i.toNat ≤ 0x0F) ∨ 0x1D ≤ i.toNat) →
    exec (.csrRead i) s = .next { s with
      cnt := { s.cnt with hostErr := s.cnt.hostErr + 1 }, out := .status .eCsrAddr })

/-- 10_state.md R44: every field of STATUS, and its reset value. 10_state.md R42: the derived flags in
every state, MSG_AVAIL and ACK_AVAIL of which are the two level outputs (60_exceptions.md R357). -/
def Obligations.StatusRegisterFields : Prop :=
  (∀ s : State, ∃ v, csrValue s 0x00 = some v ∧
    v.getLsbD 0 = s.cmd.pending ∧ v.getLsbD 1 = s.ack.valid ∧
    (v.getLsbD 2 = true ↔ s.ack.kind = .nack) ∧ v.getLsbD 3 = s.ack.echoValid ∧
    v.extractLsb' 4 4 = 0 ∧ v.extractLsb' 8 8 = s.ack.echo ∧
    (v.getLsbD 16 = true ↔ s.rxq.length = 0) ∧
    (v.getLsbD 17 = true ↔ s.rxq.length = s.cfg.rxqDepth) ∧
    v.extractLsb' 18 6 = 0 ∧ v.extractLsb' 24 8 = s.cmd.type) ∧
  (∀ c : Config, Legal c → csrValue (State.resetWith c) 0x00 = some 0x00010000) ∧
  (∀ s : State, (msgAvail s = true ↔ s.rxq ≠ []) ∧ (rxqEmpty s = true ↔ s.rxq = []) ∧
    (rxqFull s = true ↔ s.rxq.length = s.cfg.rxqDepth) ∧ ackAvail s = s.ack.valid)

/-- 10_state.md R45 to R50: the level registers, the two parameters, the drop record, and the index of
each counter. In a sound state the two levels and the two parameters fit their registers, and no step
changes what the parameter registers show. -/
def Obligations.EveryRegisterShowsItsElement : Prop :=
  (∀ s : State, csrValue s 0x01 = some (BitVec.ofNat 32 s.buf.length) ∧
    csrValue s 0x02 = some (BitVec.ofNat 32 s.rxq.length) ∧
    csrValue s 0x03 = some (BitVec.ofNat 32 s.cfg.bufCap) ∧
    csrValue s 0x04 = some (BitVec.ofNat 32 s.cfg.rxqDepth) ∧
    ∃ v, csrValue s 0x05 = some v ∧ v.extractLsb' 0 8 = s.lastDrop.code ∧
      v.extractLsb' 8 8 = s.lastDrop.type ∧ v.getLsbD 16 = s.lastDrop.typeValid ∧
      v.extractLsb' 17 15 = 0) ∧
  (∀ c : Config, csrValue (State.resetWith c) 0x01 = some 0 ∧
    csrValue (State.resetWith c) 0x02 = some 0 ∧ csrValue (State.resetWith c) 0x05 = some 0) ∧
  (∀ s s' : State, step s = .next s' →
    csrValue s' 0x03 = csrValue s 0x03 ∧ csrValue s' 0x04 = csrValue s 0x04) ∧
  (∀ s : State, Sound s →
    (BitVec.ofNat 32 s.buf.length).toNat = s.buf.length ∧
    (BitVec.ofNat 32 s.rxq.length).toNat = s.rxq.length ∧
    (BitVec.ofNat 32 s.cfg.bufCap).toNat = s.cfg.bufCap ∧
    (BitVec.ofNat 32 s.cfg.rxqDepth).toNat = s.cfg.rxqDepth) ∧
  (∀ s : State,
    csrValue s 0x10 = some s.cnt.rxBytes ∧ csrValue s 0x11 = some s.cnt.framesOk ∧
    csrValue s 0x12 = some s.cnt.cksumErr ∧ csrValue s 0x13 = some s.cnt.empty ∧
    csrValue s 0x14 = some s.cnt.unknown ∧ csrValue s 0x15 = some s.cnt.decodeErr ∧
    csrValue s 0x16 = some s.cnt.delivered ∧ csrValue s 0x17 = some s.cnt.rxqDrop ∧
    csrValue s 0x18 = some s.cnt.ack ∧ csrValue s 0x19 = some s.cnt.nack ∧
    csrValue s 0x1A = some s.cnt.evict ∧ csrValue s 0x1B = some s.cnt.txFrames ∧
    csrValue s 0x1C = some s.cnt.hostErr)

/-- 60_exceptions.md R352: a host operation that raises a code counts it in CNT_HOST_ERR and writes
nothing else; the decode codes come from DECODE. -/
def Obligations.HostErrorWritesOnlyItsCounter : Prop :=
  ∀ (w : CommandWord) (vals : List FieldValue) (body : List Byte) (i : Instr) (s t : State)
    (e : StatusCode),
    decodeCommand w vals body = .ok i → exec i s = .next t → t.out = .status e →
    t = { s with cnt := { s.cnt with hostErr := s.cnt.hostErr + 1 }, out := .status e } ∧
    ((∃ ty bs, i = .decodeMsg ty bs ∧
        e ∈ [StatusCode.eUnknownType, .eDecLength, .eDecEnum, .eDecCount]) ∨
      (∃ ty vs, i = .sendCmd ty vs ∧
        e ∈ [StatusCode.eBusy, .eEncNoLayout, .eEncShape, .eEncRange]) ∨
      (∃ ty vs, i = .encodeMsg ty vs ∧
        e ∈ [StatusCode.eEncNoLayout, .eEncShape, .eEncRange]) ∨
      (i = .waitAck ∧ e = .eNotPending) ∨ (∃ c, i = .csrRead c ∧ e = .eCsrAddr))

/-- 20_memory.md section 4: CSR_READ, DECODE and ENCODE can be repeated; the second one gives the same
result and status, whatever the first one counted. -/
def Obligations.PureOperationsAreRepeatable : Prop :=
  ∀ (i : Instr) (s t u : State),
    ((∃ c, i = .csrRead c) ∨ (∃ ty bs, i = .decodeMsg ty bs) ∨ (∃ ty vs, i = .encodeMsg ty vs)) →
    exec i s = .next t → exec i t = .next u →
    u.out = t.out ∧ t = { s with cnt := t.cnt, out := t.out } ∧
      ∀ k, k ≠ .hostErr → t.cnt.get k = s.cnt.get k

/-! ### The Frame Reassembler -/

/-- 40_reassembler.md R140, R141, R142: FEED_BYTE is always OK; it evicts the oldest byte of a full
buffer, appends the byte, counts it, and runs ScanStep until WAIT. -/
def Obligations.FeedByteEvictsAppendsAndScans : Prop :=
  (∀ b : Byte, decodeCommand (BitVec.ofNat 16 (0x1000 + b.toNat)) [] [] = .ok (.feedByte b)) ∧
  (∀ (s : State) (b : Byte), s.buf.length ≠ s.cfg.bufCap →
    ∃ t, exec (.feedByte b) s = .next { t with out := .ok .unit } ∧ t.cmd = s.cmd ∧
      ScanRun { s with
        buf := s.buf ++ [b], cnt := { s.cnt with rxBytes := s.cnt.rxBytes + 1 } } t) ∧
  (∀ (s : State) (b : Byte), s.buf.length = s.cfg.bufCap →
    ∃ t, exec (.feedByte b) s = .next { t with out := .ok .unit } ∧ t.cmd = s.cmd ∧
      ScanRun { s with
        buf := s.buf.drop 1 ++ [b],
        cnt := { s.cnt with
          evict := s.cnt.evict + 1, rxBytes := s.cnt.rxBytes + 1 } } t) ∧
  (∀ (s t : State) (b : Byte), 1 ≤ s.cfg.bufCap → s.buf.length ≤ s.cfg.bufCap →
    exec (.feedByte b) s = .next t → t.buf.length ≤ t.cfg.bufCap)

/-- 40_reassembler.md R140: what FEED_BYTE never writes, in every state. -/
def Obligations.FeedByteFrame : Prop :=
  ∀ (s : State) (b : Byte), ∃ t, exec (.feedByte b) s = .next t ∧ t.out = .ok .unit ∧
    t.cmd = s.cmd ∧ t.txs = s.txs ∧ t.cfg = s.cfg ∧ t.pending = s.pending ∧
    t.schedule = s.schedule ∧ t.cnt.txFrames = s.cnt.txFrames ∧ t.cnt.hostErr = s.cnt.hostErr ∧
    t.cnt.rxBytes = s.cnt.rxBytes + 1 ∧
    (∃ n new, t.buf = (s.buf ++ [b]).drop n ∧ t.rxq = s.rxq ++ new)

/-- 40_reassembler.md R143 to R146: where the candidate at the front of the buffer stands, and that the scan
step waits exactly where there is none. -/
def Obligations.LocateFindsTheFirstCandidate : Prop :=
  (∀ s : State, scanStep s = none ↔ locate s.buf = none) ∧
  ∀ (buf : List Byte) (k : Candidate), locate buf = some k ↔
    8 ≤ buf.length ∧ LeastPair 0xA0 0xA1 buf 0 k.p ∧ k.p + 4 ≤ buf.length ∧
    k.len = (buf.getD (k.p + 2) 0).toNat * 256 + (buf.getD (k.p + 3) 0).toNat ∧
    LeastPair 0x0D 0x0A buf (k.p + 5 + k.len) k.t

/-- 40_reassembler.md R147: the payload ends at the byte before the trailer, and is at least as long as
the length field says.
The spec marks this as its own inference (40_reassembler.md R147, [derived]). -/
def Obligations.CandidateGeometry : Prop :=
  ∀ (buf : List Byte) (k : Candidate), locate buf = some k →
    (candidatePayload buf k).length = k.t - k.p - 5 ∧ k.len ≤ k.t - k.p - 5 ∧
    k.t + 2 ≤ buf.length ∧ k.p + 7 ≤ k.t + 2 ∧
    (∀ j, j < k.t - k.p - 5 →
      (candidatePayload buf k).getD j 0 = buf.getD (k.p + 4 + j) 0) ∧
    candidateXor buf k = xorAll (candidatePayload buf k) ^^^ buf.getD (k.t - 1) 0

/-- 40_reassembler.md R148, R149, R150: a candidate whose checksum fails and one with an empty payload
are dropped and consumed. -/
def Obligations.BadCandidatesAreDropped : Prop :=
  (∀ (s : State) (k : Candidate), locate s.buf = some k → candidateXor s.buf k ≠ 0 →
    scanStep s = some { s with
      buf := s.buf.drop (k.t + 2), cnt := { s.cnt with cksumErr := s.cnt.cksumErr + 1 },
      lastDrop := ⟨0x01, 0x00, false⟩ }) ∧
  (∀ (s : State) (k : Candidate), locate s.buf = some k → candidateXor s.buf k = 0 →
    candidatePayload s.buf k = [] →
    scanStep s = some { s with
      buf := s.buf.drop (k.t + 2),
      cnt := { s.cnt with framesOk := s.cnt.framesOk + 1, empty := s.cnt.empty + 1 },
      lastDrop := ⟨0x02, 0x00, false⟩ })

/-- 30_encoding.md R108 and 40_reassembler.md R151: the type-byte map, and that the scan runs the FRAME row
which the type byte of a checksum-valid candidate decodes to, on the state in which the candidate is
counted and consumed (log 6). -/
def Obligations.ScanRunsTheDecodedFrameRow : Prop :=
  (∀ (s : State) (k : Candidate) (t : Byte) (body : List Byte),
    locate s.buf = some k → candidateXor s.buf k = 0 → candidatePayload s.buf k = t :: body →
    ∃ s', exec (decodeFrame s.cfg t body) { s with
        buf := s.buf.drop (k.t + 2),
        cnt := { s.cnt with framesOk := s.cnt.framesOk + 1 } } = .next s' ∧
      scanStep s = some s') ∧
  (∀ (c : Config) (t : Byte) (body : List Byte),
    decodeFrame c 0x83 body = .frameAck body ∧ decodeFrame c 0x84 body = .frameNack body ∧
    decodeFrame c 0xDC body = .frameMeasTime body ∧
    (t ≠ 0x83 → t ≠ 0x84 → t ≠ 0xDC → inLayout c t ≠ none →
      decodeFrame c t body = .frameRegistered t body) ∧
    (t ≠ 0x83 → t ≠ 0x84 → t ≠ 0xDC → inLayout c t = none →
      decodeFrame c t body = .frameUnknown t body))

/-- 40_reassembler.md R152: an ACK or a NACK is latched whatever the latch held, with the first body byte
as the echo; nothing is delivered and no drop is recorded. -/
def Obligations.AckAndNackFramesAreLatched : Prop :=
  (∀ (c : Config) (body : List Byte), decodeFrame c 0x83 body = .frameAck body ∧
    decodeFrame c 0x84 body = .frameNack body) ∧
  (∀ s : State, exec (.frameAck []) s = .next { s with
    ack := ⟨true, .ack, false, 0x00⟩, cnt := { s.cnt with ack := s.cnt.ack + 1 } }) ∧
  (∀ (s : State) (b : Byte) (rest : List Byte), exec (.frameAck (b :: rest)) s = .next { s with
    ack := ⟨true, .ack, true, b⟩, cnt := { s.cnt with ack := s.cnt.ack + 1 } }) ∧
  (∀ s : State, exec (.frameNack []) s = .next { s with
    ack := ⟨true, .nack, false, 0x00⟩, cnt := { s.cnt with nack := s.cnt.nack + 1 } }) ∧
  (∀ (s : State) (b : Byte) (rest : List Byte), exec (.frameNack (b :: rest)) s = .next { s with
    ack := ⟨true, .nack, true, b⟩, cnt := { s.cnt with nack := s.cnt.nack + 1 } })

/-- 40_reassembler.md R153: a frame of a type that is neither ACK nor NACK and has no inbound layout, be its
slot EMPTY or outbound-only, is dropped with E_UNKNOWN_TYPE. -/
def Obligations.UnknownFramesAreDropped : Prop :=
  (∀ (s : State) (t : Byte) (body : List Byte), t ≠ 0x83 → t ≠ 0x84 → inLayout s.cfg t = none →
    exec (decodeFrame s.cfg t body) s = .next { s with
      cnt := { s.cnt with unknown := s.cnt.unknown + 1 }, lastDrop := ⟨0x03, t, true⟩ }) ∧
  (∀ (s : State) (t : Byte) (body : List Byte), exec (.frameUnknown t body) s = .next { s with
    cnt := { s.cnt with unknown := s.cnt.unknown + 1 }, lastDrop := ⟨0x03, t, true⟩ }) ∧
  (∀ (c : Config) (t : Byte), inLayout c t = none ↔
    (findEntry c.registry t = none ∨
      ∃ e, findEntry c.registry t = some e ∧ e.inLayout = none))

/-- 40_reassembler.md R154, R155: a registered frame is decoded; a failed decode is dropped with its code,
a decoded message is appended to a queue that is not full, and dropped at a full one. -/
def Obligations.RegisteredFramesAreDecodedAndDelivered : Prop :=
  (∀ (c : Config) (t : Byte) (body : List Byte), t ≠ 0x83 → t ≠ 0x84 → t ≠ 0xDC →
    inLayout c t ≠ none → decodeFrame c t body = .frameRegistered t body) ∧
  (∀ (s : State) (body : List Byte),
    exec (.frameMeasTime body) s = exec (.frameRegistered 0xDC body) s) ∧
  (∀ (c : Config) (t : Byte) (body : List Byte) (m : MsgValue),
    decodeIn c t body = .ok m → m.type = t) ∧
  (∀ (s : State) (t : Byte) (body : List Byte) (m : MsgValue), inLayout s.cfg t ≠ none →
    decodeIn s.cfg t body = .ok m → s.rxq.length ≠ s.cfg.rxqDepth →
    exec (.frameRegistered t body) s = .next { s with
      rxq := s.rxq ++ [m], cnt := { s.cnt with delivered := s.cnt.delivered + 1 } }) ∧
  (∀ (s : State) (t : Byte) (body : List Byte) (m : MsgValue), inLayout s.cfg t ≠ none →
    decodeIn s.cfg t body = .ok m → s.rxq.length = s.cfg.rxqDepth →
    exec (.frameRegistered t body) s = .next { s with
      cnt := { s.cnt with rxqDrop := s.cnt.rxqDrop + 1 }, lastDrop := ⟨0x07, t, true⟩ }) ∧
  (∀ (s : State) (t : Byte) (body : List Byte) (e : StatusCode), inLayout s.cfg t ≠ none →
    decodeIn s.cfg t body = .error e →
    e ∈ [StatusCode.eDecLength, .eDecEnum, .eDecCount] ∧
    exec (.frameRegistered t body) s = .next { s with
      cnt := { s.cnt with decodeErr := s.cnt.decodeErr + 1 },
      lastDrop := ⟨statusByte e, t, true⟩ })

/-- 41_registry.md R216 with 40_reassembler.md R154: a "measurement time information" body of nine bytes
is delivered with its four big-endian fields, under every legal configuration; a body of another
length is dropped. -/
def Obligations.MeasurementTimeFramesAreDelivered : Prop :=
  (∀ (s : State) (b0 b1 b2 b3 b4 b5 b6 b7 b8 : Byte), Legal s.cfg →
    s.rxq.length ≠ s.cfg.rxqDepth →
    exec (.frameMeasTime [b0, b1, b2, b3, b4, b5, b6, b7, b8]) s = .next { s with
      rxq := s.rxq ++ [⟨0xDC,
        [.u 8 b0.toNat, .u 16 ((b1.toNat * 256 + b2.toNat : Nat) : Int),
          .u 32 ((((b3.toNat * 256 + b4.toNat) * 256 + b5.toNat) * 256 + b6.toNat : Nat) : Int),
          .u 16 ((b7.toNat * 256 + b8.toNat : Nat) : Int)], none⟩],
      cnt := { s.cnt with delivered := s.cnt.delivered + 1 } }) ∧
  (∀ (s : State) (body : List Byte), Legal s.cfg → body.length ≠ 9 →
    exec (.frameMeasTime body) s = .next { s with
      cnt := { s.cnt with decodeErr := s.cnt.decodeErr + 1 }, lastDrop := ⟨0x04, 0xDC, true⟩ })

/-- 40_reassembler.md R156: a consumed candidate counts in exactly one of CNT_CKSUM_ERR and
CNT_FRAMES_OK, and a checksum-valid one in exactly one of the seven outcome counters.
The spec marks this as its own inference (40_reassembler.md R156, [derived]). -/
def Obligations.EachCandidateCountsOnce : Prop :=
  ∀ s s' : State, scanStep s = some s' →
    s'.cnt = s.cnt.bump .cksumErr ∨
    ∃ k ∈ [CounterId.empty, .ack, .nack, .unknown, .decodeErr, .rxqDrop, .delivered],
      s'.cnt = (s.cnt.bump .framesOk).bump k

/-- 40_reassembler.md R157: a consumed step removes at least 7 bytes, and a scan of at most
`|BUF| / 7 + 1` steps ends in WAIT.
The spec marks this as its own inference (40_reassembler.md R157, [derived]). -/
def Obligations.ScanEndsInWait : Prop :=
  (∀ s s' : State, scanStep s = some s' →
    ∃ n, 7 ≤ n ∧ n ≤ s.buf.length ∧ s'.buf = s.buf.drop n) ∧
  (∀ s : State, scanStep (scanLoop (s.buf.length / 7 + 1) s) = none) ∧
  (∀ s t : State, ScanRun s t ↔ t = scan s)

/-- 40_reassembler.md R159: bytes behind a complete candidate do not change what the scan step does.
The spec marks this as its own inference (40_reassembler.md R159, [derived]). -/
def Obligations.ScanStepIsPrefixStable : Prop :=
  ∀ (s s' : State) (x : List Byte), scanStep s = some s' →
    (∃ n, s'.buf = s.buf.drop n ∧ n ≤ s.buf.length) ∧
    scanStep { s with buf := s.buf ++ x } = some { s' with buf := s'.buf ++ x }

/-- 40_reassembler.md R160: without eviction, a stream gives the same state however it is divided into
chunks, each appended whole and then scanned, and byte by byte.
The spec marks this as its own inference (40_reassembler.md R160, [derived]). -/
def Obligations.ChunkingDoesNotMatter : Prop :=
  ∀ (s : State) (chunks : List (List Byte)), Quiescent s →
    s.buf.length + chunks.flatten.length ≤ s.cfg.bufCap →
    feedChunks chunks s = feedBytes chunks.flatten s

/-- 40_reassembler.md R161: a well-formed frame with one byte of its payload or its checksum changed is
one E_CKSUM drop, and what follows is handled as from an empty buffer.
The spec marks this as its own inference (40_reassembler.md R161, [derived]). -/
def Obligations.CorruptedFrameIsDroppedAlone : Prop :=
  ∀ (s : State) (t : Byte) (body : List Byte) (i : Nat) (b : Byte) (g : List Byte),
    findPreamble s.buf = none → body.length ≤ 65534 →
    s.buf.length + (8 + body.length) ≤ s.cfg.bufCap →
    4 ≤ i → i ≤ 5 + body.length → b ≠ (txFrame t body).getD i 0 →
    feedBytes ((txFrame t body).set i b ++ g) s = feedBytes g { s with
      buf := [],
      cnt := { s.cnt with
        rxBytes := s.cnt.rxBytes + BitVec.ofNat 32 (8 + body.length),
        cksumErr := s.cnt.cksumErr + 1 },
      lastDrop := ⟨0x01, 0x00, false⟩ }

/-- 40_reassembler.md R162: a well-formed frame of an unregistered type is one E_UNKNOWN_TYPE drop, and
what follows is handled as from an empty buffer.
The spec marks this as its own inference (40_reassembler.md R162, [derived]). -/
def Obligations.UnknownFrameIsDroppedAlone : Prop :=
  ∀ (s : State) (t : Byte) (body g : List Byte),
    findPreamble s.buf = none → body.length ≤ 65534 →
    s.buf.length + (8 + body.length) ≤ s.cfg.bufCap →
    t ≠ 0x83 → t ≠ 0x84 → inLayout s.cfg t = none →
    feedBytes (txFrame t body ++ g) s = feedBytes g { s with
      buf := [],
      cnt := { s.cnt with
        rxBytes := s.cnt.rxBytes + BitVec.ofNat 32 (8 + body.length),
        framesOk := s.cnt.framesOk + 1, unknown := s.cnt.unknown + 1 },
      lastDrop := ⟨0x03, t, true⟩ }

/-- 40_reassembler.md R165, 30_encoding.md R100: the transmitted frame is well formed.
The spec marks this as its own inference (40_reassembler.md R165, [derived]). -/
def Obligations.TransmittedFrameIsWellFormed : Prop :=
  ∀ (t : Byte) (body : List Byte), body.length ≤ 65534 →
    (txFrame t body).length = 7 + (1 + body.length) ∧
    (txFrame t body).take 2 = [0xA0, 0xA1] ∧
    ((txFrame t body).getD 2 0).toNat * 256 + ((txFrame t body).getD 3 0).toNat =
      1 + body.length ∧
    slice (txFrame t body) 4 (5 + body.length) = t :: body ∧
    (txFrame t body).getD (5 + body.length) 0 = xorAll (t :: body) ∧
    (txFrame t body).drop (6 + body.length) = [0x0D, 0x0A] ∧
    xorAll (slice (txFrame t body) 4 (6 + body.length)) = 0

/-- 40_reassembler.md R166: from an empty buffer, the bytes of a transmitted frame give one consumed step,
after the last byte and not before, with the same type and body, and an empty buffer.
The spec marks this as its own inference (40_reassembler.md R166, [derived]). -/
def Obligations.TransmittedFrameLoopsBack : Prop :=
  ∀ (s : State) (t : Byte) (body : List Byte), s.buf = [] → body.length ≤ 65534 →
    7 + (1 + body.length) ≤ s.cfg.bufCap →
    (∀ n, n < (txFrame t body).length →
      feedBytes ((txFrame t body).take n) s = { s with
        buf := (txFrame t body).take n,
        cnt := { s.cnt with rxBytes := s.cnt.rxBytes + BitVec.ofNat 32 n } }) ∧
    exec (decodeFrame s.cfg t body) { s with
      cnt := { s.cnt with
        rxBytes := s.cnt.rxBytes + BitVec.ofNat 32 (8 + body.length),
        framesOk := s.cnt.framesOk + 1 } } = .next (feedBytes (txFrame t body) s) ∧
    (feedBytes (txFrame t body) s).buf = []

/-! ### The Message Codec Engine -/

/-- 20_memory.md R72: bodies are read and written most significant bit first. BitRead takes the bits of a
body in that order, and BitWrite with Bytes lays bits out as BitRead reads them (the two primitives are
inferences that 20_memory.md section 3 marks as its own). -/
def Obligations.BitsAreMostSignificantFirst : Prop :=
  (∀ (body : List Byte) (o w : Nat), o + w ≤ 8 * body.length →
    bitRead body o w < 2 ^ w ∧
    ∀ j, j < w → (bitRead body o w).testBit (w - 1 - j) =
      (body.getD ((o + j) / 8) 0).getLsbD (7 - (o + j) % 8)) ∧
  (∀ (before after : List Bool) (w v : Nat), v < 2 ^ w →
    (before.length + w + after.length) % 8 = 0 →
    8 * (bytesOf (before ++ bitsOf w v ++ after)).length = before.length + w + after.length ∧
    bitRead (bytesOf (before ++ bitsOf w v ++ after)) before.length w = v)

/-- 42_codec.md R240, R241, R254: a message that a legal configuration decodes has the type asked for,
fits its layout field by field, and, for an array, has as many items as its count field says. R244 and
20_memory.md R73: the values are those of the fields, each at its own offset, and of the items, each at
its own offset behind the header. A field row on its own answers the same field decode (log 5). -/
def Obligations.DecodedMessagesFitTheirLayout : Prop :=
  (∀ (c : Config) (t : Byte) (body : List Byte) (m : MsgValue), Legal c →
    decodeIn c t body = .ok m → m.type = t ∧ messageTyped c m = true) ∧
  (∀ (c : Config) (t : Byte) (fields : List FieldDesc) (bits : Nat) (body : List Byte)
    (vals : List FieldValue),
    inLayout c t = some (.fixed fields bits) → 8 * body.length = bits →
    FieldsRead fields body 0 vals → decodeIn c t body = .ok ⟨t, vals, none⟩) ∧
  (∀ (c : Config) (t : Byte) (header sub : List FieldDesc) (hb ci sb w : Nat) (body : List Byte)
    (hv : List FieldValue) (items : List (List FieldValue)), Legal c →
    inLayout c t = some (.array header hb ci sub sb) →
    hb ≤ 8 * body.length → (8 * body.length - hb) % sb = 0 →
    FieldsRead header body 0 hv → hv[ci]? = some (.u w items.length) →
    items.length = (8 * body.length - hb) / sb →
    (∀ j item, items[j]? = some item → FieldsRead sub body (hb + j * sb) item) →
    decodeIn c t body = .ok ⟨t, hv, some items⟩) ∧
  (∀ (s : State) (k : KindCode) (d : DescBits) (f : FieldDesc) (body : List Byte) (o : Nat),
    descOf s.cfg.enumSets k d = .ok f → o + fieldWidth f ≤ 8 * body.length →
    (∀ v, fieldDecode f body o = .ok v →
      exec (fieldInstr k d (.decode body o)) s = .next { s with out := .ok (.field v) }) ∧
    (∀ e, fieldDecode f body o = .error e →
      exec (fieldInstr k d (.decode body o)) s = .next { s with out := .status e }))

/-- 42_codec.md R243 and R254: a FIXED body must have exactly the declared length, and one that has it is
never refused for its length; the length tests of an array, the item count implied by the byte range,
and E_DEC_COUNT where the header's count field differs from it. R255: where the length tests pass, the
first failing field gives its code: the fields, or the header's fields, then the count, then the items
in order. -/
def Obligations.BodyLengthAndCountAreChecked : Prop :=
  (∀ (c : Config) (t : Byte) (fields : List FieldDesc) (bits : Nat) (body : List Byte),
    inLayout c t = some (.fixed fields bits) →
    (8 * body.length ≠ bits → decodeIn c t body = .error .eDecLength) ∧
    (8 * body.length = bits → decodeIn c t body ≠ .error .eDecLength)) ∧
  (∀ (c : Config) (t : Byte) (header sub : List FieldDesc) (hb ci sb : Nat) (body : List Byte),
    inLayout c t = some (.array header hb ci sub sb) →
    ((8 * body.length < hb ∨ (8 * body.length - hb) % sb ≠ 0) →
      decodeIn c t body = .error .eDecLength) ∧
    (∀ hv o, ¬ (8 * body.length < hb ∨ (8 * body.length - hb) % sb ≠ 0) →
      unpackFields header body 0 = .ok (hv, o) →
      countOf hv ci ≠ some (((8 * body.length - hb) / sb : Nat) : Int) →
      decodeIn c t body = .error .eDecCount) ∧
    (∀ m, decodeIn c t body = .ok m → ∃ items, m.items = some items ∧
      items.length = (8 * body.length - hb) / sb ∧
      countOf m.fields ci = some (items.length : Int))) ∧
  (∀ (c : Config) (t : Byte) (fields : List FieldDesc) (bits : Nat) (body : List Byte)
    (e : StatusCode),
    inLayout c t = some (.fixed fields bits) → 8 * body.length = bits →
    FirstReadFailure fields body 0 e → decodeIn c t body = .error e) ∧
  (∀ (c : Config) (t : Byte) (header sub : List FieldDesc) (hb ci sb : Nat) (body : List Byte),
    Legal c → inLayout c t = some (.array header hb ci sub sb) →
    hb ≤ 8 * body.length → (8 * body.length - hb) % sb = 0 →
    (∀ e, FirstReadFailure header body 0 e → decodeIn c t body = .error e) ∧
    (∀ hv w (n : Int), FieldsRead header body 0 hv → hv[ci]? = some (.u w n) →
      (n ≠ ((8 * body.length - hb) / sb : Nat) → decodeIn c t body = .error .eDecCount) ∧
      (n = ((8 * body.length - hb) / sb : Nat) →
        ∀ j e, j < (8 * body.length - hb) / sb →
          (∀ i, i < j → ∃ item, FieldsRead sub body (hb + i * sb) item) →
          FirstReadFailure sub body (hb + j * sb) e → decodeIn c t body = .error e))) ∧
  (∀ (f : FieldDesc) (body : List Byte) (o : Nat) (e : StatusCode),
    fieldDecode f body o = .error e → e = .eDecEnum)

/-- 42_codec.md R256 to R266: under a legal configuration, a value list is encoded exactly where it fits
the outbound layout, one value per field in tag, width, scale and range. R256 with 60_exceptions.md R356:
the bytes are the fields' patterns one after another, and which code an encode gives otherwise: no
outbound layout, then a list of another length, then the first failing field. A field row on its own
answers the same field encode (log 5). -/
def Obligations.EncodeAcceptsExactlyTheFittingLists : Prop :=
  (∀ (c : Config) (t : Byte) (fields : List FieldDesc) (bits : Nat) (vals : List FieldValue),
    Legal c → outLayout c t = some (.fixed fields bits) →
    ((∃ bytes, encodeOut c t vals = .ok bytes) ↔ valuesFit fields vals = true)) ∧
  (∀ (c : Config) (t : Byte) (vals : List FieldValue), outLayout c t = none →
    encodeOut c t vals = .error .eEncNoLayout) ∧
  (∀ (c : Config) (t : Byte) (fields : List FieldDesc) (bits : Nat) (vals : List FieldValue),
    outLayout c t = some (.fixed fields bits) →
    (vals.length ≠ fields.length → encodeOut c t vals = .error .eEncShape) ∧
    (∀ pats, FieldsWritten fields vals pats → encodeOut c t vals = .ok (bytesOf pats.flatten)) ∧
    (∀ e, vals.length = fields.length → FirstWriteFailure fields vals e →
      encodeOut c t vals = .error e)) ∧
  (∀ (f : FieldDesc) (v : FieldValue) (e : StatusCode), fieldEncode f v = .error e →
    e = .eEncShape ∨ e = .eEncRange) ∧
  (∀ (s : State) (k : KindCode) (d : DescBits) (f : FieldDesc) (v : FieldValue),
    descOf s.cfg.enumSets k d = .ok f →
    (∀ p, fieldEncode f v = .ok p →
      exec (fieldInstr k d (.encode v)) s = .next { s with out := .ok (.bits p) }) ∧
    (∀ e, fieldEncode f v = .error e →
      exec (fieldInstr k d (.encode v)) s = .next { s with out := .status e }))

/-- 42_codec.md R267: an encoded body is exactly as long as its layout says, and fits a frame.
The spec marks this as its own inference (42_codec.md R267, [derived]). -/
def Obligations.EncodedLengthIsDeclaredLength : Prop :=
  ∀ (c : Config) (t : Byte) (vals : List FieldValue) (bytes : List Byte), Legal c →
    encodeOut c t vals = .ok bytes →
    ∃ fields bits, outLayout c t = some (.fixed fields bits) ∧ bytes.length = bits / 8 ∧
      8 * bytes.length = bits ∧ bytes.length ≤ 65534

/-- 42_codec.md R268: decode and encode are inverse on a symmetric type.
The spec marks this as its own inference (42_codec.md R268, [derived]). -/
def Obligations.SymmetricTypesRoundTrip : Prop :=
  ∀ (c : Config) (t : Byte) (fields : List FieldDesc) (bits : Nat), Legal c →
    inLayout c t = some (.fixed fields bits) → outLayout c t = some (.fixed fields bits) →
    (∀ vals bytes, encodeOut c t vals = .ok bytes →
      decodeIn c t bytes = .ok ⟨t, vals, none⟩) ∧
    (∀ vals body, decodeIn c t body = .ok ⟨t, vals, none⟩ → encodeOut c t vals = .ok body)

/-! ### The field rows

A field row applies one descriptor to a body or to a value and answers on the outcome port only: the
model's way to make the rows of the table executable (log 5). -/

/-- 42_codec.md R245, R251, R257, R258, R264: UINT and FLAGS fields in both directions. -/
def Obligations.UnsignedFieldRows : Prop :=
  (∀ (s : State) (d : DescBits) (body : List Byte) (o : Nat),
    1 ≤ d.size.toNat → d.size.toNat ≤ 64 → d.aux = 0 → d.base = 0 → d.rsvd = 0 →
    o + d.size.toNat ≤ 8 * body.length →
    exec (.fieldUint d (.decode body o)) s = .next { s with
      out := .ok (.field (.u d.size.toNat (bitRead body o d.size.toNat))) } ∧
    exec (.fieldFlags d (.decode body o)) s = .next { s with
      out := .ok (.field (.fl d.size.toNat (bitRead body o d.size.toNat))) }) ∧
  (∀ (s : State) (d : DescBits) (n : Int),
    1 ≤ d.size.toNat → d.size.toNat ≤ 64 → d.aux = 0 → d.base = 0 → d.rsvd = 0 →
    (0 ≤ n → n < 2 ^ d.size.toNat →
      exec (.fieldUint d (.encode (.u d.size.toNat n))) s = .next { s with
        out := .ok (.bits (bitsOf d.size.toNat n.toNat)) } ∧
      exec (.fieldFlags d (.encode (.fl d.size.toNat n))) s = .next { s with
        out := .ok (.bits (bitsOf d.size.toNat n.toNat)) }) ∧
    (¬ (0 ≤ n ∧ n < 2 ^ d.size.toNat) →
      exec (.fieldUint d (.encode (.u d.size.toNat n))) s = .next { s with
        out := .status .eEncRange } ∧
      exec (.fieldFlags d (.encode (.fl d.size.toNat n))) s = .next { s with
        out := .status .eEncRange })) ∧
  (∀ (s : State) (d : DescBits) (v : FieldValue),
    1 ≤ d.size.toNat → d.size.toNat ≤ 64 → d.aux = 0 → d.base = 0 → d.rsvd = 0 →
    ((∀ n, v ≠ .u d.size.toNat n) → exec (.fieldUint d (.encode v)) s = .next { s with
      out := .status .eEncShape }) ∧
    ((∀ n, v ≠ .fl d.size.toNat n) → exec (.fieldFlags d (.encode v)) s = .next { s with
      out := .status .eEncShape }))

/-- 42_codec.md R246, R257, R259: SINT fields in both directions. -/
def Obligations.SignedFieldRow : Prop :=
  ∀ (s : State) (d : DescBits),
    1 ≤ d.size.toNat → d.size.toNat ≤ 64 → d.aux = 0 → d.base = 0 → d.rsvd = 0 →
    (∀ (body : List Byte) (o : Nat), o + d.size.toNat ≤ 8 * body.length →
      ∃ i : Int, exec (.fieldSint d (.decode body o)) s = .next { s with
          out := .ok (.field (.s d.size.toNat i)) } ∧
        -(2 ^ (d.size.toNat - 1)) ≤ i ∧ i < 2 ^ (d.size.toNat - 1) ∧
        i % 2 ^ d.size.toNat = (bitRead body o d.size.toNat : Int)) ∧
    (∀ i : Int, -(2 ^ (d.size.toNat - 1)) ≤ i → i < 2 ^ (d.size.toNat - 1) →
      exec (.fieldSint d (.encode (.s d.size.toNat i))) s = .next { s with
        out := .ok (.bits (bitsOf d.size.toNat (i % 2 ^ d.size.toNat).toNat)) }) ∧
    (∀ i : Int, ¬ (-(2 ^ (d.size.toNat - 1)) ≤ i ∧ i < 2 ^ (d.size.toNat - 1)) →
      exec (.fieldSint d (.encode (.s d.size.toNat i))) s = .next { s with
        out := .status .eEncRange }) ∧
    (∀ v, (∀ i, v ≠ .s d.size.toNat i) →
      exec (.fieldSint d (.encode v)) s = .next { s with out := .status .eEncShape })

/-- 42_codec.md R247, R248, R257, R260, R261: the float patterns pass through unchanged. -/
def Obligations.FloatFieldRows : Prop :=
  ∀ (s : State) (d32 d64 : DescBits), d32 = ⟨32, 0, 0, 0⟩ → d64 = ⟨64, 0, 0, 0⟩ →
    (∀ (body : List Byte) (o : Nat),
      (o + 32 ≤ 8 * body.length → exec (.fieldF32 d32 (.decode body o)) s = .next { s with
        out := .ok (.field (.f32 (bitRead body o 32))) }) ∧
      (o + 64 ≤ 8 * body.length → exec (.fieldF64 d64 (.decode body o)) s = .next { s with
        out := .ok (.field (.f64 (bitRead body o 64))) })) ∧
    (∀ p : Nat,
      (p < 2 ^ 32 → exec (.fieldF32 d32 (.encode (.f32 p))) s = .next { s with
        out := .ok (.bits (bitsOf 32 p)) }) ∧
      (p < 2 ^ 64 → exec (.fieldF64 d64 (.encode (.f64 p))) s = .next { s with
        out := .ok (.bits (bitsOf 64 p)) })) ∧
    (∀ p : Int,
      (p < 0 ∨ 2 ^ 32 ≤ p → exec (.fieldF32 d32 (.encode (.f32 p))) s = .next { s with
        out := .status .eEncRange }) ∧
      (p < 0 ∨ 2 ^ 64 ≤ p → exec (.fieldF64 d64 (.encode (.f64 p))) s = .next { s with
        out := .status .eEncRange })) ∧
    (∀ v,
      ((∀ p, v ≠ .f32 p) → exec (.fieldF32 d32 (.encode v)) s = .next { s with
        out := .status .eEncShape }) ∧
      ((∀ p, v ≠ .f64 p) → exec (.fieldF64 d64 (.encode v)) s = .next { s with
        out := .status .eEncShape }))

/-- 42_codec.md R249, R257, R262: BLOB fields in both directions. -/
def Obligations.BlobFieldRow : Prop :=
  ∀ (s : State) (d : DescBits), 1 ≤ d.size.toNat → d.aux = 0 → d.base = 0 → d.rsvd = 0 →
    (∀ (body : List Byte) (o : Nat), o + 8 * d.size.toNat ≤ 8 * body.length →
      ∃ bs : List Byte, exec (.fieldBlob d (.decode body o)) s = .next { s with
          out := .ok (.field (.blob bs)) } ∧ bs.length = d.size.toNat ∧
        ∀ j, j < d.size.toNat → (bs.getD j 0).toNat = bitRead body (o + 8 * j) 8) ∧
    (∀ bs : List Byte, bs.length = d.size.toNat →
      exec (.fieldBlob d (.encode (.blob bs))) s = .next { s with
        out := .ok (.bits (bs.flatMap (fun b => bitsOf 8 b.toNat))) }) ∧
    (∀ bs : List Byte, bs.length ≠ d.size.toNat →
      exec (.fieldBlob d (.encode (.blob bs))) s = .next { s with out := .status .eEncRange }) ∧
    (∀ v, (∀ bs, v ≠ .blob bs) →
      exec (.fieldBlob d (.encode v)) s = .next { s with out := .status .eEncShape })

/-- 42_codec.md R250, R257, R263, 30_encoding.md R112: ENUM fields in both directions, with the value set
that AUX names in the enum-set table. -/
def Obligations.EnumFieldRow : Prop :=
  ∀ (s : State) (d : DescBits) (set : List Nat),
    1 ≤ d.size.toNat → d.size.toNat ≤ 64 → d.base = 0 → d.rsvd = 0 →
    s.cfg.enumSets[d.aux.toNat]? = some set → set ≠ [] → (∀ v ∈ set, v < 2 ^ d.size.toNat) →
    (∀ (body : List Byte) (o : Nat), o + d.size.toNat ≤ 8 * body.length →
      (bitRead body o d.size.toNat ∈ set →
        exec (.fieldEnum d (.decode body o)) s = .next { s with
          out := .ok (.field (.e d.size.toNat (bitRead body o d.size.toNat))) }) ∧
      (bitRead body o d.size.toNat ∉ set →
        exec (.fieldEnum d (.decode body o)) s = .next { s with out := .status .eDecEnum })) ∧
    (∀ n : Nat, n ∈ set → exec (.fieldEnum d (.encode (.e d.size.toNat n))) s = .next { s with
      out := .ok (.bits (bitsOf d.size.toNat n)) }) ∧
    (∀ n : Int, (∀ m ∈ set, n ≠ (m : Int)) →
      exec (.fieldEnum d (.encode (.e d.size.toNat n))) s = .next { s with
        out := .status .eEncRange }) ∧
    (∀ v, (∀ n, v ≠ .e d.size.toNat n) →
      exec (.fieldEnum d (.encode v)) s = .next { s with out := .status .eEncShape })

/-- 42_codec.md R252, R253, R257, R265, R266: fixed-point fields keep the raw integer, in both
directions; BASE and EXP come from the descriptor (30_encoding.md R112). -/
def Obligations.FixedPointFieldRows : Prop :=
  ∀ (s : State) (d : DescBits) (base : Nat) (exp : Int),
    1 ≤ d.size.toNat → d.size.toNat ≤ 64 → d.rsvd = 0 →
    base = (if d.base = 0 then 2 else 10) → exp = d.aux.toInt →
    (∀ (body : List Byte) (o : Nat), o + d.size.toNat ≤ 8 * body.length →
      exec (.fieldFixu d (.decode body o)) s = .next { s with
        out := .ok (.field (.fxu d.size.toNat (bitRead body o d.size.toNat) base exp)) } ∧
      ∃ i : Int, exec (.fieldFixs d (.decode body o)) s = .next { s with
          out := .ok (.field (.fxs d.size.toNat i base exp)) } ∧
        -(2 ^ (d.size.toNat - 1)) ≤ i ∧ i < 2 ^ (d.size.toNat - 1) ∧
        i % 2 ^ d.size.toNat = (bitRead body o d.size.toNat : Int)) ∧
    (∀ n : Int, 0 ≤ n → n < 2 ^ d.size.toNat →
      exec (.fieldFixu d (.encode (.fxu d.size.toNat n base exp))) s = .next { s with
        out := .ok (.bits (bitsOf d.size.toNat n.toNat)) }) ∧
    (∀ n : Int, ¬ (0 ≤ n ∧ n < 2 ^ d.size.toNat) →
      exec (.fieldFixu d (.encode (.fxu d.size.toNat n base exp))) s = .next { s with
        out := .status .eEncRange }) ∧
    (∀ i : Int, -(2 ^ (d.size.toNat - 1)) ≤ i → i < 2 ^ (d.size.toNat - 1) →
      exec (.fieldFixs d (.encode (.fxs d.size.toNat i base exp))) s = .next { s with
        out := .ok (.bits (bitsOf d.size.toNat (i % 2 ^ d.size.toNat).toNat)) }) ∧
    (∀ i : Int, ¬ (-(2 ^ (d.size.toNat - 1)) ≤ i ∧ i < 2 ^ (d.size.toNat - 1)) →
      exec (.fieldFixs d (.encode (.fxs d.size.toNat i base exp))) s = .next { s with
        out := .status .eEncRange }) ∧
    (∀ v,
      ((∀ n, v ≠ .fxu d.size.toNat n base exp) →
        exec (.fieldFixu d (.encode v)) s = .next { s with out := .status .eEncShape }) ∧
      ((∀ i, v ≠ .fxs d.size.toNat i base exp) →
        exec (.fieldFixs d (.encode v)) s = .next { s with out := .status .eEncShape }))

/-- 41_registry.md R209, 30_encoding.md R112: a descriptor word whose size is out of its kind's range, or
that sets a bit the packing leaves 0, is refused under check I3, whatever it is applied to; an ENUM word
that names no set, an empty one or one that does not fit its width under I4 (R210, log 10); and a read
past the body's end by the refusal `fieldPastBody` (log 5). That an ENUM word which fails both I3 and I4
is named for I3 is the model's choice (log 9), and so is the record of size 0 that a defective word
becomes (`recordOf`, log 11). 30_encoding.md R111: a word of a reserved
KIND decodes to no field row and fails I3. A registry that holds a defective word is refused for the
check that the word fails, named with its slot, layout and field (41_registry.md R213; placing the word
is log 4's). -/
def Obligations.DefectiveDescriptorsAreRefused : Prop :=
  (∀ (s : State) (k : KindCode) (d : DescBits) (op : FieldOp),
    (d.rsvd ≠ 0 ∨ (k ≠ .fixu ∧ k ≠ .fixs ∧ d.base ≠ 0) ∨
      (k ≠ .fixu ∧ k ≠ .fixs ∧ k ≠ .enum ∧ d.aux ≠ 0) ∨ d.size = 0 ∨
      (k = .f32 ∧ d.size ≠ 32) ∨ (k = .f64 ∧ d.size ≠ 64) ∨
      (k ≠ .blob ∧ 64 < d.size.toNat)) →
    exec (fieldInstr k d op) s = .refused (.defectiveDescriptor .i3)) ∧
  (∀ (s : State) (d : DescBits) (op : FieldOp),
    1 ≤ d.size.toNat → d.size.toNat ≤ 64 → d.base = 0 → d.rsvd = 0 →
    (s.cfg.enumSets[d.aux.toNat]? = none ∨ s.cfg.enumSets[d.aux.toNat]? = some [] ∨
      ∃ set, s.cfg.enumSets[d.aux.toNat]? = some set ∧ ∃ v ∈ set, 2 ^ d.size.toNat ≤ v) →
    exec (.fieldEnum d op) s = .refused (.defectiveDescriptor .i4)) ∧
  (∀ (s : State) (k : KindCode) (d : DescBits) (f : FieldDesc) (body : List Byte) (o : Nat),
    descOf s.cfg.enumSets k d = .ok f → 8 * body.length < o + fieldWidth f →
    exec (fieldInstr k d (.decode body o)) s = .refused .fieldPastBody) ∧
  (∀ (sets : List (List Nat)) (w : Word) (op : FieldOp), 9 ≤ w.toNat % 16 →
    decodeDescriptor w op = .error (.reservedKind .i3) ∧ unpackDescriptor sets w = .error .i3) ∧
  (∀ (sets : List (List Nat)) (w : Word),
    (∀ c, unpackDescriptor sets w = .error c → fieldCheck (recordOf sets w) = some c) ∧
    (∀ f, unpackDescriptor sets w = .ok f →
      fieldCheck (recordOf sets w) = none ∧ recordOf sets w = f)) ∧
  (∀ (s : State) (w : Word) (c : CheckCode), Legal s.cfg →
    unpackDescriptor s.cfg.enumSets w = .error c →
    step (s.withFetchWord 32 w.toNat) =
      .refused (.illegalConfig (.integrity ⟨0x00, some .inbound, some 0, c⟩)))

/-! ### Encoding and the assembler -/

/-- 30_encoding.md R108, R111, R112, R114, R115: decoding the encoding of a well-formed instruction gives
it back, operand for operand. -/
def Obligations.DecodeInvertsEncode : Prop :=
  ∀ (c : Config) (i : Instr), WellFormed c i = true → decode c (encode i) = .ok i

/-- 30_encoding.md R114, R112: no bit of a word is dropped: encoding what a command word or a descriptor
word decodes to gives the same word back. -/
def Obligations.EncodeInvertsDecode : Prop :=
  (∀ (w : CommandWord) (vals : List FieldValue) (body : List Byte) (i : Instr),
    decodeCommand w vals body = .ok i →
    ∃ vals' body', encode i = .command w vals' body' ∧ decodeCommand w vals' body' = .ok i) ∧
  (∀ (c : Config) (t : Byte) (body : List Byte),
    encode (decodeFrame c t body) = .frame t body) ∧
  (∀ (w : Word) (op : FieldOp) (i : Instr), decodeDescriptor w op = .ok i →
    encode i = .descriptor w op)

/-- A few words written from 30_encoding.md and 95_test_vectors.md decode to what they stand for, and the
eight lines of the example in 30_encoding.md section 6 assemble to their command words and operand
records; the braces of a field list are written here as the characters 7B and 7D. The registry behind
`decodeTableWord` (log 12) and the assembler's tokens (log 15) are the model's. -/
def Obligations.SpecWordsDecodeAsWritten : Prop :=
  decodeTableWord 16 0x10A0 = some (.feedByte 0xA0) ∧
  decodeTableWord 16 0x3020 = some (.sendCmd 0x20 []) ∧
  decodeTableWord 16 0x8011 = some (.csrRead 0x11) ∧
  decodeTableWord 16 0x1100 = none ∧ decodeTableWord 16 0x9000 = none ∧
  decodeTableWord 8 0x83 = some (.frameAck []) ∧
  decodeDescriptor 0x01FE0108 (.encode (.u 1 0)) =
    .ok (.fieldFixs ⟨16, 0xFE, 1, 0⟩ (.encode (.u 1 0))) ∧
  decodeDescriptor 0x00000085 (.encode (.u 1 0)) =
    .ok (.fieldEnum ⟨8, 0, 0, 0⟩ (.encode (.u 1 0))) ∧
  assembleLine "FEED_BYTE 0xA0" = some [.command 0x10A0 [] []] ∧
  assembleLine "GET_MSG" = some [.command 0x2000 [] []] ∧
  assembleLine "SEND_CMD  0x20 \x7b U(8,0x05), U(16,0x1234) \x7d" =
    some [.command 0x3020 [.u 8 0x05, .u 16 0x1234] []] ∧
  assembleLine "ENCODE    0x20 \x7b U(8,0x05), U(16,0x1234) \x7d" =
    some [.command 0x7020 [.u 8 0x05, .u 16 0x1234] []] ∧
  assembleLine "WAIT_ACK" = some [.command 0x4000 [] []] ∧
  assembleLine "ABANDON" = some [.command 0x5000 [] []] ∧
  assembleLine "DECODE    0xDC [3D 06 ED 0B 0C BC 40 03 E8]" =
    some [.command 0x60DC [] [0x3D, 0x06, 0xED, 0x0B, 0x0C, 0xBC, 0x40, 0x03, 0xE8]] ∧
  assembleLine "CSR_READ  0x11            ; or CSR_READ CNT_FRAMES_OK" =
    some [.command 0x8011 [] []] ∧
  assembleLine "CSR_READ CNT_FRAMES_OK" = some [.command 0x8011 [] []]
end

