-- ==== Sys2Proof/Laws/Codec.lean ====
section
/-! SUPPORT. One law per function of the codec: what it means that it answers a value. -/

namespace Sys2Proof.Machine

/-- The field iterator answers a list exactly where every field in turn answers (R244). -/
theorem unpackFields_cons_ok {f : FieldDesc} {fs : List FieldDesc} {body : List Byte} {o : Nat}
    {vals : List FieldValue} {o' : Nat} :
    unpackFields (f :: fs) body o = .ok (vals, o') ↔
      ∃ v vs, fieldDecode f body o = .ok v ∧
        unpackFields fs body (o + fieldWidth f) = .ok (vs, o') ∧ vals = v :: vs := by
  simp only [unpackFields]
  cases fieldDecode f body o with
  | error e => simp
  | ok v =>
    cases unpackFields fs body (o + fieldWidth f) with
    | error e => simp
    | ok r => obtain ⟨vs, o''⟩ := r; simp; tauto

/-- The field iterator ends at the bit after its last field (R244, 20_memory.md R73). -/
theorem unpackFields_offset {fs : List FieldDesc} {body : List Byte} {o : Nat}
    {vals : List FieldValue} {o' : Nat} (h : unpackFields fs body o = .ok (vals, o')) :
    o' = o + widthSum fs := by
  induction fs generalizing o vals with
  | nil => simp [unpackFields] at h; simp [widthSum, h.2]
  | cons f fs ih =>
    obtain ⟨v, vs, -, hr, -⟩ := unpackFields_cons_ok.1 h
    rw [ih hr, widthSum, Nat.add_assoc]

/-- The item iterator answers a list exactly where every item in turn answers (R254). -/
theorem unpackItems_succ_ok {sub : List FieldDesc} {body : List Byte} {n o : Nat}
    {items : List (List FieldValue)} :
    unpackItems sub body (n + 1) o = .ok items ↔
      ∃ iv o' rest, unpackFields sub body o = .ok (iv, o') ∧
        unpackItems sub body n o' = .ok rest ∧ items = iv :: rest := by
  simp only [unpackItems]
  cases unpackFields sub body o with
  | error e => simp
  | ok r =>
    obtain ⟨iv, o'⟩ := r
    cases hr : unpackItems sub body n o' with
    | error e => simp [hr]
    | ok rest => simp [hr]; tauto

/-- A FIXED layout decodes a body of exactly its length whose fields all decode (R242, R243). -/
theorem decodeLayout_fixed_ok {t : Byte} {fields : List FieldDesc} {bits : Nat} {body : List Byte}
    {m : MsgValue} :
    decodeLayout t (.fixed fields bits) body = .ok m ↔
      8 * body.length = bits ∧ ∃ vals o, unpackFields fields body 0 = .ok (vals, o) ∧
        m = ⟨t, vals, none⟩ := by
  simp only [decodeLayout]
  by_cases h : 8 * body.length = bits
  · cases unpackFields fields body 0 with
    | error e => simp [h]
    | ok r => obtain ⟨vals, o⟩ := r; simp [h, eq_comm]
  · simp [h]

/-- What a decoded array message satisfies (R254). -/
theorem decodeArray_ok {t : Byte} {header : List FieldDesc} {headerBits countIdx : Nat}
    {sub : List FieldDesc} {subBits : Nat} {body : List Byte} {m : MsgValue} :
    decodeArray t header headerBits countIdx sub subBits body = .ok m ↔
      headerBits ≤ 8 * body.length ∧ (8 * body.length - headerBits) % subBits = 0 ∧
      ∃ hv o items, unpackFields header body 0 = .ok (hv, o) ∧
        countOf hv countIdx = some (((8 * body.length - headerBits) / subBits : Nat) : Int) ∧
        unpackItems sub body ((8 * body.length - headerBits) / subBits) o = .ok items ∧
        m = ⟨t, hv, some items⟩ := by
  unfold decodeArray
  by_cases h1 : 8 * body.length < headerBits
  · simp [h1]
  · by_cases h2 : (8 * body.length - headerBits) % subBits = 0
    · generalize (8 * body.length - headerBits) / subBits = n
      cases unpackFields header body 0 with
      | error e => simp [h1, h2]
      | ok r =>
        obtain ⟨hv, o⟩ := r
        by_cases h3 : countOf hv countIdx = some (n : Int)
        · cases hi : unpackItems sub body n o with
          | error e => simp [h1, h2, h3, hi]
          | ok items => simp [h1, h2, h3, hi, eq_comm, Nat.le_of_not_lt h1]
        · simp [h1, h2, h3]
    · simp [h1, h2]

/-- The encode loop answers a bit string exactly where every field in turn answers (R256). -/
theorem packFields_cons_ok {f : FieldDesc} {fs : List FieldDesc} {v : FieldValue}
    {vs : List FieldValue} {bits : List Bool} :
    packFields (f :: fs) (v :: vs) = .ok bits ↔
      ∃ b rest, fieldEncode f v = .ok b ∧ packFields fs vs = .ok rest ∧ bits = b ++ rest := by
  simp only [packFields]
  cases fieldEncode f v with
  | error e => simp
  | ok b =>
    cases packFields fs vs with
    | error e => simp
    | ok rest => simp [eq_comm]

/-- What an encoded body is (R256). -/
theorem encodeOut_ok {c : Config} {t : Byte} {vals : List FieldValue} {bytes : List Byte} :
    encodeOut c t vals = .ok bytes ↔
      ∃ fields bits pattern, outLayout c t = some (.fixed fields bits) ∧
        vals.length = fields.length ∧ packFields fields vals = .ok pattern ∧
        bytes = bytesOf pattern := by
  unfold encodeOut
  cases outLayout c t with
  | none => simp
  | some lay =>
    cases lay with
    | array => simp [encodeLayout]
    | fixed fields bits =>
      simp only [encodeLayout]
      by_cases h : vals.length = fields.length
      · cases hp : packFields fields vals with
        | error e => simp [h, hp]
        | ok pattern => simp [h, hp, eq_comm]
      · simp [h]

/-- A packed word stands for a descriptor exactly where its KIND is assigned and the bits above it pass
check I3 and I4 (30_encoding.md R111, R112). -/
theorem unpackDescriptor_ok {enumSets : List (List Nat)} {w : Word} {f : FieldDesc} :
    unpackDescriptor enumSets w = .ok f ↔
      ∃ k, kindOfCode (kindField w) = some k ∧ descOf enumSets k (descField w) = .ok f := by
  unfold unpackDescriptor
  cases kindOfCode (kindField w) <;> simp

/-! ### The iterators in terms of Safety's field-by-field readings -/

@[simp] theorem fieldOffset_zero (fs : List FieldDesc) : fieldOffset fs 0 = 0 := by simp [fieldOffset]

@[simp] theorem fieldOffset_succ (f : FieldDesc) (fs : List FieldDesc) (i : Nat) :
    fieldOffset (f :: fs) (i + 1) = fieldWidth f + fieldOffset fs i := by simp [fieldOffset]

/-- Reading a field list splits into its first field and the rest (R244). -/
theorem fieldsRead_cons {f : FieldDesc} {fs : List FieldDesc} {body : List Byte} {o : Nat}
    {vals : List FieldValue} :
    FieldsRead (f :: fs) body o vals ↔
      ∃ v vs, vals = v :: vs ∧ fieldDecode f body o = .ok v ∧
        FieldsRead fs body (o + fieldWidth f) vs := by
  constructor
  · rintro ⟨hl, h⟩
    obtain ⟨v, hv, hd⟩ := h 0 f rfl
    obtain - | ⟨v', vs⟩ := vals
    · simp at hl
    · obtain rfl : v' = v := by simpa using hv
      refine ⟨v', vs, rfl, by simpa using hd, by simpa using hl, fun i g hg => ?_⟩
      simpa [Nat.add_assoc] using h (i + 1) g hg
  · rintro ⟨v, vs, rfl, hd, hl, h⟩
    refine ⟨by simpa using hl, fun i g hg => ?_⟩
    obtain - | i := i
    · obtain rfl : f = g := by simpa using hg
      exact ⟨v, rfl, by simpa using hd⟩
    · simpa [Nat.add_assoc] using h i g hg

/-- The field iterator answers exactly the values that the fields have at their offsets (R244). -/
theorem unpackFields_ok_iff {fs : List FieldDesc} {body : List Byte} {o : Nat}
    {vals : List FieldValue} {o' : Nat} :
    unpackFields fs body o = .ok (vals, o') ↔ FieldsRead fs body o vals ∧ o' = o + widthSum fs := by
  induction fs generalizing o vals with
  | nil =>
    simp [unpackFields, FieldsRead, widthSum, eq_comm]
  | cons f fs ih =>
    simp only [unpackFields_cons_ok, fieldsRead_cons, ih, widthSum, Nat.add_assoc]
    constructor
    · rintro ⟨v, vs, hd, ⟨hr, ho⟩, rfl⟩; exact ⟨⟨v, vs, rfl, hd, hr⟩, ho⟩
    · rintro ⟨⟨v, vs, rfl, hd, hr⟩, ho⟩; exact ⟨v, vs, hd, ⟨hr, ho⟩, rfl⟩

/-- A first failure is the first field's, or one behind a first field that answers (R244). -/
theorem firstReadFailure_cons {f : FieldDesc} {fs : List FieldDesc} {body : List Byte} {o : Nat}
    {e : StatusCode} :
    FirstReadFailure (f :: fs) body o e ↔
      fieldDecode f body o = .error e ∨
        ∃ v, fieldDecode f body o = .ok v ∧ FirstReadFailure fs body (o + fieldWidth f) e := by
  constructor
  · rintro ⟨i, g, hg, he, h⟩
    obtain - | i := i
    · obtain rfl : f = g := by simpa using hg
      exact .inl (by simpa using he)
    · obtain ⟨v, hv⟩ := h 0 f (by simp) rfl
      refine .inr ⟨v, by simpa using hv, i, g, hg, by simpa [Nat.add_assoc] using he, fun j k hj hk => ?_⟩
      simpa [Nat.add_assoc] using h (j + 1) k (by omega) hk
  · rintro (he | ⟨v, hv, i, g, hg, he, h⟩)
    · exact ⟨0, f, rfl, by simpa using he, fun j _ hj => absurd hj (Nat.not_lt_zero j)⟩
    · refine ⟨i + 1, g, hg, by simpa [Nat.add_assoc] using he, fun j k hj hk => ?_⟩
      obtain - | j := j
      · obtain rfl : f = k := by simpa using hk
        exact ⟨v, by simpa using hv⟩
      · simpa [Nat.add_assoc] using h j k (by omega) hk

/-- The field iterator fails with the code of the first field that fails (R244). -/
theorem unpackFields_error_iff {fs : List FieldDesc} {body : List Byte} {o : Nat} {e : StatusCode} :
    unpackFields fs body o = .error e ↔ FirstReadFailure fs body o e := by
  induction fs generalizing o with
  | nil => simp [unpackFields, FirstReadFailure]
  | cons f fs ih =>
    rw [firstReadFailure_cons, ← ih]
    simp only [unpackFields]
    cases fieldDecode f body o with
    | error e' => simp
    | ok v =>
      cases unpackFields fs body (o + fieldWidth f) with
      | error e' => simp
      | ok r => simp

/-- The item iterator answers `n` items, each read at its own offset (R254). -/
theorem unpackItems_ok_iff {sub : List FieldDesc} {body : List Byte} {n o : Nat}
    {items : List (List FieldValue)} :
    unpackItems sub body n o = .ok items ↔
      items.length = n ∧ ∀ (j : Nat) (item : List FieldValue), items[j]? = some item →
        FieldsRead sub body (o + j * widthSum sub) item := by
  induction n generalizing o items with
  | zero =>
    simp only [unpackItems]
    constructor
    · rintro ⟨⟩; simp
    · rintro ⟨h, -⟩; rw [List.eq_nil_of_length_eq_zero h]
  | succ n ih =>
    rw [unpackItems_succ_ok]
    constructor
    · rintro ⟨iv, o', rest, hu, hr, rfl⟩
      obtain ⟨hf, rfl⟩ := unpackFields_ok_iff.1 hu
      obtain ⟨hl, h⟩ := ih.1 hr
      refine ⟨by simpa using hl, fun j item hj => ?_⟩
      obtain - | j := j
      · obtain rfl : iv = item := by simpa using hj
        simpa using hf
      · have := h j item hj
        rwa [show o + (j + 1) * widthSum sub = o + widthSum sub + j * widthSum sub by ring]
    · rintro ⟨hl, h⟩
      obtain - | ⟨iv, rest⟩ := items
      · simp at hl
      · refine ⟨iv, o + widthSum sub, rest, unpackFields_ok_iff.2 ⟨?_, rfl⟩, ih.2 ⟨?_, ?_⟩, rfl⟩
        · simpa using h 0 iv rfl
        · simpa using hl
        · intro j item hj
          have := h (j + 1) item hj
          rwa [show o + (j + 1) * widthSum sub = o + widthSum sub + j * widthSum sub by ring] at this

/-- The item iterator fails with the code of the first item that fails (R254, R255). -/
theorem unpackItems_error {sub : List FieldDesc} {body : List Byte} {n o j : Nat} {e : StatusCode}
    (hj : j < n) (hok : ∀ i, i < j → ∃ item, FieldsRead sub body (o + i * widthSum sub) item)
    (he : FirstReadFailure sub body (o + j * widthSum sub) e) :
    unpackItems sub body n o = .error e := by
  induction n generalizing o j with
  | zero => omega
  | succ n ih =>
    simp only [unpackItems]
    obtain - | j := j
    · rw [unpackFields_error_iff.2 (by simpa using he)]
    · obtain ⟨item, hi⟩ := hok 0 (by omega)
      rw [unpackFields_ok_iff.2 ⟨by simpa using hi, rfl⟩]
      dsimp only
      have shift (i : Nat) : o + widthSum sub + i * widthSum sub = o + (i + 1) * widthSum sub := by ring
      rw [ih (j := j) (by omega) (fun i hi => by simpa only [shift] using hok (i + 1) (by omega))
        (by rwa [shift])]

/-- Writing a value list splits into its first value and the rest (R256). -/
theorem fieldsWritten_cons {f : FieldDesc} {fs : List FieldDesc} {v : FieldValue}
    {vs : List FieldValue} {pats : List (List Bool)} :
    FieldsWritten (f :: fs) (v :: vs) pats ↔
      ∃ p ps, pats = p :: ps ∧ fieldEncode f v = .ok p ∧ FieldsWritten fs vs ps := by
  constructor
  · rintro ⟨hl, hp, h⟩
    obtain ⟨p, hp0, he⟩ := h 0 f v rfl rfl
    obtain - | ⟨p', ps⟩ := pats
    · simp at hp
    · obtain rfl : p' = p := by simpa using hp0
      exact ⟨p', ps, rfl, he, by simpa using hl, by simpa using hp,
        fun i g u hg hu => by simpa using h (i + 1) g u hg hu⟩
  · rintro ⟨p, ps, rfl, he, hl, hp, h⟩
    refine ⟨by simpa using hl, by simpa using hp, fun i g u hg hu => ?_⟩
    obtain - | i := i
    · obtain rfl : f = g := by simpa using hg
      obtain rfl : v = u := by simpa using hu
      exact ⟨p, rfl, he⟩
    · simpa using h i g u hg hu

/-- The encode loop answers the concatenation of the fields' patterns (R256). -/
theorem packFields_ok_iff {fs : List FieldDesc} {vals : List FieldValue} {bits : List Bool} :
    packFields fs vals = .ok bits ↔ ∃ pats, FieldsWritten fs vals pats ∧ bits = pats.flatten := by
  induction fs generalizing vals bits with
  | nil =>
    cases vals with
    | nil =>
      constructor
      · rintro ⟨⟩; exact ⟨[], by simp [FieldsWritten], rfl⟩
      · rintro ⟨pats, ⟨-, hp, -⟩, rfl⟩; rw [List.eq_nil_of_length_eq_zero hp]; rfl
    | cons v vs => simp [packFields, FieldsWritten]
  | cons f fs ih =>
    cases vals with
    | nil => simp [packFields, FieldsWritten]
    | cons v vs =>
      simp only [packFields_cons_ok, fieldsWritten_cons, ih]
      constructor
      · rintro ⟨b, rest, he, ⟨ps, hw, rfl⟩, rfl⟩; exact ⟨b :: ps, ⟨b, ps, rfl, he, hw⟩, rfl⟩
      · rintro ⟨pats, ⟨p, ps, rfl, he, hw⟩, rfl⟩; exact ⟨p, ps.flatten, he, ⟨ps, hw, rfl⟩, rfl⟩

/-- The encode loop fails with the code of the first value that its field does not encode (R256). -/
theorem packFields_error {fs : List FieldDesc} {vals : List FieldValue} {e : StatusCode}
    (hl : vals.length = fs.length) (h : FirstWriteFailure fs vals e) :
    packFields fs vals = .error e := by
  induction fs generalizing vals with
  | nil => obtain ⟨i, f, v, hf, -⟩ := h; simp at hf
  | cons f fs ih =>
    obtain - | ⟨v, vs⟩ := vals
    · simp at hl
    · obtain ⟨i, g, u, hg, hu, he, hok⟩ := h
      simp only [packFields]
      obtain - | i := i
      · obtain rfl : f = g := by simpa using hg
        obtain rfl : v = u := by simpa using hu
        rw [he]
      · obtain ⟨p, hp⟩ := hok 0 f v (by omega) rfl rfl
        rw [hp]
        dsimp only
        rw [ih (by simpa using hl) ⟨i, g, u, by simpa using hg, by simpa using hu, he,
          fun j k w hj hk hw => hok (j + 1) k w (by omega) (by simpa using hk) (by simpa using hw)⟩]

end Sys2Proof.Machine
end

