-- ==== Sys2Proof/Laws/State.lean ====
section
/-! SUPPORT. What each named update of the state does to each field: one lemma per field per update, so
that no proof unfolds a record update. -/

namespace Sys2Proof.Machine

variable (s : State)

/-! ### `State.bump` -/

@[simp] theorem bump_cfg (k : CounterId) : (s.bump k).cfg = s.cfg := rfl
@[simp] theorem bump_buf (k : CounterId) : (s.bump k).buf = s.buf := rfl
@[simp] theorem bump_rxq (k : CounterId) : (s.bump k).rxq = s.rxq := rfl
@[simp] theorem bump_ack (k : CounterId) : (s.bump k).ack = s.ack := rfl
@[simp] theorem bump_cmd (k : CounterId) : (s.bump k).cmd = s.cmd := rfl
@[simp] theorem bump_lastDrop (k : CounterId) : (s.bump k).lastDrop = s.lastDrop := rfl
@[simp] theorem bump_cnt (k : CounterId) : (s.bump k).cnt = s.cnt.bump k := rfl
@[simp] theorem bump_txs (k : CounterId) : (s.bump k).txs = s.txs := rfl
@[simp] theorem bump_pending (k : CounterId) : (s.bump k).pending = s.pending := rfl
@[simp] theorem bump_schedule (k : CounterId) : (s.bump k).schedule = s.schedule := rfl
@[simp] theorem bump_out (k : CounterId) : (s.bump k).out = s.out := rfl
@[simp] theorem bump_outFor (k : CounterId) : (s.bump k).outFor = s.outFor := rfl

/-! ### `State.respond` -/

@[simp] theorem respond_cfg (r : OpResult) : (s.respond r).cfg = s.cfg := rfl
@[simp] theorem respond_buf (r : OpResult) : (s.respond r).buf = s.buf := rfl
@[simp] theorem respond_rxq (r : OpResult) : (s.respond r).rxq = s.rxq := rfl
@[simp] theorem respond_ack (r : OpResult) : (s.respond r).ack = s.ack := rfl
@[simp] theorem respond_cmd (r : OpResult) : (s.respond r).cmd = s.cmd := rfl
@[simp] theorem respond_lastDrop (r : OpResult) : (s.respond r).lastDrop = s.lastDrop := rfl
@[simp] theorem respond_cnt (r : OpResult) : (s.respond r).cnt = s.cnt := rfl
@[simp] theorem respond_txs (r : OpResult) : (s.respond r).txs = s.txs := rfl
@[simp] theorem respond_pending (r : OpResult) : (s.respond r).pending = s.pending := rfl
@[simp] theorem respond_schedule (r : OpResult) : (s.respond r).schedule = s.schedule := rfl
@[simp] theorem respond_out (r : OpResult) : (s.respond r).out = .ok r := rfl
@[simp] theorem respond_outFor (r : OpResult) : (s.respond r).outFor = s.outFor := rfl

/-! ### `State.holdOp` -/

@[simp] theorem holdOp_cfg : (s.holdOp).cfg = s.cfg := rfl
@[simp] theorem holdOp_buf : (s.holdOp).buf = s.buf := rfl
@[simp] theorem holdOp_rxq : (s.holdOp).rxq = s.rxq := rfl
@[simp] theorem holdOp_ack : (s.holdOp).ack = s.ack := rfl
@[simp] theorem holdOp_cmd : (s.holdOp).cmd = s.cmd := rfl
@[simp] theorem holdOp_lastDrop : (s.holdOp).lastDrop = s.lastDrop := rfl
@[simp] theorem holdOp_cnt : (s.holdOp).cnt = s.cnt := rfl
@[simp] theorem holdOp_txs : (s.holdOp).txs = s.txs := rfl
@[simp] theorem holdOp_pending : (s.holdOp).pending = s.pending := rfl
@[simp] theorem holdOp_schedule : (s.holdOp).schedule = s.schedule := rfl
@[simp] theorem holdOp_out : (s.holdOp).out = .hold := rfl
@[simp] theorem holdOp_outFor : (s.holdOp).outFor = s.outFor := rfl

/-! ### The status byte on the outcome port -/

@[simp] theorem respond_statusOut (r : OpResult) : statusOut (s.respond r) = some 0x00 := rfl
@[simp] theorem holdOp_statusOut : statusOut s.holdOp = none := rfl
@[simp] theorem hostError_statusOut (e : StatusCode) :
    statusOut (s.hostError e) = some (statusByte e) := rfl

/-! ### `State.hostError` -/

@[simp] theorem hostError_cfg (e : StatusCode) : (s.hostError e).cfg = s.cfg := rfl
@[simp] theorem hostError_buf (e : StatusCode) : (s.hostError e).buf = s.buf := rfl
@[simp] theorem hostError_rxq (e : StatusCode) : (s.hostError e).rxq = s.rxq := rfl
@[simp] theorem hostError_ack (e : StatusCode) : (s.hostError e).ack = s.ack := rfl
@[simp] theorem hostError_cmd (e : StatusCode) : (s.hostError e).cmd = s.cmd := rfl
@[simp] theorem hostError_lastDrop (e : StatusCode) : (s.hostError e).lastDrop = s.lastDrop := rfl
@[simp] theorem hostError_cnt (e : StatusCode) : (s.hostError e).cnt = s.cnt.bump .hostErr := rfl
@[simp] theorem hostError_txs (e : StatusCode) : (s.hostError e).txs = s.txs := rfl
@[simp] theorem hostError_pending (e : StatusCode) : (s.hostError e).pending = s.pending := rfl
@[simp] theorem hostError_schedule (e : StatusCode) : (s.hostError e).schedule = s.schedule := rfl
@[simp] theorem hostError_out (e : StatusCode) : (s.hostError e).out = .status e := rfl
@[simp] theorem hostError_outFor (e : StatusCode) : (s.hostError e).outFor = s.outFor := rfl

/-! ### `State.drop` -/

@[simp] theorem drop_cfg (e : StatusCode) (t : Byte) (tv : Bool) :
    (s.drop e t tv).cfg = s.cfg := rfl
@[simp] theorem drop_buf (e : StatusCode) (t : Byte) (tv : Bool) :
    (s.drop e t tv).buf = s.buf := rfl
@[simp] theorem drop_rxq (e : StatusCode) (t : Byte) (tv : Bool) :
    (s.drop e t tv).rxq = s.rxq := rfl
@[simp] theorem drop_ack (e : StatusCode) (t : Byte) (tv : Bool) :
    (s.drop e t tv).ack = s.ack := rfl
@[simp] theorem drop_cmd (e : StatusCode) (t : Byte) (tv : Bool) :
    (s.drop e t tv).cmd = s.cmd := rfl
@[simp] theorem drop_lastDrop (e : StatusCode) (t : Byte) (tv : Bool) :
    (s.drop e t tv).lastDrop = ⟨statusByte e, if tv then t else 0, tv⟩ := rfl
@[simp] theorem drop_cnt (e : StatusCode) (t : Byte) (tv : Bool) :
    (s.drop e t tv).cnt = s.cnt := rfl
@[simp] theorem drop_txs (e : StatusCode) (t : Byte) (tv : Bool) :
    (s.drop e t tv).txs = s.txs := rfl
@[simp] theorem drop_pending (e : StatusCode) (t : Byte) (tv : Bool) :
    (s.drop e t tv).pending = s.pending := rfl
@[simp] theorem drop_schedule (e : StatusCode) (t : Byte) (tv : Bool) :
    (s.drop e t tv).schedule = s.schedule := rfl
@[simp] theorem drop_out (e : StatusCode) (t : Byte) (tv : Bool) :
    (s.drop e t tv).out = s.out := rfl
@[simp] theorem drop_outFor (e : StatusCode) (t : Byte) (tv : Bool) :
    (s.drop e t tv).outFor = s.outFor := rfl

/-! ### `State.clearAck` -/

@[simp] theorem clearAck_cfg : (s.clearAck).cfg = s.cfg := rfl
@[simp] theorem clearAck_buf : (s.clearAck).buf = s.buf := rfl
@[simp] theorem clearAck_rxq : (s.clearAck).rxq = s.rxq := rfl
@[simp] theorem clearAck_ack : (s.clearAck).ack = .clear := rfl
@[simp] theorem clearAck_cmd : (s.clearAck).cmd = s.cmd := rfl
@[simp] theorem clearAck_lastDrop : (s.clearAck).lastDrop = s.lastDrop := rfl
@[simp] theorem clearAck_cnt : (s.clearAck).cnt = s.cnt := rfl
@[simp] theorem clearAck_txs : (s.clearAck).txs = s.txs := rfl
@[simp] theorem clearAck_pending : (s.clearAck).pending = s.pending := rfl
@[simp] theorem clearAck_schedule : (s.clearAck).schedule = s.schedule := rfl
@[simp] theorem clearAck_out : (s.clearAck).out = s.out := rfl
@[simp] theorem clearAck_outFor : (s.clearAck).outFor = s.outFor := rfl

/-! ### `State.latchAck` -/

@[simp] theorem latchAck_cfg (k : AckKind) (body : List Byte) :
    (s.latchAck k body).cfg = s.cfg := rfl
@[simp] theorem latchAck_buf (k : AckKind) (body : List Byte) :
    (s.latchAck k body).buf = s.buf := rfl
@[simp] theorem latchAck_rxq (k : AckKind) (body : List Byte) :
    (s.latchAck k body).rxq = s.rxq := rfl
@[simp] theorem latchAck_ack (k : AckKind) (body : List Byte) :
    (s.latchAck k body).ack = ⟨true, k, !body.isEmpty, body.headD 0⟩ := rfl
@[simp] theorem latchAck_cmd (k : AckKind) (body : List Byte) :
    (s.latchAck k body).cmd = s.cmd := rfl
@[simp] theorem latchAck_lastDrop (k : AckKind) (body : List Byte) :
    (s.latchAck k body).lastDrop = s.lastDrop := rfl
@[simp] theorem latchAck_cnt (k : AckKind) (body : List Byte) :
    (s.latchAck k body).cnt = s.cnt := rfl
@[simp] theorem latchAck_txs (k : AckKind) (body : List Byte) :
    (s.latchAck k body).txs = s.txs := rfl
@[simp] theorem latchAck_pending (k : AckKind) (body : List Byte) :
    (s.latchAck k body).pending = s.pending := rfl
@[simp] theorem latchAck_schedule (k : AckKind) (body : List Byte) :
    (s.latchAck k body).schedule = s.schedule := rfl
@[simp] theorem latchAck_out (k : AckKind) (body : List Byte) :
    (s.latchAck k body).out = s.out := rfl
@[simp] theorem latchAck_outFor (k : AckKind) (body : List Byte) :
    (s.latchAck k body).outFor = s.outFor := rfl

/-! ### `State.enqueue` -/

@[simp] theorem enqueue_cfg (v : MsgValue) : (s.enqueue v).cfg = s.cfg := rfl
@[simp] theorem enqueue_buf (v : MsgValue) : (s.enqueue v).buf = s.buf := rfl
@[simp] theorem enqueue_rxq (v : MsgValue) : (s.enqueue v).rxq = s.rxq ++ [v] := rfl
@[simp] theorem enqueue_ack (v : MsgValue) : (s.enqueue v).ack = s.ack := rfl
@[simp] theorem enqueue_cmd (v : MsgValue) : (s.enqueue v).cmd = s.cmd := rfl
@[simp] theorem enqueue_lastDrop (v : MsgValue) : (s.enqueue v).lastDrop = s.lastDrop := rfl
@[simp] theorem enqueue_cnt (v : MsgValue) : (s.enqueue v).cnt = s.cnt := rfl
@[simp] theorem enqueue_txs (v : MsgValue) : (s.enqueue v).txs = s.txs := rfl
@[simp] theorem enqueue_pending (v : MsgValue) : (s.enqueue v).pending = s.pending := rfl
@[simp] theorem enqueue_schedule (v : MsgValue) : (s.enqueue v).schedule = s.schedule := rfl
@[simp] theorem enqueue_out (v : MsgValue) : (s.enqueue v).out = s.out := rfl
@[simp] theorem enqueue_outFor (v : MsgValue) : (s.enqueue v).outFor = s.outFor := rfl

/-! ### `State.emit` -/

@[simp] theorem emit_cfg (bs : List Byte) : (s.emit bs).cfg = s.cfg := rfl
@[simp] theorem emit_buf (bs : List Byte) : (s.emit bs).buf = s.buf := rfl
@[simp] theorem emit_rxq (bs : List Byte) : (s.emit bs).rxq = s.rxq := rfl
@[simp] theorem emit_ack (bs : List Byte) : (s.emit bs).ack = s.ack := rfl
@[simp] theorem emit_cmd (bs : List Byte) : (s.emit bs).cmd = s.cmd := rfl
@[simp] theorem emit_lastDrop (bs : List Byte) : (s.emit bs).lastDrop = s.lastDrop := rfl
@[simp] theorem emit_cnt (bs : List Byte) : (s.emit bs).cnt = s.cnt := rfl
@[simp] theorem emit_txs (bs : List Byte) : (s.emit bs).txs = s.txs ++ bs := rfl
@[simp] theorem emit_pending (bs : List Byte) : (s.emit bs).pending = s.pending := rfl
@[simp] theorem emit_schedule (bs : List Byte) : (s.emit bs).schedule = s.schedule := rfl
@[simp] theorem emit_out (bs : List Byte) : (s.emit bs).out = s.out := rfl
@[simp] theorem emit_outFor (bs : List Byte) : (s.emit bs).outFor = s.outFor := rfl

/-! ### `State.consume` -/

@[simp] theorem consume_cfg (n : Nat) : (s.consume n).cfg = s.cfg := rfl
@[simp] theorem consume_buf (n : Nat) : (s.consume n).buf = s.buf.drop n := rfl
@[simp] theorem consume_rxq (n : Nat) : (s.consume n).rxq = s.rxq := rfl
@[simp] theorem consume_ack (n : Nat) : (s.consume n).ack = s.ack := rfl
@[simp] theorem consume_cmd (n : Nat) : (s.consume n).cmd = s.cmd := rfl
@[simp] theorem consume_lastDrop (n : Nat) : (s.consume n).lastDrop = s.lastDrop := rfl
@[simp] theorem consume_cnt (n : Nat) : (s.consume n).cnt = s.cnt := rfl
@[simp] theorem consume_txs (n : Nat) : (s.consume n).txs = s.txs := rfl
@[simp] theorem consume_pending (n : Nat) : (s.consume n).pending = s.pending := rfl
@[simp] theorem consume_schedule (n : Nat) : (s.consume n).schedule = s.schedule := rfl
@[simp] theorem consume_out (n : Nat) : (s.consume n).out = s.out := rfl
@[simp] theorem consume_outFor (n : Nat) : (s.consume n).outFor = s.outFor := rfl

/-! ### `State.doReset` -/

@[simp] theorem doReset_cfg : (s.doReset).cfg = s.cfg := rfl
@[simp] theorem doReset_buf : (s.doReset).buf = [] := rfl
@[simp] theorem doReset_rxq : (s.doReset).rxq = [] := rfl
@[simp] theorem doReset_ack : (s.doReset).ack = .clear := rfl
@[simp] theorem doReset_cmd : (s.doReset).cmd = ⟨false, 0⟩ := rfl
@[simp] theorem doReset_lastDrop : (s.doReset).lastDrop = ⟨0, 0, false⟩ := rfl
@[simp] theorem doReset_cnt : (s.doReset).cnt = .zero := rfl
@[simp] theorem doReset_txs : (s.doReset).txs = s.txs := rfl
@[simp] theorem doReset_pending : (s.doReset).pending = s.pending := rfl
@[simp] theorem doReset_schedule : (s.doReset).schedule = s.schedule := rfl
@[simp] theorem doReset_out : (s.doReset).out = .none := rfl
@[simp] theorem doReset_outFor : (s.doReset).outFor = none := rfl

end Sys2Proof.Machine
end

