-- ==== Sys2Proof/Laws/Ops.lean ====
section
/-! SUPPORT. One law per shared operation: counters, the queues of requests, the dispatch of a frame,
the scan, and the moves of an agent. -/

namespace Sys2Proof.Machine

/-! ### Counters (10_state.md R37, R50) -/

/-- An increment changes its own counter only. -/
theorem get_bump (k : Counters) (a b : CounterId) :
    (k.bump a).get b = if a = b then k.get b + 1 else k.get b := by
  cases a <;> cases b <;> rfl

@[simp] theorem get_zero (b : CounterId) : Counters.zero.get b = 0 := by
  cases b <;> rfl

/-! ### Requests -/

/-- Taking an agent's oldest request away leaves every other agent's oldest one. -/
theorem nextRequest_dropRequest_of_ne {a b : Agent} (h : a ≠ b)
    (l : List (Agent × Request)) : nextRequest b (dropRequest a l) = nextRequest b l := by
  induction l with
  | nil => rfl
  | cons x l ih =>
    obtain ⟨c, r⟩ := x
    by_cases hc : c = a
    · simp [dropRequest, nextRequest, hc, h]
    · by_cases hb : c = b
      · subst hb; simp [dropRequest, nextRequest, hc]
      · simp [dropRequest, nextRequest, hc, hb, ih]

/-- Replacing an agent's oldest request makes the new one its oldest. -/
theorem nextRequest_replaceRequest {a : Agent} {r r' : Request} {l : List (Agent × Request)}
    (h : nextRequest a l = some r) : nextRequest a (replaceRequest a r' l) = some r' := by
  induction l with
  | nil => simp [nextRequest] at h
  | cons x l ih =>
    obtain ⟨c, q⟩ := x
    by_cases hc : c = a
    · simp [replaceRequest, nextRequest, hc]
    · simp only [nextRequest, hc, if_false] at h
      simp [replaceRequest, nextRequest, hc, ih h]

/-! ### The dispatch of a frame (40_reassembler.md R151 to R155) -/

/-- Everything a decode and delivery can do: an unknown type, a failed decode, a full queue, or a
delivery. -/
theorem decodeAndDeliver_cases (t : Byte) (body : List Byte) (s : State) :
    (inLayout s.cfg t = none ∧ decodeAndDeliver t body s = rejectUnknown t s) ∨
    (∃ lay e, inLayout s.cfg t = some lay ∧ decodeLayout t lay body = .error e ∧
      decodeAndDeliver t body s = rejectDecode t e s) ∨
    (∃ lay v, inLayout s.cfg t = some lay ∧ decodeLayout t lay body = .ok v ∧
      s.rxq.length = s.cfg.rxqDepth ∧
      decodeAndDeliver t body s = (s.bump .rxqDrop).drop .eRxqFull t true) ∨
    (∃ lay v, inLayout s.cfg t = some lay ∧ decodeLayout t lay body = .ok v ∧
      s.rxq.length ≠ s.cfg.rxqDepth ∧
      decodeAndDeliver t body s = (s.enqueue v).bump .delivered) := by
  unfold decodeAndDeliver
  cases hl : inLayout s.cfg t with
  | none => exact .inl ⟨rfl, rfl⟩
  | some lay =>
    cases hd : decodeLayout t lay body with
    | error e => exact .inr (.inl ⟨lay, e, rfl, hd, by simp [hd]⟩)
    | ok v =>
      by_cases hf : s.rxq.length = s.cfg.rxqDepth
      · exact .inr (.inr (.inl ⟨lay, v, rfl, hd, hf, by simp [hd, deliver, hf]⟩))
      · exact .inr (.inr (.inr ⟨lay, v, rfl, hd, hf, by simp [hd, deliver, hf]⟩))

/-- Everything the dispatch on a type byte can do. -/
theorem dispatchFrame_cases (t : Byte) (body : List Byte) (s : State) :
    (t = ackId ∧ dispatchFrame t body s = acceptAck body s) ∨
    (t = nackId ∧ dispatchFrame t body s = acceptNack body s) ∨
    (t ≠ ackId ∧ t ≠ nackId ∧ dispatchFrame t body s = decodeAndDeliver t body s) := by
  by_cases ha : t = ackId
  · exact .inl ⟨ha, by simp [dispatchFrame, frameRow, ha]⟩
  · by_cases hn : t = nackId
    · exact .inr (.inl ⟨hn, by subst hn; simp [dispatchFrame, frameRow, ha]⟩)
    · refine .inr (.inr ⟨ha, hn, ?_⟩)
      by_cases hm : t = measTimeId
      · subst hm; simp [dispatchFrame, frameRow, ha, hn]
      · cases hl : inLayout s.cfg t with
        | none =>
          simp [dispatchFrame, frameRow, ha, hn, hm, hl, decodeAndDeliver]
        | some lay => simp [dispatchFrame, frameRow, ha, hn, hm, hl]

/-- Everything the handling of a candidate can do (R148 to R151). -/
theorem handleCandidate_cases (k : Candidate) (s : State) :
    (candidateXor s.buf k ≠ 0 ∧
      handleCandidate k s = ((s.consume (k.t + 2)).bump .cksumErr).drop .eCksum 0 false) ∨
    (candidateXor s.buf k = 0 ∧ candidatePayload s.buf k = [] ∧
      handleCandidate k s =
        (((s.consume (k.t + 2)).bump .framesOk).bump .empty).drop .eEmpty 0 false) ∨
    (∃ t body, candidateXor s.buf k = 0 ∧ candidatePayload s.buf k = t :: body ∧
      handleCandidate k s = dispatchFrame t body ((s.consume (k.t + 2)).bump .framesOk)) := by
  by_cases hx : candidateXor s.buf k = 0
  · cases hp : candidatePayload s.buf k with
    | nil => exact .inr (.inl ⟨hx, rfl, by simp [handleCandidate, hx, hp, dispatchPayload]⟩)
    | cons t body =>
      exact .inr (.inr ⟨t, body, hx, rfl, by simp [handleCandidate, hx, hp, dispatchPayload]⟩)
  · exact .inl ⟨hx, by rw [handleCandidate, if_neg hx]⟩

/-! ### The scan (40_reassembler.md R142) -/

/-- A scan step is the handling of the candidate that `locate` finds. -/
theorem scanStep_eq_some {s s' : State} :
    scanStep s = some s' ↔ ∃ k, locate s.buf = some k ∧ s' = handleCandidate k s := by
  unfold scanStep
  cases locate s.buf with
  | none => simp
  | some k => simp [eq_comm]

/-- A scan step waits exactly where there is no candidate; it depends on the buffer alone. -/
theorem scanStep_eq_none {s : State} : scanStep s = none ↔ locate s.buf = none := by
  unfold scanStep
  cases locate s.buf <;> simp

/-- What every scan step keeps, the scan keeps. -/
theorem scanLoop_induct {P : State → Prop} (hstep : ∀ s s', scanStep s = some s' → P s → P s') :
    ∀ (fuel : Nat) (s : State), P s → P (scanLoop fuel s)
  | 0, _, h => h
  | fuel + 1, s, h => by
    unfold scanLoop
    cases hs : scanStep s with
    | none => exact h
    | some s' => exact scanLoop_induct hstep fuel s' (hstep s s' hs h)

/-- What every scan step keeps, the scan keeps. -/
theorem scan_induct {P : State → Prop} (hstep : ∀ s s', scanStep s = some s' → P s → P s')
    {s : State} (h : P s) : P (scan s) :=
  scanLoop_induct hstep _ s h

/-! ### Agents -/

/-- The end of an operation changes the model's own fields only. -/
theorem completeOp_sameBlock (a : Agent) (s : State) : SameBlock s (completeOp a s) := by
  unfold completeOp
  split <;> exact ⟨rfl, rfl, rfl, rfl, rfl, rfl, rfl, rfl⟩

/-- Ending an operation answers a next state exactly where the operation did. -/
theorem settle_eq_next {a : Agent} {o : Host.Outcome State Fault Refusal} {s' : State} :
    settle a o = .next s' ↔ ∃ t, o = .next t ∧ s' = completeOp a t := by
  cases o with
  | next t => simp [settle, eq_comm]
  | fault r => simp [settle]
  | refused r => simp [settle]

/-- Everything a step can do: refuse a defective configuration, keep the state where nobody is
scheduled, or make the scheduled agent's move. -/
theorem step_cases (s : State) :
    (∃ d ds, configDefects s.cfg = d :: ds ∧ step s = .refused (.illegalConfig d)) ∨
    (Legal s.cfg ∧ s.schedule = [] ∧ step s = .next s) ∨
    (∃ a rest, Legal s.cfg ∧ s.schedule = a :: rest ∧
      step s = agentStep a { s with schedule := rest }) := by
  unfold step Legal
  cases hd : configDefects s.cfg with
  | cons d ds => exact .inl ⟨d, ds, rfl, rfl⟩
  | nil =>
    cases hs : s.schedule with
    | nil => exact .inr (.inl ⟨rfl, rfl, rfl⟩)
    | cons a rest => exact .inr (.inr ⟨a, rest, rfl, rfl, rfl⟩)

end Sys2Proof.Machine
end

