-- ==== Sys2Proof/Laws/PerInstr.lean ====
section
/-! SUPPORT. A law about every instruction as syntax: its encoding has the width and the fixed bits of
its row of spec/opcode_table.json. -/

namespace Sys2Proof.Laws

/-- The word of an encoding with its width in bits, as spec/opcode_table.json numbers it. -/
def wordOf : Encoded → Nat × Nat
  | .command w _ _ => (16, w.toNat)
  | .frame t _ => (8, t.toNat)
  | .descriptor w _ => (32, w.toNat)

/-- The width of a row and its fixed bits, each as its high bit, its low bit and its value.
FRAME_REGISTERED and FRAME_UNKNOWN match by the registry and fix no bit. -/
def rowBits : Instr → Nat × List (Nat × Nat × Nat)
  | .feedByte _ => (16, [(15, 8, 16)])
  | .getMsg => (16, [(15, 0, 8192)])
  | .sendCmd _ _ => (16, [(15, 8, 48)])
  | .waitAck => (16, [(15, 0, 16384)])
  | .abandon => (16, [(15, 0, 20480)])
  | .decodeMsg _ _ => (16, [(15, 8, 96)])
  | .encodeMsg _ _ => (16, [(15, 8, 112)])
  | .csrRead _ => (16, [(15, 8, 128)])
  | .frameAck _ => (8, [(7, 0, 131)])
  | .frameNack _ => (8, [(7, 0, 132)])
  | .frameMeasTime _ => (8, [(7, 0, 220)])
  | .frameRegistered _ _ => (8, [])
  | .frameUnknown _ _ => (8, [])
  | .fieldUint _ _ => (32, [(3, 0, 0)])
  | .fieldSint _ _ => (32, [(3, 0, 1)])
  | .fieldF32 _ _ => (32, [(3, 0, 2)])
  | .fieldF64 _ _ => (32, [(3, 0, 3)])
  | .fieldBlob _ _ => (32, [(3, 0, 4)])
  | .fieldEnum _ _ => (32, [(3, 0, 5)])
  | .fieldFlags _ _ => (32, [(3, 0, 6)])
  | .fieldFixu _ _ => (32, [(3, 0, 7)])
  | .fieldFixs _ _ => (32, [(3, 0, 8)])

/-- The encoded word has its row's width and its row's fixed bits. -/
def RowBits.Statement (i : Instr) : Prop :=
  (wordOf (encode i)).1 = (rowBits i).1 ∧
    ∀ f ∈ (rowBits i).2, (wordOf (encode i)).2 / 2 ^ f.2.1 % 2 ^ (f.1 + 1 - f.2.1) = f.2.2

/-- The number of two joined bit vectors. -/
theorem toNat_join {m n : Nat} (x : BitVec m) (y : BitVec n) :
    (x ++ y).toNat = x.toNat * 2 ^ n + y.toNat := by
  rw [BitVec.toNat_append, Nat.shiftLeft_eq, Nat.mul_comm,
    Nat.two_pow_add_eq_or_of_lt y.isLt]

/-- A command word as a number (30_encoding.md R114). -/
theorem commandWord_toNat (op : BitVec 4) (b : Byte) :
    (commandWord op b).toNat = op.toNat * 4096 + b.toNat := by
  have h : (commandWord op b).toNat = (op ++ (0 : BitVec 4)).toNat * 2 ^ 8 + b.toNat :=
    toNat_join _ _
  rw [h, toNat_join]
  simp
  omega

/-- The KIND field of a descriptor word (30_encoding.md R112). -/
theorem descriptorWord_kind (k : KindCode) (d : DescBits) :
    (descriptorWord k d).toNat % 16 = (kindCodeBits k).toNat := by
  have h : (descriptorWord k d).toNat =
      (d.rsvd ++ d.base ++ d.aux ++ d.size).toNat * 2 ^ 4 + (kindCodeBits k).toNat :=
    toNat_join _ _
  have := (kindCodeBits k).isLt
  omega

theorem RowBits.feedByte (b : Byte) : RowBits.Statement (.feedByte b) := by
  have := b.isLt
  simp [Statement, encode, wordOf, rowBits, commandWord_toNat]; omega

theorem RowBits.getMsg : RowBits.Statement .getMsg := by
  simp [Statement, encode, wordOf, rowBits, commandWord_toNat]

theorem RowBits.sendCmd (t : Byte) (vals : List FieldValue) :
    RowBits.Statement (.sendCmd t vals) := by
  have := t.isLt
  simp [Statement, encode, wordOf, rowBits, commandWord_toNat]; omega

theorem RowBits.waitAck : RowBits.Statement .waitAck := by
  simp [Statement, encode, wordOf, rowBits, commandWord_toNat]

theorem RowBits.abandon : RowBits.Statement .abandon := by
  simp [Statement, encode, wordOf, rowBits, commandWord_toNat]

theorem RowBits.decodeMsg (t : Byte) (body : List Byte) :
    RowBits.Statement (.decodeMsg t body) := by
  have := t.isLt
  simp [Statement, encode, wordOf, rowBits, commandWord_toNat]; omega

theorem RowBits.encodeMsg (t : Byte) (vals : List FieldValue) :
    RowBits.Statement (.encodeMsg t vals) := by
  have := t.isLt
  simp [Statement, encode, wordOf, rowBits, commandWord_toNat]; omega

theorem RowBits.csrRead (i : Byte) : RowBits.Statement (.csrRead i) := by
  have := i.isLt
  simp [Statement, encode, wordOf, rowBits, commandWord_toNat]; omega

theorem RowBits.frameAck (body : List Byte) : RowBits.Statement (.frameAck body) := by
  simp [Statement, encode, wordOf, rowBits, Machine.ackId]

theorem RowBits.frameNack (body : List Byte) : RowBits.Statement (.frameNack body) := by
  simp [Statement, encode, wordOf, rowBits, Machine.nackId]

theorem RowBits.frameMeasTime (body : List Byte) : RowBits.Statement (.frameMeasTime body) := by
  simp [Statement, encode, wordOf, rowBits, Machine.measTimeId]

theorem RowBits.frameRegistered (t : Byte) (body : List Byte) :
    RowBits.Statement (.frameRegistered t body) := by
  simp [Statement, encode, wordOf, rowBits]

theorem RowBits.frameUnknown (t : Byte) (body : List Byte) :
    RowBits.Statement (.frameUnknown t body) := by
  simp [Statement, encode, wordOf, rowBits]

theorem RowBits.fieldUint (d : DescBits) (op : FieldOp) : RowBits.Statement (.fieldUint d op) := by
  simp [Statement, encode, wordOf, rowBits, descriptorWord_kind, kindCodeBits]

theorem RowBits.fieldSint (d : DescBits) (op : FieldOp) : RowBits.Statement (.fieldSint d op) := by
  simp [Statement, encode, wordOf, rowBits, descriptorWord_kind, kindCodeBits]

theorem RowBits.fieldF32 (d : DescBits) (op : FieldOp) : RowBits.Statement (.fieldF32 d op) := by
  simp [Statement, encode, wordOf, rowBits, descriptorWord_kind, kindCodeBits]

theorem RowBits.fieldF64 (d : DescBits) (op : FieldOp) : RowBits.Statement (.fieldF64 d op) := by
  simp [Statement, encode, wordOf, rowBits, descriptorWord_kind, kindCodeBits]

theorem RowBits.fieldBlob (d : DescBits) (op : FieldOp) : RowBits.Statement (.fieldBlob d op) := by
  simp [Statement, encode, wordOf, rowBits, descriptorWord_kind, kindCodeBits]

theorem RowBits.fieldEnum (d : DescBits) (op : FieldOp) : RowBits.Statement (.fieldEnum d op) := by
  simp [Statement, encode, wordOf, rowBits, descriptorWord_kind, kindCodeBits]

theorem RowBits.fieldFlags (d : DescBits) (op : FieldOp) :
    RowBits.Statement (.fieldFlags d op) := by
  simp [Statement, encode, wordOf, rowBits, descriptorWord_kind, kindCodeBits]

theorem RowBits.fieldFixu (d : DescBits) (op : FieldOp) : RowBits.Statement (.fieldFixu d op) := by
  simp [Statement, encode, wordOf, rowBits, descriptorWord_kind, kindCodeBits]

theorem RowBits.fieldFixs (d : DescBits) (op : FieldOp) : RowBits.Statement (.fieldFixs d op) := by
  simp [Statement, encode, wordOf, rowBits, descriptorWord_kind, kindCodeBits]

end Sys2Proof.Laws
end

