-- ==== Sys2Proof/Tests/Slice0.lean ====
section
/-! SUPPORT. Tests of the model. The expected results are those of spec/95_test_vectors.md (V1 to V76) and
of the examples in the rules; the words are written out from spec/30_encoding.md. The last sections hold
one witness for each statement that has hypotheses. -/

namespace Sys2Proof.Tests

open Sys2Proof.Machine

/-! ### The test registry of 95_test_vectors.md section 2 -/

/-- The layout of type 0x10, both directions. -/
def fields10 : List FieldDesc :=
  [⟨"a", .uint, 4⟩, ⟨"b", .sint, 4⟩, ⟨"c", .sint, 16⟩, ⟨"d", .f32, 32⟩, ⟨"e", .blob, 2⟩,
    ⟨"f", .enum [0, 1, 2], 8⟩, ⟨"g", .flags, 8⟩, ⟨"h", .fixs 10 (-2), 16⟩]

/-- The header of type 0x11. -/
def header11 : List FieldDesc := [⟨"n", .uint, 8⟩, ⟨"flag", .uint, 8⟩]

/-- The sub-record of type 0x11. -/
def sub11 : List FieldDesc := [⟨"x", .uint, 16⟩, ⟨"y", .sint, 8⟩]

/-- The layout of type 0x12, both directions. -/
def fields12 : List FieldDesc := [⟨"p", .fixu 2 (-4), 12⟩, ⟨"q", .uint, 4⟩, ⟨"r", .f64, 64⟩]

/-- The outbound layout of type 0x20. -/
def fields20 : List FieldDesc := [⟨"a", .uint, 8⟩, ⟨"b", .uint, 16⟩]

/-- The test registry under given capacities. -/
def testConfig (cap depth : Nat) : Config :=
  { bufCap := cap, rxqDepth := depth, csrBase := 0,
    registry := [(0x10, ⟨"", some (.fixed fields10 104), some (.fixed fields10 104)⟩),
      (0x11, ⟨"", some (.array header11 16 0 sub11 24), none⟩),
      (0x12, ⟨"", some (.fixed fields12 80), some (.fixed fields12 80)⟩),
      (0x20, ⟨"", none, some (.fixed fields20 24)⟩), (measTimeId, measTimeEntry)],
    enumSets := [[0, 1, 2]] }

/-- The reset state under given capacities. -/
def start (cap depth : Nat) : State := State.resetWith (testConfig cap depth)

/-- The reset state of the vectors. -/
def s0 : State := start 70000 4

/-- The bytes of V1. -/
def v1 : List Byte := [0xA0, 0xA1, 0x00, 0x0A, 0xDC, 0x3D, 0x06, 0xED, 0x0B, 0x0C, 0xBC, 0x40, 0x03, 0xE8,
  0x1A, 0x0D, 0x0A]

/-- The body of V1 (V42). -/
def body1 : List Byte := [0x3D, 0x06, 0xED, 0x0B, 0x0C, 0xBC, 0x40, 0x03, 0xE8]

/-- The message of V1. -/
def msg1 : MsgValue := ⟨0xDC, [.u 8 0x3D, .u 16 0x6ED, .u 32 0xB0CBC40, .u 16 0x3E8], none⟩

/-- The body of V26. -/
def body26 : List Byte :=
  [0xAF, 0xFF, 0xFE, 0x3F, 0x80, 0x00, 0x00, 0x0D, 0x0A, 0x02, 0x81, 0x0D, 0x0A]

/-- The values of V26. -/
def vals26 : List FieldValue :=
  [.u 4 0xA, .s 4 (-1), .s 16 (-2), .f32 0x3F800000, .blob [0x0D, 0x0A], .e 8 2, .fl 8 0x81,
    .fxs 16 3338 10 (-2)]

/-- The values of V66. -/
def vals20 : List FieldValue := [.u 8 5, .u 16 0x1234]

/-- The state an outcome goes on in. -/
def after (o : Host.Outcome State Fault Refusal) : Option State :=
  match o with
  | .next s => some s
  | .fault _ => none
  | .refused _ => none

/-- The outcome that an operation leaves. -/
def outcome (i : Instr) (s : State) : Option OpOutcome := (after (exec i s)).map (·.out)

/-- What a refusal says. -/
def refusal (o : Host.Outcome State Fault Refusal) : Option Refusal :=
  match o with
  | .next _ => none
  | .fault _ => none
  | .refused r => some r

/-- A state in which an agent has issued one request and moves next. -/
def issued (s : State) (a : Agent) (r : Request) : State :=
  { s with pending := [(a, r)], schedule := [a] }

theorem test_testConfig_legal : Legal (testConfig 70000 4) := by decide

/-! ### Decoding, one word per constructor, written out from the bit tables -/

theorem test_decode_feedByte :
    decodeCommand 0b0001000010100000 [] [] = .ok (.feedByte 0xA0) := by decide

theorem test_decode_getMsg : decodeCommand 0b0010000000000000 [] [] = .ok .getMsg := by decide

theorem test_decode_sendCmd :
    decodeCommand 0b0011000000100000 vals20 [] = .ok (.sendCmd 0x20 vals20) := by decide

theorem test_decode_waitAck : decodeCommand 0b0100000000000000 [] [] = .ok .waitAck := by decide

theorem test_decode_abandon : decodeCommand 0b0101000000000000 [] [] = .ok .abandon := by decide

theorem test_decode_decodeMsg :
    decodeCommand 0b0110000011011100 [] body1 = .ok (.decodeMsg 0xDC body1) := by decide

theorem test_decode_encodeMsg :
    decodeCommand 0b0111000000100000 vals20 [] = .ok (.encodeMsg 0x20 vals20) := by decide

theorem test_decode_csrRead :
    decodeCommand 0b1000000000010001 [] [] = .ok (.csrRead 0x11) := by decide

theorem test_decode_frameAck :
    decodeFrame (testConfig 8 1) 0b10000011 [0x20] = .frameAck [0x20] := by decide

theorem test_decode_frameNack :
    decodeFrame (testConfig 8 1) 0b10000100 [0x20] = .frameNack [0x20] := by decide

theorem test_decode_frameMeasTime :
    decodeFrame (testConfig 8 1) 0b11011100 body1 = .frameMeasTime body1 := by decide

theorem test_decode_frameRegistered :
    decodeFrame (testConfig 8 1) 0b00010000 body26 = .frameRegistered 0x10 body26 := by decide

/-- 0x20 has an outbound layout only, and 0x55 has none (R153). -/
theorem test_decode_frameUnknown :
    decodeFrame (testConfig 8 1) 0b00100000 [] = .frameUnknown 0x20 [] ∧
      decodeFrame (testConfig 8 1) 0b01010101 [] = .frameUnknown 0x55 [] := by decide

/-- The descriptor words of section 2, field `a` of type 0x10. -/
theorem test_decode_fieldUint :
    decodeDescriptor 0b00000000000000000000000001000000 (.encode (.u 4 0)) =
      .ok (.fieldUint ⟨4, 0, 0, 0⟩ (.encode (.u 4 0))) := by decide

theorem test_decode_fieldSint :
    decodeDescriptor 0b00000000000000000000000100000001 (.encode (.u 4 0)) =
      .ok (.fieldSint ⟨16, 0, 0, 0⟩ (.encode (.u 4 0))) := by decide

theorem test_decode_fieldF32 :
    decodeDescriptor 0b00000000000000000000001000000010 (.encode (.u 4 0)) =
      .ok (.fieldF32 ⟨32, 0, 0, 0⟩ (.encode (.u 4 0))) := by decide

theorem test_decode_fieldF64 :
    decodeDescriptor 0b00000000000000000000010000000011 (.encode (.u 4 0)) =
      .ok (.fieldF64 ⟨64, 0, 0, 0⟩ (.encode (.u 4 0))) := by decide

theorem test_decode_fieldBlob :
    decodeDescriptor 0b00000000000000000000000000100100 (.encode (.u 4 0)) =
      .ok (.fieldBlob ⟨2, 0, 0, 0⟩ (.encode (.u 4 0))) := by decide

theorem test_decode_fieldEnum :
    decodeDescriptor 0b00000000000000000000000010000101 (.encode (.u 4 0)) =
      .ok (.fieldEnum ⟨8, 0, 0, 0⟩ (.encode (.u 4 0))) := by decide

theorem test_decode_fieldFlags :
    decodeDescriptor 0b00000000000000000000000010000110 (.encode (.u 4 0)) =
      .ok (.fieldFlags ⟨8, 0, 0, 0⟩ (.encode (.u 4 0))) := by decide

/-- Field `p` of type 0x12: base 2, exponent -4. -/
theorem test_decode_fieldFixu :
    decodeDescriptor 0b00000000111111000000000011000111 (.encode (.u 4 0)) =
      .ok (.fieldFixu ⟨12, 0b11111100, 0, 0⟩ (.encode (.u 4 0))) := by decide

/-- Field `h` of type 0x10: base 10, exponent -2. -/
theorem test_decode_fieldFixs :
    decodeDescriptor 0b00000001111111100000000100001000 (.encode (.u 4 0)) =
      .ok (.fieldFixs ⟨16, 0b11111110, 1, 0⟩ (.encode (.u 4 0))) := by decide

/-- V69 to V72: reserved operation codes, bits 11:8, immediates; and a reserved KIND (R111). -/
theorem test_decode_rejects :
    decodeCommand 0x0000 [] [] = .error .reservedOp ∧
      decodeCommand 0x9000 [] [] = .error .reservedOp ∧
      decodeCommand 0xF0FF [] [] = .error .reservedOp ∧
      decodeCommand 0x1100 [] [] = .error .nonzeroZ ∧
      decodeCommand 0x2001 [] [] = .error .nonzeroImm ∧
      decodeCommand 0x4080 [] [] = .error .nonzeroImm ∧
      decodeCommand 0x50FF [] [] = .error .nonzeroImm ∧
      decodeDescriptor 0x00000089 (.encode (.u 4 0)) = .error (.reservedKind .i3) ∧
      decodeDescriptor 0x0000008F (.encode (.u 4 0)) = .error (.reservedKind .i3) := by decide

/-! ### WellFormed: one ill-formed term for each check -/

theorem test_wf_frameRegistered_needs_layout :
    WellFormed (testConfig 8 1) (.frameRegistered 0x20 []) = false ∧
      WellFormed (testConfig 8 1) (.frameRegistered 0x83 []) = false ∧
      WellFormed (testConfig 8 1) (.frameRegistered 0xDC []) = false ∧
      WellFormed (testConfig 8 1) (.frameRegistered 0x10 []) = true := by decide

theorem test_wf_frameUnknown_has_no_layout :
    WellFormed (testConfig 8 1) (.frameUnknown 0x10 []) = false ∧
      WellFormed (testConfig 8 1) (.frameUnknown 0x84 []) = false ∧
      WellFormed (testConfig 8 1) (.frameUnknown 0x20 []) = true := by decide

/-- SIZE 0 and 65, or 31 for F32, 63 for F64, 0 for BLOB (check I3). -/
theorem test_wf_field_size :
    WellFormed (testConfig 8 1) (.fieldUint ⟨0, 0, 0, 0⟩ (.encode (.u 0 0))) = false ∧
      WellFormed (testConfig 8 1) (.fieldUint ⟨65, 0, 0, 0⟩ (.encode (.u 65 0))) = false ∧
      WellFormed (testConfig 8 1) (.fieldSint ⟨65, 0, 0, 0⟩ (.encode (.u 65 0))) = false ∧
      WellFormed (testConfig 8 1) (.fieldF32 ⟨31, 0, 0, 0⟩ (.encode (.f32 0))) = false ∧
      WellFormed (testConfig 8 1) (.fieldF64 ⟨63, 0, 0, 0⟩ (.encode (.f64 0))) = false ∧
      WellFormed (testConfig 8 1) (.fieldBlob ⟨0, 0, 0, 0⟩ (.encode (.blob []))) = false ∧
      WellFormed (testConfig 8 1) (.fieldFlags ⟨65, 0, 0, 0⟩ (.encode (.fl 65 0))) = false ∧
      WellFormed (testConfig 8 1) (.fieldFixu ⟨65, 0, 0, 0⟩ (.encode (.fl 65 0))) = false ∧
      WellFormed (testConfig 8 1) (.fieldFixs ⟨0, 0, 0, 0⟩ (.encode (.fl 65 0))) = false := by decide

/-- A reserved bit, an AUX and a BASE where the packing leaves 0 (check I3). -/
theorem test_wf_field_unused_bits :
    WellFormed (testConfig 8 1) (.fieldUint ⟨8, 0, 0, 1⟩ (.encode (.u 8 0))) = false ∧
      WellFormed (testConfig 8 1) (.fieldUint ⟨8, 1, 0, 0⟩ (.encode (.u 8 0))) = false ∧
      WellFormed (testConfig 8 1) (.fieldUint ⟨8, 0, 1, 0⟩ (.encode (.u 8 0))) = false ∧
      WellFormed (testConfig 8 1) (.fieldEnum ⟨8, 0, 1, 0⟩ (.encode (.e 8 0))) = false ∧
      WellFormed (testConfig 8 1) (.fieldFixu ⟨8, 0, 1, 64⟩ (.encode (.e 8 0))) = false := by decide

/-- An enum-set index beyond the table, and a set that does not fit one bit (check I4). -/
theorem test_wf_enum_set :
    WellFormed (testConfig 8 1) (.fieldEnum ⟨8, 1, 0, 0⟩ (.encode (.e 8 0))) = false ∧
      WellFormed (testConfig 8 1) (.fieldEnum ⟨1, 0, 0, 0⟩ (.encode (.e 1 0))) = false ∧
      WellFormed (testConfig 8 1) (.fieldEnum ⟨2, 0, 0, 0⟩ (.encode (.e 2 0))) = true := by decide

/-- A field one bit past the body's end. -/
theorem test_wf_field_past_body :
    WellFormed (testConfig 8 1) (.fieldUint ⟨8, 0, 0, 0⟩ (.decode [0] 1)) = false ∧
      WellFormed (testConfig 8 1) (.fieldUint ⟨8, 0, 0, 0⟩ (.decode [0] 0)) = true := by decide

/-! ### FEED_BYTE and the scan -/

/-- V1: one message, an empty buffer, three counters. -/
theorem test_feed_v1 :
    feedBytes v1 s0 = { s0 with
      rxq := [msg1],
      cnt := { Counters.zero with rxBytes := 17, framesOk := 1, delivered := 1 } } := by decide +kernel

/-- V8: a seven-byte frame with L = 0 is handled once an eighth byte is present. -/
theorem test_feed_v8 :
    feedBytes [0xA0, 0xA1, 0x00, 0x00, 0x00, 0x0D, 0x0A, 0x00] s0 = { s0 with
      buf := [0x00], lastDrop := ⟨0x02, 0, false⟩,
      cnt := { Counters.zero with rxBytes := 8, framesOk := 1, empty := 1 } } := by decide

/-- V10: a checksum byte 0x0D is not taken as the trailer. -/
theorem test_scan_v10 :
    lastDropCsr (feedBytes [0xA0, 0xA1, 0x00, 0x02, 0x55, 0x58, 0x0D, 0x0D, 0x0A] s0) =
      0x00015503 := by decide

/-- V19: with BUF_CAP 17, eight evictions free the scan from a false preamble. -/
theorem test_scan_v19 :
    feedBytes ([0xA0, 0xA1, 0xFF, 0xFF, 0x01, 0x02, 0x03, 0x04] ++ v1) (start 17 4) =
      { start 17 4 with
        rxq := [msg1],
        cnt := { Counters.zero with rxBytes := 25, framesOk := 1, delivered := 1, evict := 8 } } := by
  decide +kernel

/-- V22 and V23. -/
theorem test_txFrame :
    txFrame 0x20 [0x05, 0x12, 0x34] =
        [0xA0, 0xA1, 0x00, 0x04, 0x20, 0x05, 0x12, 0x34, 0x03, 0x0D, 0x0A] ∧
      txFrame 0x20 [] = [0xA0, 0xA1, 0x00, 0x01, 0x20, 0x20, 0x0D, 0x0A] := by decide

/-! ### The frame rows -/

/-- V3: an ACK without a body. -/
theorem test_frameAck_v3 :
    statusCsr (feedBytes [0xA0, 0xA1, 0x00, 0x01, 0x83, 0x83, 0x0D, 0x0A] s0) = 0x00010002 := by decide

/-- V14: an ACK with an echo. -/
theorem test_frameAck_v14 :
    statusCsr (feedBytes [0xA0, 0xA1, 0x00, 0x02, 0x83, 0x20, 0xA3, 0x0D, 0x0A] s0) = 0x0001200A := by
  decide

/-- V15: a NACK with an echo. -/
theorem test_frameNack_v15 :
    (feedBytes [0xA0, 0xA1, 0x00, 0x02, 0x84, 0x20, 0xA4, 0x0D, 0x0A] s0).ack =
      ⟨true, .nack, true, 0x20⟩ := by decide

/-- V16: a body one byte short. -/
theorem test_frameMeasTime_v16 :
    lastDropCsr (feedBytes [0xA0, 0xA1, 0x00, 0x09, 0xDC, 0x3D, 0x06, 0xED, 0x0B, 0x0C, 0xBC, 0x40, 0x03,
      0xF2, 0x0D, 0x0A] s0) = 0x0001DC04 := by decide +kernel

/-- V20: the newest message is dropped at a full queue. -/
theorem test_frameMeasTime_v20 :
    (after (exec (.frameMeasTime body1) { start 70000 1 with rxq := [msg1] })).map
      (fun t => (t.rxq, t.lastDrop, t.cnt.rxqDrop)) = some ([msg1], ⟨0x07, 0xDC, true⟩, 1) := by decide

/-- V9's frame delivers V26's message. -/
theorem test_frameRegistered_v9 :
    (after (exec (.frameRegistered 0x10 body26) s0)).map (·.rxq) =
      some [⟨0x10, vals26, none⟩] := by decide

/-- V37's body on the wire: E_DEC_COUNT. -/
theorem test_frameRegistered_count :
    (after (exec (.frameRegistered 0x11 [0x02, 0x00, 0x00, 0x01, 0x02]) s0)).map (·.lastDrop) =
      some ⟨0x06, 0x11, true⟩ := by decide

/-- V12's first frame. -/
theorem test_frameUnknown_v12 :
    (after (exec (.frameUnknown 0x55 [0x01, 0x02]) s0)).map (fun t => (t.lastDrop, t.cnt.unknown)) =
      some (⟨0x03, 0x55, true⟩, 1) := by decide

/-! ### The other host operations -/

/-- R302's example. -/
theorem test_getMsg :
    (after (exec .getMsg { s0 with rxq := [msg1, ⟨0x12, [], none⟩] })).map
      (fun t => (t.rxq, t.out)) = some ([⟨0x12, [], none⟩], .ok (.msg msg1)) := by decide

theorem test_getMsg_holds : outcome .getMsg s0 = some .hold := by decide

/-- R303's example. -/
theorem test_sendCmd :
    (after (exec (.sendCmd 0x20 vals20) s0)).map (fun t => (t.txs, t.cmd, t.cnt.txFrames)) =
      some ([0xA0, 0xA1, 0x00, 0x04, 0x20, 0x05, 0x12, 0x34, 0x03, 0x0D, 0x0A], ⟨true, 0x20⟩, 1) := by
  decide

/-- R356's example: a pending command is reported before the unregistered type. -/
theorem test_sendCmd_busy :
    outcome (.sendCmd 0x55 []) { s0 with cmd := ⟨true, 0x20⟩ } = some (.status .eBusy) := by decide

/-- R304's example. -/
theorem test_waitAck :
    (after (exec .waitAck { s0 with cmd := ⟨true, 0x20⟩, ack := ⟨true, .ack, true, 0x20⟩ })).map
      (fun t => (t.cmd, t.ack, t.out)) =
      some (⟨false, 0x20⟩, .clear, .ok (.ack .ack true 0x20)) := by decide

theorem test_waitAck_not_pending :
    outcome .waitAck { s0 with ack := ⟨true, .ack, true, 0x20⟩ } = some (.status .eNotPending) := by
  decide

/-- R305's example. -/
theorem test_abandon :
    (after (exec .abandon { s0 with cmd := ⟨true, 0x20⟩ })).map (fun t => (t.cmd, t.out)) =
      some (⟨false, 0⟩, .ok .unit) := by decide

/-- V33: two sub-records. -/
theorem test_decodeMsg_v33 :
    outcome (.decodeMsg 0x11 [0x02, 0x00, 0x00, 0x01, 0x02, 0x00, 0xFF, 0xFF]) s0 =
      some (.ok (.msg ⟨0x11, [.u 8 2, .u 8 0],
        some [[.u 16 1, .s 8 2], [.u 16 0xFF, .s 8 (-1)]]⟩)) := by decide

/-- V38: the length test comes before the count test. -/
theorem test_decodeMsg_v38 :
    outcome (.decodeMsg 0x11 [0x01, 0x00, 0x00, 0x01]) s0 = some (.status .eDecLength) := by decide

/-- V64. -/
theorem test_encodeMsg_v64 :
    outcome (.encodeMsg 0x12 [.fxu 12 771 2 (-4), .u 4 9, .f64 0xBFF0000000000000]) s0 =
      some (.ok (.body [0x30, 0x39, 0xBF, 0xF0, 0x00, 0x00, 0x00, 0x00, 0x00, 0x00])) := by decide

/-- V67. -/
theorem test_encodeMsg_v67 :
    outcome (.encodeMsg 0x20 [.u 8 0x100, .u 16 0]) s0 = some (.status .eEncRange) := by decide

/-- V76's state: the counter shows its value before the read, and STATUS its reset value. -/
theorem test_csrRead :
    outcome (.csrRead 0x1C) { s0 with cnt := { Counters.zero with hostErr := 16 } } =
        some (.ok (.csr 16)) ∧
      outcome (.csrRead 0x00) s0 = some (.ok (.csr 0x00010000)) := by decide

/-- V73. -/
theorem test_csrRead_unmapped :
    outcome (.csrRead 0x06) s0 = some (.status .eCsrAddr) ∧
      outcome (.csrRead 0x1D) s0 = some (.status .eCsrAddr) := by decide

/-! ### The field rows, on the examples of their rules -/

/-- R245, R258. -/
theorem test_fieldUint :
    outcome (.fieldUint ⟨16, 0, 0, 0⟩ (.decode [0x3D, 0x06, 0xED] 8)) s0 =
        some (.ok (.field (.u 16 0x06ED))) ∧
      outcome (.fieldUint ⟨4, 0, 0, 0⟩ (.encode (.u 4 16))) s0 = some (.status .eEncRange) := by decide

/-- R246, R259. -/
theorem test_fieldSint :
    outcome (.fieldSint ⟨4, 0, 0, 0⟩ (.decode [0xF0] 0)) s0 = some (.ok (.field (.s 4 (-1)))) ∧
      outcome (.fieldSint ⟨4, 0, 0, 0⟩ (.encode (.s 4 (-1)))) s0 =
        some (.ok (.bits [true, true, true, true])) := by decide

/-- R247, V56. -/
theorem test_fieldF32 :
    outcome (.fieldF32 ⟨32, 0, 0, 0⟩ (.decode [0x3F, 0x80, 0x00, 0x00] 0)) s0 =
        some (.ok (.field (.f32 0x3F800000))) ∧
      outcome (.fieldF32 ⟨32, 0, 0, 0⟩ (.encode (.f32 0x100000000))) s0 =
        some (.status .eEncRange) := by decide

/-- R248. -/
theorem test_fieldF64 :
    outcome (.fieldF64 ⟨64, 0, 0, 0⟩ (.decode [0xBF, 0xF0, 0, 0, 0, 0, 0, 0] 0)) s0 =
      some (.ok (.field (.f64 0xBFF0000000000000))) := by decide +kernel

/-- R249, V57. -/
theorem test_fieldBlob :
    outcome (.fieldBlob ⟨2, 0, 0, 0⟩ (.decode [0x12, 0x34, 0x56] 8)) s0 =
        some (.ok (.field (.blob [0x34, 0x56]))) ∧
      outcome (.fieldBlob ⟨2, 0, 0, 0⟩ (.encode (.blob [0, 0, 0]))) s0 =
        some (.status .eEncRange) := by decide

/-- R250, R263. -/
theorem test_fieldEnum :
    outcome (.fieldEnum ⟨8, 0, 0, 0⟩ (.decode [0x02] 0)) s0 = some (.ok (.field (.e 8 2))) ∧
      outcome (.fieldEnum ⟨8, 0, 0, 0⟩ (.decode [0x03] 0)) s0 = some (.status .eDecEnum) ∧
      outcome (.fieldEnum ⟨8, 0, 0, 0⟩ (.encode (.e 8 3))) s0 = some (.status .eEncRange) := by decide

/-- R251. -/
theorem test_fieldFlags :
    outcome (.fieldFlags ⟨8, 0, 0, 0⟩ (.decode [0xA5] 0)) s0 = some (.ok (.field (.fl 8 0xA5))) := by
  decide

/-- R252, V62: base 10, exponent -2. -/
theorem test_fieldFixu :
    outcome (.fieldFixu ⟨16, 0xFE, 1, 0⟩ (.decode [0x30, 0x39] 0)) s0 =
        some (.ok (.field (.fxu 16 12345 10 (-2)))) ∧
      outcome (.fieldFixu ⟨16, 0xFE, 1, 0⟩ (.encode (.fxu 16 0 10 (-3)))) s0 =
        some (.status .eEncShape) := by decide

/-- R253, R266: base 2, exponent -8. -/
theorem test_fieldFixs :
    outcome (.fieldFixs ⟨16, 0xF8, 0, 0⟩ (.decode [0xFF, 0x80] 0)) s0 =
        some (.ok (.field (.fxs 16 (-128) 2 (-8)))) ∧
      outcome (.fieldFixs ⟨16, 0xF8, 0, 0⟩ (.encode (.fxs 16 (-128) 2 (-8)))) s0 =
        some (.ok (.bits (bitsOfBytes [0xFF, 0x80]))) := by decide

/-- A descriptor of size 0 and a read past the body are refused by name. -/
theorem test_field_refusals :
    refusal (exec (.fieldUint ⟨0, 0, 0, 0⟩ (.decode [0] 0)) s0) = some (.defectiveDescriptor .i3) ∧
      refusal (exec (.fieldUint ⟨8, 0, 0, 0⟩ (.decode [0] 1)) s0) = some .fieldPastBody := by decide

/-- R269's examples. -/
theorem test_logicalValue :
    logicalValue (.fxu 16 12345 10 (-2)) = some (12345 / 100) ∧
      logicalValue (.fxs 16 (-128) 2 (-8)) = some (-1 / 2) := by
  constructor <;> simp only [logicalValue] <;> norm_num

/-! ### Steps -/

/-- R390: RESET keeps the egress log and clears the rest. -/
theorem test_reset :
    (after (step (issued { s0 with buf := [0xA0], txs := [0x01], cmd := ⟨true, 0x20⟩ } .reset
      .reset))).map (fun t => (t.buf, t.txs, t.cmd, t.out)) = some ([], [0x01], ⟨false, 0⟩, .none) := by
  decide

/-- V71: an illegal word counts in CNT_HOST_ERR and nowhere else. -/
theorem test_illegal_word :
    (after (step (issued s0 .commander (.command 0x1100 [] [])))).map
      (fun t => (t.out, t.cnt)) =
      some (.status .eIllegalOp, { Counters.zero with hostErr := 1 }) := by decide

/-- The table of 60_exceptions.md R350: OK is 0x00, and the other codes run from 0x01 to 0x0E. -/
theorem test_status_bytes :
    outcomeByte (.ok .unit) = some 0x00 ∧
      [StatusCode.eCksum, .eEmpty, .eUnknownType, .eDecLength, .eDecEnum, .eDecCount, .eRxqFull,
        .eEncNoLayout, .eEncShape, .eEncRange, .eBusy, .eNotPending, .eIllegalOp, .eCsrAddr].map
        (fun e => outcomeByte (.status e)) =
        [some 0x01, some 0x02, some 0x03, some 0x04, some 0x05, some 0x06, some 0x07, some 0x08,
          some 0x09, some 0x0A, some 0x0B, some 0x0C, some 0x0D, some 0x0E] ∧
      (after (step (issued s0 .ingress (feedByteRequest 0xA0)))).map statusOut = some (some 0x00) ∧
      (after (step (issued s0 .observer (.command 0x80FF [] [])))).map statusOut =
        some (some 0x0E) ∧
      (after (step (issued s0 .consumer (.command 0x2000 [] [])))).map statusOut = some none ∧
      (after (step (issued s0 .reset .reset))).map statusOut = some none := by decide

/-- A word of each format placed where the next step fetches it. -/
theorem test_withFetchWord :
    ((after (step (State.reset.withFetchWord 16 0x8000))).map (·.out) =
        some (.ok (.csr 0x00010000))) ∧
      ((after (step (State.reset.withFetchWord 8 0x83))).map (·.ack) =
        some ⟨true, .ack, false, 0⟩) ∧
      ((after (step (State.reset.withFetchWord 32 0x00000085))).map (·.out) =
        some (.ok (.msg ⟨0, [.e 8 0], none⟩))) := by decide

/-- A registry that breaks check I1 in one entry is refused with the entry, the layout and the code. -/
theorem test_defective_registry :
    refusal (step (State.resetWith { defaultConfig with
      registry := [(0x10, ⟨"", some (.fixed fields20 16), none⟩), (measTimeId, measTimeEntry)] })) =
      some (.illegalConfig (.integrity ⟨0x10, some .inbound, none, .i1⟩)) := by decide

/-- Check I7 names the header field that the count index selects: a FLAGS field, and one past the end
(41_registry.md R212, R213). -/
theorem test_defective_count_field :
    layoutErrors 0x11 .inbound
        (.array [⟨"n", .uint, 8⟩, ⟨"flag", .flags, 8⟩] 16 1 sub11 24) =
        [⟨0x11, some .header, some 1, .i7⟩] ∧
      layoutErrors 0x11 .inbound (.array header11 16 2 sub11 24) =
        [⟨0x11, some .header, some 2, .i7⟩] ∧
      layoutErrors 0x11 .inbound (.array header11 16 0 sub11 24) = [] := by decide

/-- A word of a reserved KIND in a registry fails check I3 (30_encoding.md R111, 41_registry.md R209). -/
theorem test_reserved_kind_registry :
    refusal (step (State.reset.withFetchWord 32 0x00000089)) =
        some (.illegalConfig (.integrity ⟨0x00, some .inbound, some 0, .i3⟩)) ∧
      refusal (step (State.resetWith (withRom defaultConfig
        [(0x10, ⟨none, some (.fixed [0x00000080, 0x0000008F])⟩)]))) =
        some (.illegalConfig (.integrity ⟨0x10, some .outbound, some 1, .i3⟩)) := by decide

/-- The packed words of type 0x10 in 95_test_vectors.md section 2, names apart. -/
theorem test_unpack_fields10 :
    [0x00000040, 0x00000041, 0x00000101, 0x00000202, 0x00000024, 0x00000085, 0x00000086,
      0x01FE0108].map (unpackDescriptor [[0, 1, 2]]) =
      fields10.map (fun f => .ok { f with name := "" }) := by decide

/-! ### The assembler, on the example of 30_encoding.md section 6 -/

/-- The two lines with a field-value list. -/
theorem test_assemble_values :
    assembleLine "SEND_CMD  0x20 \x7b U(8,0x05), U(16,0x1234) \x7d" =
        some [.command 0x3020 vals20 []] ∧
      assembleLine "ENCODE    0x20 \x7b U(8,0x05), U(16,0x1234) \x7d" =
        some [.command 0x7020 vals20 []] := by decide

theorem test_assemble_line :
    assembleLine "CSR_READ  0x11            ; or CSR_READ CNT_FRAMES_OK" =
        some [.command 0x8011 [] []] ∧
      assembleLine "CSR_READ CNT_FRAMES_OK" = some [.command 0x8011 [] []] ∧
      assembleLine "FEED [A0 A1]" = some [.command 0x10A0 [] [], .command 0x10A1 [] []] := by decide

/-! ### Witnesses: states and operands that meet a statement's hypotheses

Each theorem is named after its statement and shows every hypothesis of it met, at the boundary of a
range where there is one. -/

/-- A message queued, a NACK latched and a command pending. -/
def busy : State :=
  { s0 with rxq := [msg1], ack := ⟨true, .nack, true, 0x20⟩, cmd := ⟨true, 0x20⟩ }

/-- V1 without its last byte, in the buffer. -/
def almost : State := { s0 with buf := v1.dropLast }

/-- The body of V33: two items. -/
def array2 : List Byte := [0x02, 0x00, 0x00, 0x01, 0x02, 0x00, 0xFF, 0xFF]

/-- A header with a count and an ENUM field. -/
def enumHeader : List FieldDesc := [⟨"", .uint, 4⟩, ⟨"", .enum [0, 1, 2], 4⟩]

/-- An array of ENUM items. -/
def enumArray : Layout := .array enumHeader 8 0 [⟨"", .enum [0, 1, 2], 8⟩] 8

/-- A configuration with that array in slot 0x10. -/
def enumArrayConfig : Config :=
  { testConfig 8 1 with
    registry := [(0x10, ⟨"", some enumArray, none⟩), (measTimeId, measTimeEntry)] }

/-- V1 whole in the buffer: its candidate. -/
def whole : State := { s0 with buf := v1 }

theorem exec_next_of {i : Instr} {s t : State} (h : after (exec i s) = some t) :
    exec i s = .next t := by
  cases hs : exec i s with
  | next u => rw [hs] at h; cases h; rfl
  | fault r => cases r
  | refused r => rw [hs] at h; cases h

theorem sound_start : Sound s0 where
  legal := by decide
  bufBound := by decide
  rxqBound := by decide
  quiescent := rfl
  ackForm := ⟨by decide, by decide⟩
  dropForm := ⟨by decide, by decide, by decide⟩
  accounting := by decide
  typed := by decide

theorem witness_ResetGivesEveryElementItsResetValue :
    (Legal (issued busy .reset .reset).cfg ∧ (issued busy .reset .reset).schedule = [.reset] ∧
      nextRequest .reset (issued busy .reset .reset).pending = some .reset) ∧
    Legal (testConfig 8 1) ∧ Legal (testConfig 0xFFFFFFFF 0xFFFFFFFF) ∧
    0x10 ≤ (0x10 : Byte).toNat ∧ (0x1C : Byte).toNat ≤ 0x1C := by decide

theorem witness_ResetStateIsSound : Legal (testConfig 8 1) := by decide

theorem witness_EveryStepKeepsTheStateSound :
    Sound (issued s0 .ingress (feedByteRequest 0xA0)) ∧
      ∃ t, step (issued s0 .ingress (feedByteRequest 0xA0)) = .next t ∧ t.buf = [0xA0] :=
  ⟨⟨sound_start.legal, sound_start.bufBound, sound_start.rxqBound, sound_start.quiescent,
    sound_start.ackForm, sound_start.dropForm, sound_start.accounting, sound_start.typed⟩,
    _, rfl, by decide⟩

theorem witness_StepRunsTheDecodedOperation :
    ∃ t, Legal s0.cfg ∧ nextRequest .ingress [(.ingress, feedByteRequest 0xA0)] =
        some (.command 0x10A0 [] []) ∧
      decodeCommand 0x10A0 [] [] = .ok (.feedByte 0xA0) ∧
      exec (.feedByte 0xA0) { issued s0 .ingress (feedByteRequest 0xA0) with schedule := [] } =
        .next t :=
  ⟨_, by decide, by decide, by decide, rfl⟩

theorem witness_IllegalWordsReturnIllegalOp :
    Legal s0.cfg ∧ (issued s0 .observer (.command 0x0FFF [] [])).schedule = [.observer] ∧
      nextRequest .observer (issued s0 .observer (.command 0x0FFF [] [])).pending =
        some (.command 0x0FFF [] []) ∧
      decodeCommand 0x0FFF [] [] = .error .reservedOp ∧
      decodeCommand 0x9000 [] [] = .error .reservedOp := by decide

theorem witness_HeldOperationChangesNothingAndWaits :
    ∃ t u, Legal s0.cfg ∧
      decodeCommand 0x2000 [] [] = .ok .getMsg ∧
      exec .getMsg { issued s0 .consumer (.command 0x2000 [] []) with schedule := [] } = .next t ∧
      t.out = .hold ∧
      decodeCommand 0x4000 [] [] = .ok .waitAck ∧
      exec .waitAck { issued { s0 with cmd := ⟨true, 0x20⟩ } .commander (.command 0x4000 [] []) with
        schedule := [] } = .next u ∧ u.out = .hold :=
  ⟨_, _, by decide, by decide, rfl, by decide, by decide, rfl, by decide⟩

theorem witness_SendAndWaitIsSendThenWait :
    ∃ t u, Legal s0.cfg ∧
      nextRequest .commander [(.commander, .sendAndWait 0x20 vals20)] =
        some (.sendAndWait 0x20 vals20) ∧
      exec (.sendCmd 0x20 vals20) { issued s0 .commander (.sendAndWait 0x20 vals20) with
        schedule := [] } = .next t ∧ t.out = .ok .unit ∧
      exec (.sendCmd 0x20 []) { issued s0 .commander (.sendAndWait 0x20 []) with
        schedule := [] } = .next u ∧ u.out = .status .eEncShape :=
  ⟨_, _, by decide, by decide, rfl, by decide, rfl, by decide⟩

theorem witness_EveryHostOperationHasADefinedOutcome :
    decodeCommand 0x60DC [] body1 = .ok (.decodeMsg 0xDC body1) := by decide

theorem witness_LegalConfigurationNeverStops : Legal busy.cfg := by decide

theorem witness_DefectiveConfigurationHasNoRun :
    ¬ Legal (testConfig 7 1) ∧ ¬ Legal (testConfig 8 0) ∧ ¬ Legal (testConfig 0x100000000 1) ∧
      ¬ Legal { testConfig 8 1 with registry := [] } := by decide

theorem witness_ConfigurationIsFixedAndBufferIsWrittenOnlyByFeedByteAndReset :
    ∃ t u, step (issued almost .ingress (feedByteRequest 0x0A)) = .next t ∧ t.buf ≠ almost.buf ∧
      step (issued almost .reset .reset) = .next u ∧ u.buf ≠ almost.buf :=
  ⟨_, _, rfl, by decide, rfl, by decide⟩

theorem witness_EgressGrowsByWholeFrames :
    ∃ t u, step (issued s0 .commander (.command 0x3020 vals20 [])) = .next t ∧ t.txs ≠ s0.txs ∧
      step (issued s0 .commander (.sendAndWait 0x20 vals20)) = .next u ∧ u.txs ≠ s0.txs :=
  ⟨_, _, rfl, by decide, rfl, by decide⟩

theorem witness_DeliveryQueueIsFirstInFirstOut :
    ∃ t u v, step (issued almost .ingress (feedByteRequest 0x0A)) = .next t ∧ t.rxq = [msg1] ∧
      step (issued busy .consumer (.command 0x2000 [] [])) = .next u ∧ u.rxq = [] ∧
      step (issued busy .reset .reset) = .next v ∧ v.rxq = [] :=
  ⟨_, _, _, rfl, by decide, rfl, by decide, rfl, by decide⟩

theorem witness_ResetReleasesHeldWaitAckOnly :
    Legal busy.cfg ∧ Agent.reset ≠ .commander ∧
      nextRequest .reset [(.commander, .command 0x4000 [] []), (.reset, .reset)] = some .reset ∧
      nextRequest .commander [(.commander, .command 0x4000 [] []), (.reset, .reset)] =
        some (.command 0x4000 [] []) ∧
      nextRequest .consumer [(.reset, .reset), (.consumer, .command 0x2000 [] [])] =
        some (.command 0x2000 [] []) := by decide

theorem witness_GetMsgTakesTheOldestOrHolds : busy.rxq = msg1 :: [] ∧ s0.rxq = [] := by decide

theorem witness_SendCmdSendsOneFrame :
    busy.cmd.pending = true ∧ s0.cmd.pending = false ∧
      encodeOut s0.cfg 0x20 [.u 8 0x100, .u 16 0] = .error .eEncRange ∧
      encodeOut s0.cfg 0x20 vals20 = .ok [0x05, 0x12, 0x34] ∧ Legal s0.cfg := by decide

theorem witness_WaitAckReturnsAndClearsTheLatch :
    (busy.cmd.pending = true ∧ busy.ack.valid = true) ∧
      (CmdState.pending ⟨true, 0x20⟩ = true ∧ s0.ack.valid = false) ∧ s0.cmd.pending = false := by
  decide

theorem witness_DecodeAnswersTheMessage :
    inLayout s0.cfg 0x83 = none ∧ inLayout s0.cfg 0x11 ≠ none ∧
      decodeIn s0.cfg 0x11 [0x02, 0x00, 0x00, 0x01, 0x02] = .error .eDecCount ∧
      decodeIn s0.cfg 0xDC body1 = .ok msg1 ∧ body1.length ≤ 65534 ∧ Legal s0.cfg := by decide

/-- V46: the shortest body that is too long for any frame, and the longest that is not. -/
theorem witness_DecodeAnswersTheMessage_long :
    65534 < (List.replicate 65535 (0 : Byte)).length ∧
      (List.replicate 65534 (0 : Byte)).length ≤ 65534 := by
  constructor
  · rw [List.length_replicate]; norm_num
  · rw [List.length_replicate]

theorem witness_EncodeAnswersTheBody :
    encodeOut s0.cfg 0x20 vals20 = .ok [0x05, 0x12, 0x34] ∧
      encodeOut s0.cfg 0xDC vals20 = .error .eEncNoLayout := by decide

theorem witness_CsrReadAnswersMappedIndices :
    ((0x05 : Byte).toNat ≤ 0x05 ∧ 0x10 ≤ (0x10 : Byte).toNat ∧ (0x1C : Byte).toNat ≤ 0x1C) ∧
      (0x06 ≤ (0x06 : Byte).toNat ∧ (0x0F : Byte).toNat ≤ 0x0F) ∧ 0x1D ≤ (0x1D : Byte).toNat ∧
      csrValue s0 0x05 = some 0 ∧ csrValue s0 0x06 = none ∧ csrValue s0 0x0F = none ∧
      csrValue s0 0x10 = some 0 ∧ csrValue s0 0x1C = some 0 ∧ csrValue s0 0x1D = none ∧
      csrValue s0 0xFF = none := by decide

theorem witness_StatusRegisterFields :
    Legal (testConfig 8 1) ∧ statusCsr busy = 0x2000200F := by decide

theorem witness_EveryRegisterShowsItsElement :
    Sound s0 ∧ ∃ t, step (issued s0 .observer (.command 0x8003 [] [])) = .next t :=
  ⟨sound_start, _, rfl⟩

theorem witness_HostErrorWritesOnlyItsCounter :
    outcome (.decodeMsg 0x83 [0x20]) s0 = some (.status .eUnknownType) ∧
      outcome (.sendCmd 0x83 []) s0 = some (.status .eEncNoLayout) ∧
      outcome (.encodeMsg 0x20 []) s0 = some (.status .eEncShape) ∧
      outcome .waitAck s0 = some (.status .eNotPending) ∧
      outcome (.csrRead 0xFF) s0 = some (.status .eCsrAddr) ∧
      decodeCommand 0x80FF [] [] = .ok (.csrRead 0xFF) := by decide

theorem witness_PureOperationsAreRepeatable :
    ∃ t u, exec (.csrRead 0x06) s0 = .next t ∧ exec (.csrRead 0x06) t = .next u :=
  ⟨_, _, rfl, rfl⟩

theorem witness_FeedByteEvictsAppendsAndScans :
    s0.buf.length ≠ s0.cfg.bufCap ∧
      ({ start 8 1 with buf := List.replicate 8 0x11 } : State).buf.length = (start 8 1).cfg.bufCap ∧
      1 ≤ (start 8 1).cfg.bufCap ∧
      (feedByte 0x22 { start 8 1 with buf := List.replicate 8 0x11 }).buf =
        List.replicate 7 0x11 ++ [0x22] := by decide

theorem witness_CandidateGeometry : locate v1 = some ⟨0, 10, 15⟩ := by decide

/-- V11's first candidate, and V8's. -/
theorem witness_BadCandidatesAreDropped :
    (locate (v1.set 6 0x07) = some ⟨0, 10, 15⟩ ∧ candidateXor (v1.set 6 0x07) ⟨0, 10, 15⟩ ≠ 0) ∧
    (locate [0xA0, 0xA1, 0x00, 0x00, 0x00, 0x0D, 0x0A, 0x00] = some ⟨0, 0, 5⟩ ∧
      candidateXor [0xA0, 0xA1, 0x00, 0x00, 0x00, 0x0D, 0x0A, 0x00] ⟨0, 0, 5⟩ = 0 ∧
      candidatePayload [0xA0, 0xA1, 0x00, 0x00, 0x00, 0x0D, 0x0A, 0x00] ⟨0, 0, 5⟩ = []) := by decide

theorem witness_ScanRunsTheDecodedFrameRow :
    (locate whole.buf = some ⟨0, 10, 15⟩ ∧ candidateXor whole.buf ⟨0, 10, 15⟩ = 0 ∧
      candidatePayload whole.buf ⟨0, 10, 15⟩ = 0xDC :: body1) ∧
    ((0x10 : Byte) ≠ 0x83 ∧ (0x10 : Byte) ≠ 0x84 ∧ (0x10 : Byte) ≠ 0xDC ∧
      inLayout s0.cfg 0x10 ≠ none) ∧
    ((0x20 : Byte) ≠ 0x83 ∧ (0x20 : Byte) ≠ 0x84 ∧ (0x20 : Byte) ≠ 0xDC ∧
      inLayout s0.cfg 0x20 = none) := by decide

theorem witness_UnknownFramesAreDropped :
    (0x20 : Byte) ≠ 0x83 ∧ (0x20 : Byte) ≠ 0x84 ∧ inLayout s0.cfg 0x20 = none ∧
      inLayout s0.cfg 0x55 = none := by decide

theorem witness_RegisteredFramesAreDecodedAndDelivered :
    ((0x10 : Byte) ≠ 0x83 ∧ (0x10 : Byte) ≠ 0x84 ∧ (0x10 : Byte) ≠ 0xDC) ∧
    (inLayout s0.cfg 0x10 ≠ none ∧ decodeIn s0.cfg 0x10 body26 = .ok ⟨0x10, vals26, none⟩ ∧
      s0.rxq.length ≠ s0.cfg.rxqDepth) ∧
    ({ start 8 1 with rxq := [msg1] } : State).rxq.length = (start 8 1).cfg.rxqDepth ∧
    decodeIn s0.cfg 0x10 [] = .error .eDecLength := by decide

theorem witness_MeasurementTimeFramesAreDelivered :
    Legal s0.cfg ∧ s0.rxq.length ≠ s0.cfg.rxqDepth ∧ ([] : List Byte).length ≠ 9 := by decide

theorem witness_EachCandidateCountsOnce : (scanStep whole).isSome = true := by decide

theorem witness_ScanEndsInWait : (scanStep whole).map (·.buf) = some [] := by decide

theorem witness_ScanStepIsPrefixStable : (scanStep whole).isSome = true := by decide

theorem witness_ChunkingDoesNotMatter :
    Quiescent (start 17 1) ∧
      (start 17 1).buf.length + [v1.take 5, [], v1.drop 5].flatten.length = (start 17 1).cfg.bufCap :=
  ⟨rfl, by decide⟩

/-- The first and the last byte that may be changed: the type byte and the checksum. -/
theorem witness_CorruptedFrameIsDroppedAlone :
    findPreamble (start 17 1).buf = none ∧ body1.length ≤ 65534 ∧
      (start 17 1).buf.length + (8 + body1.length) ≤ (start 17 1).cfg.bufCap ∧
      (0x00 : Byte) ≠ (txFrame 0xDC body1).getD 4 0 ∧
      (0x00 : Byte) ≠ (txFrame 0xDC body1).getD (5 + body1.length) 0 := by decide

theorem witness_UnknownFrameIsDroppedAlone :
    findPreamble (start 10 1).buf = none ∧
      (start 10 1).buf.length + (8 + [(0x01 : Byte), 0x02].length) ≤ (start 10 1).cfg.bufCap ∧
      (0x55 : Byte) ≠ 0x83 ∧ (0x55 : Byte) ≠ 0x84 ∧ inLayout (start 10 1).cfg 0x55 = none := by decide

theorem witness_TransmittedFrameIsWellFormed :
    (List.replicate 65534 (0x0D : Byte)).length ≤ 65534 := by
  rw [List.length_replicate]

theorem witness_TransmittedFrameLoopsBack :
    (start 17 1).buf = [] ∧ body1.length ≤ 65534 ∧
      7 + (1 + body1.length) ≤ (start 17 1).cfg.bufCap := by decide

theorem witness_BitsAreMostSignificantFirst :
    (4 + 20 ≤ 8 * [(0x3D : Byte), 0x06, 0xED].length ∧
      bitRead [0x3D, 0x06, 0xED] 4 8 = 0xD0) ∧
    (0xD < 2 ^ 4 ∧ ([true, false].length + 4 + [true, false].length) % 8 = 0) := by decide

theorem witness_DecodedMessagesFitTheirLayout :
    Legal s0.cfg ∧ decodeIn s0.cfg 0x11 [0x01, 0x07, 0x12, 0x34, 0x56] =
      .ok ⟨0x11, [.u 8 1, .u 8 7], some [[.u 16 0x1234, .s 8 86]]⟩ := by decide

/-- V1's body, and V33's two items: the item at offset 16 and the item at offset 40. -/
theorem witness_DecodedMessagesFitTheirLayout_values :
    (inLayout s0.cfg 0xDC = some measTimeLayout ∧ 8 * body1.length = 72 ∧
      FieldsRead [⟨"iod", .uint, 8⟩, ⟨"receiver_wn", .uint, 16⟩, ⟨"receiver_tow", .uint, 32⟩,
        ⟨"measurement_period", .uint, 16⟩] body1 0 msg1.fields) ∧
    (inLayout s0.cfg 0x11 = some (.array header11 16 0 sub11 24) ∧ 16 ≤ 8 * array2.length ∧
      (8 * array2.length - 16) % 24 = 0 ∧ FieldsRead header11 array2 0 [.u 8 2, .u 8 0] ∧
      FieldsRead sub11 array2 (16 + 0 * 24) [.u 16 1, .s 8 2] ∧
      FieldsRead sub11 array2 (16 + 1 * 24) [.u 16 255, .s 8 (-1)]) ∧
    (descOf s0.cfg.enumSets .enum ⟨8, 0, 0, 0⟩ = .ok ⟨"", .enum [0, 1, 2], 8⟩ ∧
      fieldDecode ⟨"", .enum [0, 1, 2], 8⟩ [0x02] 0 = .ok (.e 8 2) ∧
      fieldDecode ⟨"", .enum [0, 1, 2], 8⟩ [0x03] 0 = .error .eDecEnum) :=
  ⟨⟨by decide, by decide, (unpackFields_ok_iff (o' := 72)).1 (by decide) |>.1⟩,
    ⟨by decide, by decide, by decide, (unpackFields_ok_iff (o' := 16)).1 (by decide) |>.1,
      (unpackFields_ok_iff (o' := 40)).1 (by decide) |>.1,
      (unpackFields_ok_iff (o' := 64)).1 (by decide) |>.1⟩, by decide⟩

theorem witness_BodyLengthAndCountAreChecked :
    (inLayout s0.cfg 0x10 = some (.fixed fields10 104) ∧ 8 * [(0 : Byte)].length ≠ 104 ∧
      8 * body26.length = 104) ∧
    inLayout s0.cfg 0x11 = some (.array header11 16 0 sub11 24) ∧
    8 * [(0 : Byte)].length < 16 ∧
    (8 * [(1 : Byte), 0, 0, 1].length - 16) % 24 ≠ 0 ∧
    (¬ (8 * [(2 : Byte), 0, 0, 1, 2].length < 16 ∨ (8 * [(2 : Byte), 0, 0, 1, 2].length - 16) % 24 ≠ 0) ∧
      unpackFields header11 [2, 0, 0, 1, 2] 0 = .ok ([.u 8 2, .u 8 0], 16) ∧
      countOf [.u 8 2, .u 8 0] 0 ≠ some 1) ∧
    decodeIn s0.cfg 0x11 [0, 0] = .ok ⟨0x11, [.u 8 0, .u 8 0], some []⟩ := by decide

/-- V29's ENUM value, 3, and an array whose header or whose second item fails on an ENUM field. -/
theorem witness_BodyLengthAndCountAreChecked_failures :
    FirstReadFailure fields10 (body26.set 9 0x03) 0 .eDecEnum ∧
    (Legal enumArrayConfig ∧ inLayout enumArrayConfig 0x10 = some enumArray ∧
      8 ≤ 8 * [(2 : Byte), 1, 3].length ∧ (8 * [(2 : Byte), 1, 3].length - 8) % 8 = 0 ∧
      FirstReadFailure enumHeader [7, 1, 3] 0 .eDecEnum ∧
      FieldsRead enumHeader [2, 1, 3] 0 [.u 4 0, .e 4 2]) ∧
    (FieldsRead enumHeader [0x22, 1, 3] 0 [.u 4 2, .e 4 2] ∧
      FieldsRead [⟨"", .enum [0, 1, 2], 8⟩] [0x22, 1, 3] (8 + 0 * 8) [.e 8 1] ∧
      FirstReadFailure [⟨"", .enum [0, 1, 2], 8⟩] [0x22, 1, 3] (8 + 1 * 8) .eDecEnum) :=
  ⟨unpackFields_error_iff.1 (by decide),
    ⟨by decide, by decide, by decide, by decide, unpackFields_error_iff.1 (by decide),
      (unpackFields_ok_iff (o' := 8)).1 (by decide) |>.1⟩,
    (unpackFields_ok_iff (o' := 8)).1 (by decide) |>.1,
    (unpackFields_ok_iff (o' := 16)).1 (by decide) |>.1, unpackFields_error_iff.1 (by decide)⟩

theorem witness_EncodeAcceptsExactlyTheFittingLists :
    Legal s0.cfg ∧ outLayout s0.cfg 0x10 = some (.fixed fields10 104) ∧
      valuesFit fields10 vals26 = true ∧ valuesFit fields10 [] = false := by decide

/-- V66's patterns for the outbound-only type 0x20, and a second value that is out of range. -/
theorem witness_EncodeAcceptsExactlyTheFittingLists_codes :
    outLayout s0.cfg 0xDC = none ∧ outLayout s0.cfg 0x20 = some (.fixed fields20 24) ∧
    ([] : List FieldValue).length ≠ fields20.length ∧
    (∃ pats, FieldsWritten fields20 vals20 pats ∧ bytesOf pats.flatten = [0x05, 0x12, 0x34]) ∧
    FirstWriteFailure fields20 [.u 8 5, .u 16 0x10000] .eEncRange ∧
    (descOf s0.cfg.enumSets .uint ⟨8, 0, 0, 0⟩ = .ok ⟨"", .uint, 8⟩ ∧
      fieldEncode ⟨"", .uint, 8⟩ (.u 8 5) = .ok (bitsOf 8 5) ∧
      fieldEncode ⟨"", .uint, 8⟩ (.u 8 256) = .error .eEncRange) := by
  refine ⟨by decide, by decide, by decide, ?_, ⟨1, _, _, rfl, rfl, by decide, ?_⟩, by decide⟩
  · obtain ⟨pats, hw, hb⟩ := packFields_ok_iff.1
      (show packFields fields20 vals20 = .ok (bitsOf 8 5 ++ bitsOf 16 0x1234) by decide)
    exact ⟨pats, hw, by rw [← hb]; decide⟩
  · rintro j g u hj hg hu
    obtain rfl : j = 0 := by omega
    cases hg; cases hu; exact ⟨_, rfl⟩

theorem witness_EncodedLengthIsDeclaredLength :
    Legal s0.cfg ∧ encodeOut s0.cfg 0x10 vals26 = .ok body26 := by decide

theorem witness_SymmetricTypesRoundTrip :
    Legal s0.cfg ∧ inLayout s0.cfg 0x10 = some (.fixed fields10 104) ∧
      outLayout s0.cfg 0x10 = some (.fixed fields10 104) ∧
      encodeOut s0.cfg 0x10 vals26 = .ok body26 ∧
      decodeIn s0.cfg 0x10 body26 = .ok ⟨0x10, vals26, none⟩ := by decide

/-- The widths 1 and 64 and the extreme values of the integer-like rows. -/
theorem witness_UnsignedFieldRows :
    (1 ≤ (1 : BitVec 12).toNat ∧ (64 : BitVec 12).toNat ≤ 64 ∧
      0 + (64 : BitVec 12).toNat ≤ 8 * [(0 : Byte), 0, 0, 0, 0, 0, 0, 0].length) ∧
    ((0 : Int) ≤ 1 ∧ (1 : Int) < 2 ^ (1 : BitVec 12).toNat) ∧
    ¬ ((0 : Int) ≤ 2 ∧ (2 : Int) < 2 ^ (1 : BitVec 12).toNat) ∧
    (∀ n, FieldValue.s 1 0 ≠ .u 1 n) ∧ (∀ n, FieldValue.s 1 0 ≠ .fl 1 n) :=
  ⟨by decide, by decide, by decide, nofun, nofun⟩

theorem witness_SignedFieldRow :
    (1 ≤ (4 : BitVec 12).toNat ∧ (4 : BitVec 12).toNat ≤ 64 ∧
      4 + (4 : BitVec 12).toNat ≤ 8 * [(0xF0 : Byte)].length) ∧
    (-(2 ^ 3) ≤ (-8 : Int) ∧ (-8 : Int) < 2 ^ 3) ∧
    ¬ (-(2 ^ 3) ≤ (8 : Int) ∧ (8 : Int) < 2 ^ 3) ∧ (∀ i, FieldValue.u 4 0 ≠ .s 4 i) :=
  ⟨by decide, by decide, by decide, nofun⟩

theorem witness_FloatFieldRows :
    0 + 64 ≤ 8 * [(0xBF : Byte), 0xF0, 0, 0, 0, 0, 0, 0].length ∧ 0xFFFFFFFF < 2 ^ 32 ∧
      0xFFFFFFFFFFFFFFFF < 2 ^ 64 ∧ (-1 : Int) < 0 ∧ (2 : Int) ^ 32 ≤ 4294967296 ∧
      (∀ p, FieldValue.u 32 0 ≠ .f32 p) ∧ (∀ p, FieldValue.u 64 0 ≠ .f64 p) :=
  ⟨by decide, by decide, by decide, by decide, by decide, nofun, nofun⟩

theorem witness_BlobFieldRow :
    1 ≤ (1 : BitVec 12).toNat ∧ 0 + 8 * (1 : BitVec 12).toNat ≤ 8 * [(0x12 : Byte)].length ∧
      [(0x12 : Byte)].length = (1 : BitVec 12).toNat ∧ ([] : List Byte).length ≠ (1 : BitVec 12).toNat ∧
      (∀ bs, FieldValue.u 8 0 ≠ .blob bs) :=
  ⟨by decide, by decide, by decide, by decide, nofun⟩

theorem witness_EnumFieldRow :
    (1 ≤ (8 : BitVec 12).toNat ∧ (8 : BitVec 12).toNat ≤ 64 ∧
      s0.cfg.enumSets[(0 : Byte).toNat]? = some [0, 1, 2] ∧ ([0, 1, 2] : List Nat) ≠ [] ∧
      (∀ v ∈ [0, 1, 2], v < 2 ^ (8 : BitVec 12).toNat) ∧
      bitRead [0x02] 0 8 ∈ [0, 1, 2] ∧ bitRead [0x03] 0 8 ∉ [0, 1, 2] ∧
      ∀ m ∈ [0, 1, 2], (3 : Int) ≠ ((m : Nat) : Int)) ∧ (∀ n, FieldValue.u 8 0 ≠ .e 8 n) :=
  ⟨by decide, nofun⟩

theorem witness_FixedPointFieldRows :
    (1 ≤ (16 : BitVec 12).toNat ∧ (16 : BitVec 12).toNat ≤ 64 ∧
      10 = (if (1 : BitVec 1) = 0 then 2 else 10) ∧ (-2 : Int) = (0xFE : Byte).toInt ∧
      0 + (16 : BitVec 12).toNat ≤ 8 * [(0x30 : Byte), 0x39].length) ∧
    ((0 : Int) ≤ 65535 ∧ (65535 : Int) < 2 ^ 16) ∧ ¬ ((0 : Int) ≤ 65536 ∧ (65536 : Int) < 2 ^ 16) ∧
    (-(2 ^ 15) ≤ (-32768 : Int) ∧ (-32768 : Int) < 2 ^ 15) ∧
    ¬ (-(2 ^ 15) ≤ (32768 : Int) ∧ (32768 : Int) < 2 ^ 15) ∧
    (∀ n, FieldValue.fxu 16 0 2 (-2) ≠ .fxu 16 n 10 (-2)) ∧
    (∀ i, FieldValue.fxs 16 0 10 (-3) ≠ .fxs 16 i 10 (-2)) :=
  ⟨by decide, by decide, by decide, by decide, by decide, nofun,
    nofun⟩

/-- One descriptor for each defect. -/
theorem witness_DefectiveDescriptorsAreRefused :
    (DescBits.rsvd ⟨8, 0, 0, 1⟩ ≠ 0) ∧ (KindCode.enum ≠ .fixu ∧ DescBits.base ⟨8, 0, 1, 0⟩ ≠ 0) ∧
      (KindCode.uint ≠ .enum ∧ DescBits.aux ⟨8, 1, 0, 0⟩ ≠ 0) ∧ DescBits.size ⟨0, 0, 0, 0⟩ = 0 ∧
      DescBits.size ⟨31, 0, 0, 0⟩ ≠ 32 ∧ DescBits.size ⟨63, 0, 0, 0⟩ ≠ 64 ∧
      (KindCode.fixs ≠ .blob ∧ 64 < (DescBits.size ⟨65, 0, 0, 0⟩).toNat) := by decide

/-- The three defects of a value set, a read one bit past the body, the first reserved KIND, and a word
for each way in which a registry fails on its word. -/
theorem witness_DefectiveDescriptorsAreRefused_words :
    (s0.cfg.enumSets[(1 : Byte).toNat]? = none ∧
      ([[]] : List (List Nat))[(0 : Byte).toNat]? = some [] ∧
      s0.cfg.enumSets[(0 : Byte).toNat]? = some [0, 1, 2] ∧
      (∃ v ∈ [0, 1, 2], 2 ^ (1 : BitVec 12).toNat ≤ v)) ∧
    (descOf s0.cfg.enumSets .uint ⟨8, 0, 0, 0⟩ = .ok ⟨"", .uint, 8⟩ ∧
      8 * [(0 : Byte)].length < 1 + fieldWidth ⟨"", .uint, 8⟩) ∧
    9 ≤ (0x00000089 : Word).toNat % 16 ∧ Legal s0.cfg ∧
    unpackDescriptor s0.cfg.enumSets 0x00000089 = .error .i3 ∧
    unpackDescriptor s0.cfg.enumSets 0x80000080 = .error .i3 ∧
    unpackDescriptor s0.cfg.enumSets 0x00010085 = .error .i4 ∧
    unpackDescriptor s0.cfg.enumSets 0x01FE0108 = .ok ⟨"", .fixs 10 (-2), 16⟩ := by decide

theorem witness_DecodeInvertsEncode :
    WellFormed s0.cfg (.sendCmd 0x20 vals20) = true ∧ WellFormed s0.cfg (.frameNack []) = true ∧
      WellFormed s0.cfg (.frameUnknown 0x20 []) = true ∧
      WellFormed s0.cfg (.fieldFixs ⟨64, 0x80, 1, 0⟩ (.encode (.u 1 0))) = true ∧
      WellFormed s0.cfg (.fieldBlob ⟨4095, 0, 0, 0⟩ (.encode (.u 1 0))) = true := by decide

theorem witness_EncodeInvertsDecode :
    decodeCommand 0x6011 [] [0x02] = .ok (.decodeMsg 0x11 [0x02]) ∧
      decodeDescriptor 0xFFFFFFF8 (.encode (.u 1 0)) =
        .ok (.fieldFixs ⟨0xFFF, 0xFF, 1, 0x7F⟩ (.encode (.u 1 0))) := by decide

end Sys2Proof.Tests
end

section
/-! SUPPORT. What each derived flag and each field of the two packed registers shows (10_state.md R42,
R44, R49). -/

namespace Sys2Proof.Machine

/-! ### The derived flags (10_state.md R42) -/

theorem msgAvail_iff (s : State) : msgAvail s = true ↔ s.rxq ≠ [] := by simp [msgAvail]

theorem rxqEmpty_iff (s : State) : rxqEmpty s = true ↔ s.rxq = [] := by simp [rxqEmpty]

theorem rxqFull_iff (s : State) : rxqFull s = true ↔ s.rxq.length = s.cfg.rxqDepth := by
  simp [rxqFull]

theorem kindBit_iff (k : AckKind) : kindBit k = true ↔ k = .nack := by cases k <;> simp [kindBit]

/-! ### The fields of STATUS and of LAST_DROP (10_state.md R44, R49) -/

/-- The fields of STATUS that are one bit wide. -/
theorem statusCsr_bits (s : State) :
    (statusCsr s).getLsbD 0 = s.cmd.pending ∧ (statusCsr s).getLsbD 1 = s.ack.valid ∧
    (statusCsr s).getLsbD 2 = kindBit s.ack.kind ∧ (statusCsr s).getLsbD 3 = s.ack.echoValid ∧
    (statusCsr s).getLsbD 16 = rxqEmpty s ∧ (statusCsr s).getLsbD 17 = rxqFull s := by
  simp only [statusCsr, BitVec.getLsbD_append]
  simp

/-- The fields of STATUS that are wider, the two reserved ones included. -/
theorem statusCsr_fields (s : State) :
    (statusCsr s).extractLsb' 4 4 = 0 ∧ (statusCsr s).extractLsb' 8 8 = s.ack.echo ∧
    (statusCsr s).extractLsb' 18 6 = 0 ∧ (statusCsr s).extractLsb' 24 8 = s.cmd.type := by
  simp (disch := decide) only [statusCsr, BitVec.extractLsb'_append_eq_of_le,
    BitVec.extractLsb'_append_eq_of_add_le]
  simp

theorem lastDropCsr_fields (s : State) :
    (lastDropCsr s).extractLsb' 0 8 = s.lastDrop.code ∧
    (lastDropCsr s).extractLsb' 8 8 = s.lastDrop.type ∧
    (lastDropCsr s).getLsbD 16 = s.lastDrop.typeValid ∧ (lastDropCsr s).extractLsb' 17 15 = 0 := by
  simp (disch := decide) only [lastDropCsr, BitVec.extractLsb'_append_eq_of_le,
    BitVec.extractLsb'_append_eq_of_add_le, BitVec.getLsbD_append]
  simp

theorem lastDropCsr_resetWith (c : Config) : lastDropCsr (State.resetWith c) = 0 := by
  simp [lastDropCsr, State.resetWith]

/-! ### The capacities of a legal configuration (00_scope.md R7, R8) -/

theorem legal_capacities {c : Config} (h : Legal c) :
    (8 ≤ c.bufCap ∧ c.bufCap < 2 ^ 32) ∧ 1 ≤ c.rxqDepth ∧ c.rxqDepth < 2 ^ 32 := by
  simp only [Legal, configDefects, List.append_eq_nil_iff] at h
  obtain ⟨⟨⟨⟨hbuf, hrxq⟩, -⟩, -⟩, -⟩ := h
  exact ⟨by simpa using hbuf, by simpa using hrxq⟩

/-- The empty queue of the reset state is not full: a legal queue has room for a message. -/
theorem rxqFull_resetWith {c : Config} (h : Legal c) : rxqFull (State.resetWith c) = false := by
  obtain ⟨-, hdepth, -⟩ := legal_capacities h
  simp [rxqFull, State.resetWith]
  omega

theorem statusCsr_resetWith {c : Config} (h : Legal c) :
    statusCsr (State.resetWith c) = 0x00010000 := by
  rw [statusCsr, rxqFull_resetWith h]
  simp [State.resetWith, rxqEmpty, AckLatch.clear, kindBit]

end Sys2Proof.Machine
end

section
/-! SUPPORT. No operation writes the configuration (10_state.md R38). -/

namespace Sys2Proof.Machine

/-! ### Ingress: the dispatch and the scan -/

theorem decodeAndDeliver_cfg (t : Byte) (body : List Byte) (s : State) :
    (decodeAndDeliver t body s).cfg = s.cfg := by
  obtain ⟨-, h⟩ | ⟨-, e, -, -, h⟩ | ⟨-, v, -, -, -, h⟩ | ⟨-, v, -, -, -, h⟩ :=
    decodeAndDeliver_cases t body s <;> rw [h]
  · simp [rejectUnknown]
  · simp [rejectDecode]
  · simp
  · simp

theorem dispatchFrame_cfg (t : Byte) (body : List Byte) (s : State) :
    (dispatchFrame t body s).cfg = s.cfg := by
  obtain ⟨-, h⟩ | ⟨-, h⟩ | ⟨-, -, h⟩ := dispatchFrame_cases t body s <;> rw [h]
  · simp [acceptAck]
  · simp [acceptNack]
  · exact decodeAndDeliver_cfg t body s

theorem handleCandidate_cfg (k : Candidate) (s : State) : (handleCandidate k s).cfg = s.cfg := by
  obtain ⟨-, h⟩ | ⟨-, -, h⟩ | ⟨t, body, -, -, h⟩ := handleCandidate_cases k s <;> rw [h]
  · simp
  · simp
  · simp [dispatchFrame_cfg]

theorem scan_cfg (s : State) : (scan s).cfg = s.cfg := by
  refine scan_induct (P := fun u => u.cfg = s.cfg) (fun u u' hstep hu => ?_) rfl
  obtain ⟨k, -, rfl⟩ := scanStep_eq_some.1 hstep
  rw [handleCandidate_cfg, hu]

theorem evict_cfg (s : State) : (evict s).cfg = s.cfg := by
  unfold evict
  split <;> rfl

theorem feedByte_cfg (b : Byte) (s : State) : (feedByte b s).cfg = s.cfg := by
  rw [feedByte, scan_cfg]
  exact evict_cfg s

/-! ### One instruction -/

theorem answer_cfg (s : State) (r : Except StatusCode OpResult) : (s.answer r).cfg = s.cfg := by
  cases r <;> rfl

/-- A field row that answers a next state hands its codec result to the outcome port. -/
theorem applyDescriptor_eq_next {k : KindCode} {d : DescBits} {op : FieldOp} {s t : State}
    (h : applyDescriptor k d op s = .next t) : ∃ r, t = s.answer r := by
  unfold applyDescriptor at h
  cases hd : descOf s.cfg.enumSets k d with
  | error c => simp [hd] at h
  | ok f =>
    cases op with
    | decode body o =>
      by_cases hfit : o + fieldWidth f ≤ 8 * body.length
      · exact ⟨_, by simpa [hd, applyField, hfit, eq_comm] using h⟩
      · simp [hd, applyField, hfit] at h
    | encode v => exact ⟨_, by simpa [hd, applyField, eq_comm] using h⟩

theorem applyDescriptor_cfg {k : KindCode} {d : DescBits} {op : FieldOp} {s t : State}
    (h : applyDescriptor k d op s = .next t) : t.cfg = s.cfg := by
  obtain ⟨r, rfl⟩ := applyDescriptor_eq_next h
  exact answer_cfg s r

theorem exec_cfg {i : Instr} {s t : State} (h : exec i s = .next t) : t.cfg = s.cfg := by
  cases i with
  | feedByte b => cases h; exact feedByte_cfg b s
  | getMsg =>
    simp only [exec, execGetMsg] at h
    split at h <;> cases h <;> rfl
  | sendCmd ty vals =>
    simp only [exec, execSendCmd] at h
    split at h
    · cases h; rfl
    · split at h <;> cases h <;> rfl
  | waitAck =>
    simp only [exec, execWaitAck] at h
    split at h
    · split at h <;> cases h <;> rfl
    · cases h; rfl
  | abandon => cases h; rfl
  | decodeMsg ty body =>
    simp only [exec, execDecodeMsg] at h
    split at h
    · cases h; rfl
    · split at h
      · cases h; rfl
      · split at h <;> cases h <;> rfl
  | encodeMsg ty vals =>
    simp only [exec, execEncodeMsg] at h
    split at h <;> cases h <;> rfl
  | csrRead c =>
    simp only [exec, execCsrRead] at h
    split at h <;> cases h <;> rfl
  | frameAck body => cases h; rfl
  | frameNack body => cases h; rfl
  | frameMeasTime body => cases h; exact decodeAndDeliver_cfg _ body s
  | frameRegistered ty body => cases h; exact decodeAndDeliver_cfg ty body s
  | frameUnknown ty body => cases h; rfl
  | fieldUint d op | fieldSint d op | fieldF32 d op | fieldF64 d op | fieldBlob d op
  | fieldEnum d op | fieldFlags d op | fieldFixu d op | fieldFixs d op =>
    exact applyDescriptor_cfg h

/-! ### One step -/

theorem completeOp_cfg (a : Agent) (s : State) : (completeOp a s).cfg = s.cfg := by
  obtain ⟨hcfg, -⟩ := completeOp_sameBlock a s
  exact hcfg

theorem continueWait_cfg (a : Agent) (s : State) : (continueWait a s).cfg = s.cfg := by
  unfold continueWait
  split
  · rfl
  · exact completeOp_cfg a s

theorem runCommand_cfg {a : Agent} {w : CommandWord} {vals : List FieldValue} {body : List Byte}
    {s t : State} (h : runCommand a w vals body s = .next t) : t.cfg = s.cfg := by
  unfold runCommand at h
  split at h
  · cases h; simp [completeOp_cfg]
  · obtain ⟨u, hexec, rfl⟩ := settle_eq_next.1 h
    rw [completeOp_cfg, exec_cfg hexec]

theorem runSendAndWait_cfg {a : Agent} {ty : Byte} {vals : List FieldValue} {s t : State}
    (h : runSendAndWait a ty vals s = .next t) : t.cfg = s.cfg := by
  unfold runSendAndWait at h
  split at h
  next u hexec => cases h; rw [continueWait_cfg, exec_cfg hexec]
  next => cases h
  next => cases h

theorem runRequest_cfg {a : Agent} {r : Request} {s t : State}
    (h : runRequest a r s = .next t) : t.cfg = s.cfg := by
  cases r with
  | command w vals body => exact runCommand_cfg h
  | sendAndWait ty vals => exact runSendAndWait_cfg h
  | reset => cases h; rfl

theorem agentStep_cfg {a : Agent} {s t : State} (h : agentStep a s = .next t) :
    t.cfg = s.cfg := by
  unfold agentStep at h
  split at h
  · cases h; rfl
  · exact runRequest_cfg h

/-- No step writes the configuration (10_state.md R38). -/
theorem step_cfg {s t : State} (h : step s = .next t) : t.cfg = s.cfg := by
  obtain ⟨d, ds, -, hs⟩ | ⟨-, -, hs⟩ | ⟨a, rest, -, -, hs⟩ := step_cases s <;> rw [hs] at h
  · cases h
  · cases h; rfl
  · rw [agentStep_cfg h]

end Sys2Proof.Machine
end

section
/-! PROOFS. The statements about the register space (10_state.md R42 to R50). -/

namespace Sys2Proof.Machine

/-- Settles O23, from the fields of the packed word; the queue of the reset state is empty and, under a
legal configuration, not full. -/
theorem statusRegisterFields : Obligations.StatusRegisterFields := by
  unfold Obligations.StatusRegisterFields
  refine ⟨fun s => ?_, fun c hc => congrArg some (statusCsr_resetWith hc), fun s => ?_⟩
  · obtain ⟨hpending, hvalid, hkind, hechoValid, hempty, hfull⟩ := statusCsr_bits s
    obtain ⟨hlow, hecho, hhigh, htype⟩ := statusCsr_fields s
    refine ⟨statusCsr s, rfl, hpending, hvalid, ?_, hechoValid, hlow, hecho, ?_, ?_, hhigh, htype⟩
    · rw [hkind, kindBit_iff]
    · rw [hempty, rxqEmpty_iff, List.length_eq_zero_iff]
    · rw [hfull, rxqFull_iff]
  · exact ⟨msgAvail_iff s, rxqEmpty_iff s, rxqFull_iff s, rfl⟩

/-- Settles O24: no step writes the configuration, and the capacities of a legal one bound both
levels. -/
theorem everyRegisterShowsItsElement : Obligations.EveryRegisterShowsItsElement := by
  unfold Obligations.EveryRegisterShowsItsElement
  refine ⟨fun s => ⟨rfl, rfl, rfl, rfl, lastDropCsr s, rfl, lastDropCsr_fields s⟩,
    fun c => ⟨rfl, rfl, congrArg some (lastDropCsr_resetWith c)⟩, fun s s' h => ?_, fun s hs => ?_,
    fun s => ⟨rfl, rfl, rfl, rfl, rfl, rfl, rfl, rfl, rfl, rfl, rfl, rfl, rfl⟩⟩
  · have hcfg := step_cfg h
    constructor
    · exact congrArg (fun c : Config => some (BitVec.ofNat 32 c.bufCap)) hcfg
    · exact congrArg (fun c : Config => some (BitVec.ofNat 32 c.rxqDepth)) hcfg
  · obtain ⟨⟨-, hcap⟩, -, hdepth⟩ := legal_capacities hs.legal
    simp only [BitVec.toNat_ofNat]
    exact ⟨Nat.mod_eq_of_lt (hs.bufBound.trans_lt hcap),
      Nat.mod_eq_of_lt (hs.rxqBound.trans_lt hdepth), Nat.mod_eq_of_lt hcap,
      Nat.mod_eq_of_lt hdepth⟩

end Sys2Proof.Machine
end

section
/-! SUPPORT. The search for a candidate: what `findPair` and `locate` find, in the terms of `LeastPair`
(40_reassembler.md R143 to R146). -/

namespace Sys2Proof.Machine

/-! ### The least index of a byte pair -/

/-- No pair stands in a string of fewer than two bytes. -/
theorem not_leastPair_of_length_lt {x y : Byte} {l : List Byte} {start i : Nat}
    (hlen : l.length < 2) : ¬ LeastPair x y l start i := by
  rintro ⟨-, hi, -⟩
  omega

/-- A pair stands first at the front of a string, or first in its tail where it is not at the
front. -/
theorem leastPair_cons_cons {x y a b : Byte} {rest : List Byte} {i : Nat} :
    LeastPair x y (a :: b :: rest) 0 i ↔
      ((a = x ∧ b = y) ∧ i = 0) ∨
      (¬(a = x ∧ b = y) ∧ ∃ j, LeastPair x y (b :: rest) 0 j ∧ j + 1 = i) := by
  constructor
  · rintro ⟨-, hi, hx, hy, hmin⟩
    obtain - | i := i
    · exact .inl ⟨⟨hx, hy⟩, rfl⟩
    · refine .inr ⟨hmin 0 (Nat.zero_le 0) i.succ_pos, i, ⟨Nat.zero_le i, ?_, hx, hy, ?_⟩, rfl⟩
      · simpa using hi
      · exact fun j _ hj => hmin (j + 1) (Nat.zero_le _) (Nat.succ_lt_succ hj)
  · rintro (⟨⟨hx, hy⟩, rfl⟩ | ⟨hfront, j, ⟨-, hj, hx, hy, hmin⟩, rfl⟩)
    · exact ⟨Nat.le_refl 0, by simp, hx, hy, fun j _ hj => absurd hj (Nat.not_lt_zero j)⟩
    · refine ⟨Nat.zero_le _, by simpa using hj, hx, hy, fun m _ hm => ?_⟩
      obtain - | m := m
      · exact hfront
      · exact hmin m (Nat.zero_le m) (Nat.lt_of_succ_lt_succ hm)

/-- The pairs of a string from index `n` on are those of the string without its first `n` bytes. -/
theorem leastPair_drop {x y : Byte} {l : List Byte} {n i : Nat} :
    LeastPair x y (l.drop n) 0 i ↔ LeastPair x y l n (n + i) := by
  have shift (j : Nat) : (l.drop n).getD j 0 = l.getD (n + j) 0 := by
    simp [List.getD_eq_getElem?_getD]
  simp only [LeastPair, shift, List.length_drop]
  constructor
  · rintro ⟨-, hi, hx, hy, hmin⟩
    refine ⟨by omega, by omega, hx, hy, fun j hn hj => ?_⟩
    obtain ⟨m, rfl⟩ := Nat.exists_eq_add_of_le hn
    exact hmin m (Nat.zero_le m) (by omega)
  · rintro ⟨-, hi, hx, hy, hmin⟩
    exact ⟨Nat.zero_le i, by omega, hx, hy, fun j _ hj => hmin (n + j) (by omega) (by omega)⟩

theorem findPair_eq_some {x y : Byte} {l : List Byte} {i : Nat} :
    findPair x y l = some i ↔ LeastPair x y l 0 i := by
  induction l generalizing i with
  | nil => simp [findPair, not_leastPair_of_length_lt]
  | cons a l ih =>
    cases l with
    | nil => simp [findPair, not_leastPair_of_length_lt]
    | cons b rest =>
      rw [leastPair_cons_cons, findPair]
      by_cases hfront : a = x ∧ b = y
      · simp [hfront, eq_comm]
      · simp [hfront, ih]

/-! ### The two searches of the scan -/

/-- The preamble search finds the first `A0 A1` of the whole buffer (R144). -/
theorem findPreamble_eq_some {buf : List Byte} {p : Nat} :
    findPreamble buf = some p ↔ LeastPair 0xA0 0xA1 buf 0 p :=
  findPair_eq_some

/-- The trailer search finds the first `0D 0A` at or after its start (R146). -/
theorem findTrailer_eq_some {buf : List Byte} {start t : Nat} :
    findTrailer buf start = some t ↔ LeastPair 0x0D 0x0A buf start t := by
  simp only [findTrailer, Option.map_eq_some_iff, findPair_eq_some, leastPair_drop]
  constructor
  · rintro ⟨i, hi, rfl⟩
    exact hi
  · intro ht
    obtain ⟨i, rfl⟩ := Nat.exists_eq_add_of_le ht.1
    exact ⟨i, ht, rfl⟩

/-- The scan finds the candidate that its four tests describe, and no other (R143 to R146). -/
theorem locate_eq_some {buf : List Byte} {k : Candidate} :
    locate buf = some k ↔
      8 ≤ buf.length ∧ LeastPair 0xA0 0xA1 buf 0 k.p ∧ k.p + 4 ≤ buf.length ∧
      k.len = lengthAt buf k.p ∧ LeastPair 0x0D 0x0A buf (k.p + 5 + k.len) k.t := by
  obtain ⟨p, len, t⟩ := k
  simp only [← findPreamble_eq_some, ← findTrailer_eq_some]
  constructor
  · intro h
    unfold locate at h
    split at h
    · cases h
    next hlen =>
      split at h
      · cases h
      next p hp =>
        split at h
        · cases h
        next hfield =>
          split at h
          · cases h
          next t ht =>
            cases h
            exact ⟨Nat.le_of_not_lt hlen, hp, Nat.le_of_not_lt hfield, rfl, ht⟩
  · rintro ⟨hlen, hp, hfield, rfl, ht⟩
    simp [locate, hlen.not_gt, hp, hfield.not_gt, ht]

/-- A candidate is at least 7 bytes long and lies in the buffer (R147). -/
theorem locate_bounds {buf : List Byte} {k : Candidate} (h : locate buf = some k) :
    7 ≤ k.t + 2 ∧ k.t + 2 ≤ buf.length := by
  obtain ⟨-, -, -, -, hstart, hend, -⟩ := locate_eq_some.1 h
  omega

end Sys2Proof.Machine
end

section
/-! SUPPORT. The dispatch of a frame, row by row: which row a type byte selects, and what that row does
(30_encoding.md R108, 40_reassembler.md R151 to R155). -/

namespace Sys2Proof.Machine

/-! ### The type-byte map (30_encoding.md R108) -/

theorem decodeFrame_ack (c : Config) (body : List Byte) :
    decodeFrame c ackId body = .frameAck body := rfl

theorem decodeFrame_nack (c : Config) (body : List Byte) :
    decodeFrame c nackId body = .frameNack body := rfl

theorem decodeFrame_registered {c : Config} {t : Byte} (body : List Byte) (ha : t ≠ ackId)
    (hn : t ≠ nackId) (hm : t ≠ measTimeId) (hlay : inLayout c t ≠ none) :
    decodeFrame c t body = .frameRegistered t body := by
  simp [decodeFrame, frameRow, ha, hn, hm, Option.isSome_iff_ne_none.2 hlay]

/-- The row of a type byte is what the scan dispatches to, so a statement about `dispatchFrame` is one
about the decoded instruction (log 6). -/
theorem exec_decodeFrame (t : Byte) (body : List Byte) (s : State) :
    exec (decodeFrame s.cfg t body) s = .next (dispatchFrame t body s) := by
  unfold decodeFrame dispatchFrame
  cases frameRow s.cfg t <;> rfl

theorem exec_frameRegistered (t : Byte) (body : List Byte) (s : State) :
    exec (.frameRegistered t body) s = .next (decodeAndDeliver t body s) := rfl

/-! ### The inbound look-up and the decode (41_registry.md R205, 42_codec.md R242) -/

/-- A type has no inbound layout where its slot is EMPTY or holds an outbound layout only. -/
theorem inLayout_eq_none {c : Config} {t : Byte} :
    inLayout c t = none ↔
      findEntry c.registry t = none ∨
        ∃ e, findEntry c.registry t = some e ∧ e.inLayout = none := by
  unfold inLayout
  cases findEntry c.registry t <;> simp

theorem decodeIn_eq_ok {c : Config} {t : Byte} {body : List Byte} {m : MsgValue} :
    decodeIn c t body = .ok m ↔
      ∃ lay, inLayout c t = some lay ∧ decodeLayout t lay body = .ok m := by
  unfold decodeIn
  cases inLayout c t <;> simp

/-- Behind a type that has an inbound layout, the decode fails exactly where the layout's does. -/
theorem decodeIn_eq_error {c : Config} {t : Byte} {body : List Byte} {e : StatusCode}
    (hlay : inLayout c t ≠ none) :
    decodeIn c t body = .error e ↔
      ∃ lay, inLayout c t = some lay ∧ decodeLayout t lay body = .error e := by
  obtain ⟨lay, hl⟩ := Option.ne_none_iff_exists'.1 hlay
  simp [decodeIn, hl]

/-- A decoded message carries the type it was decoded for (42_codec.md R240). -/
theorem decodeLayout_type {t : Byte} {lay : Layout} {body : List Byte} {m : MsgValue}
    (h : decodeLayout t lay body = .ok m) : m.type = t := by
  cases lay with
  | fixed fields bits =>
    obtain ⟨-, vals, o, -, rfl⟩ := decodeLayout_fixed_ok.1 h
    rfl
  | array header headerBits countIdx sub subBits =>
    obtain ⟨-, -, hv, o, items, -, -, -, rfl⟩ := decodeArray_ok.1 h
    rfl

/-! ### The codes a decode can fail with (42_codec.md R243, R250, R254) -/

/-- Of all the field kinds only an ENUM can fail to decode (R250). -/
theorem fieldDecode_error {f : FieldDesc} {body : List Byte} {o : Nat} {e : StatusCode}
    (h : fieldDecode f body o = .error e) : e = .eDecEnum := by
  unfold fieldDecode at h
  cases hk : f.kind with
  | enum set =>
    simp only [hk, decodeEnum] at h
    split at h <;> cases h
    rfl
  | _ => simp [hk] at h

theorem unpackFields_error {fs : List FieldDesc} {body : List Byte} {o : Nat} {e : StatusCode}
    (h : unpackFields fs body o = .error e) : e = .eDecEnum := by
  obtain ⟨i, f, -, hf, -⟩ := unpackFields_error_iff.1 h
  exact fieldDecode_error hf

theorem unpackItems_error_code {sub : List FieldDesc} {body : List Byte} {n o : Nat}
    {e : StatusCode} (h : unpackItems sub body n o = .error e) : e = .eDecEnum := by
  induction n generalizing o with
  | zero => cases h
  | succ n ih =>
    simp only [unpackItems] at h
    split at h
    next he => cases h; exact unpackFields_error he
    next =>
      split at h
      next he => cases h; exact ih he
      next => cases h

theorem decodeArray_error {t : Byte} {header : List FieldDesc} {headerBits countIdx : Nat}
    {sub : List FieldDesc} {subBits : Nat} {body : List Byte} {e : StatusCode}
    (h : decodeArray t header headerBits countIdx sub subBits body = .error e) :
    e ∈ [StatusCode.eDecLength, .eDecEnum, .eDecCount] := by
  unfold decodeArray at h
  split at h
  · cases h; decide
  · split at h
    · cases h; decide
    · split at h
      next he => cases h; rw [unpackFields_error he]; decide
      next =>
        split at h
        · split at h
          next he => cases h; rw [unpackItems_error_code he]; decide
          next => cases h
        · cases h; decide

theorem decodeLayout_error {t : Byte} {lay : Layout} {body : List Byte} {e : StatusCode}
    (h : decodeLayout t lay body = .error e) :
    e ∈ [StatusCode.eDecLength, .eDecEnum, .eDecCount] := by
  cases lay with
  | fixed fields bits =>
    simp only [decodeLayout] at h
    split at h
    · split at h
      next he => cases h; rw [unpackFields_error he]; decide
      next => cases h
    · cases h; decide
  | array header headerBits countIdx sub subBits => exact decodeArray_error h

/-! ### Decode and delivery (40_reassembler.md R153 to R155) -/

theorem decodeAndDeliver_of_unknown {t : Byte} {body : List Byte} {s : State}
    (hlay : inLayout s.cfg t = none) : decodeAndDeliver t body s = rejectUnknown t s := by
  simp [decodeAndDeliver, hlay]

theorem decodeAndDeliver_of_ok {t : Byte} {body : List Byte} {s : State} {m : MsgValue}
    (h : decodeIn s.cfg t body = .ok m) : decodeAndDeliver t body s = deliver t m s := by
  obtain ⟨lay, hl, hd⟩ := decodeIn_eq_ok.1 h
  simp [decodeAndDeliver, hl, hd]

theorem decodeAndDeliver_of_error {t : Byte} {body : List Byte} {s : State} {e : StatusCode}
    (hlay : inLayout s.cfg t ≠ none) (h : decodeIn s.cfg t body = .error e) :
    decodeAndDeliver t body s = rejectDecode t e s := by
  obtain ⟨lay, hl, hd⟩ := (decodeIn_eq_error hlay).1 h
  simp [decodeAndDeliver, hl, hd]

theorem deliver_of_full {s : State} (t : Byte) (v : MsgValue)
    (hfull : s.rxq.length = s.cfg.rxqDepth) :
    deliver t v s = (s.bump .rxqDrop).drop .eRxqFull t true :=
  if_pos hfull

theorem deliver_of_not_full {s : State} (t : Byte) (v : MsgValue)
    (hroom : s.rxq.length ≠ s.cfg.rxqDepth) :
    deliver t v s = (s.enqueue v).bump .delivered :=
  if_neg hroom

/-- The dispatch of a type that is neither ACK nor NACK is a decode and delivery, whichever of the
three remaining rows it selects. -/
theorem dispatchFrame_of_ne {t : Byte} (body : List Byte) (s : State) (ha : t ≠ ackId)
    (hn : t ≠ nackId) : dispatchFrame t body s = decodeAndDeliver t body s := by
  obtain ⟨h, -⟩ | ⟨h, -⟩ | ⟨-, -, h⟩ := dispatchFrame_cases t body s
  · exact absurd h ha
  · exact absurd h hn
  · exact h

end Sys2Proof.Machine
end

section
/-! SUPPORT. The scan: what the handling of a candidate writes, that every consumed step shortens the
buffer, and that the fuelled scan is the loop of 40_reassembler.md R142; and FEED_BYTE before its scan
(R140, R141). -/

namespace Sys2Proof.Machine

/-! ### What the ingress path writes -/

/-- The dispatch of a frame writes the delivery queue, the latch, the drop record and the counters, and
nothing else. -/
theorem dispatchFrame_writes (t : Byte) (body : List Byte) (s : State) :
    ∃ rxq ack drop cnt, dispatchFrame t body s =
      { s with rxq := rxq, ack := ack, lastDrop := drop, cnt := cnt } := by
  obtain ⟨-, h⟩ | ⟨-, h⟩ | ⟨-, -, h⟩ := dispatchFrame_cases t body s <;> rw [h]
  · exact ⟨_, _, _, _, rfl⟩
  · exact ⟨_, _, _, _, rfl⟩
  · obtain ⟨-, h⟩ | ⟨-, e, -, -, h⟩ | ⟨-, v, -, -, -, h⟩ | ⟨-, v, -, -, -, h⟩ :=
      decodeAndDeliver_cases t body s <;> rw [h] <;> exact ⟨_, _, _, _, rfl⟩

/-- The handling of a candidate removes the bytes up to its end (R149), and besides writes what the
dispatch writes. -/
theorem handleCandidate_writes (k : Candidate) (s : State) :
    ∃ rxq ack drop cnt, handleCandidate k s =
      { s with buf := s.buf.drop (k.t + 2), rxq := rxq, ack := ack, lastDrop := drop, cnt := cnt } := by
  obtain ⟨-, h⟩ | ⟨-, -, h⟩ | ⟨t, body, -, -, h⟩ := handleCandidate_cases k s <;> rw [h]
  · exact ⟨_, _, _, _, rfl⟩
  · exact ⟨_, _, _, _, rfl⟩
  · obtain ⟨rxq, ack, drop, cnt, hd⟩ :=
      dispatchFrame_writes t body ((s.consume (k.t + 2)).bump .framesOk)
    exact ⟨rxq, ack, drop, cnt, hd⟩

theorem handleCandidate_buf (k : Candidate) (s : State) :
    (handleCandidate k s).buf = s.buf.drop (k.t + 2) := by
  obtain ⟨_, _, _, _, h⟩ := handleCandidate_writes k s
  rw [h]

theorem handleCandidate_cmd (k : Candidate) (s : State) : (handleCandidate k s).cmd = s.cmd := by
  obtain ⟨_, _, _, _, h⟩ := handleCandidate_writes k s
  rw [h]

theorem scan_cmd (s : State) : (scan s).cmd = s.cmd := by
  refine scan_induct (P := fun u => u.cmd = s.cmd) (fun u u' hstep hu => ?_) rfl
  obtain ⟨k, -, rfl⟩ := scanStep_eq_some.1 hstep
  rw [handleCandidate_cmd, hu]

/-! ### One scan step -/

theorem scanStep_of_locate {s : State} {k : Candidate} (h : locate s.buf = some k) :
    scanStep s = some (handleCandidate k s) :=
  scanStep_eq_some.2 ⟨k, h, rfl⟩

theorem handleCandidate_of_badSum {k : Candidate} {s : State} (h : candidateXor s.buf k ≠ 0) :
    handleCandidate k s = ((s.consume (k.t + 2)).bump .cksumErr).drop .eCksum 0 false :=
  if_neg h

theorem handleCandidate_of_goodSum {k : Candidate} {s : State} (h : candidateXor s.buf k = 0) :
    handleCandidate k s =
      dispatchPayload (candidatePayload s.buf k) ((s.consume (k.t + 2)).bump .framesOk) :=
  if_pos h

/-- A consumed step removes at least 7 bytes (R157): the loop ends because of it. -/
theorem scanStep_consumes {s s' : State} (h : scanStep s = some s') :
    ∃ n, 7 ≤ n ∧ n ≤ s.buf.length ∧ s'.buf = s.buf.drop n := by
  obtain ⟨k, hk, rfl⟩ := scanStep_eq_some.1 h
  obtain ⟨hmin, hmax⟩ := locate_bounds hk
  exact ⟨k.t + 2, hmin, hmax, handleCandidate_buf k s⟩

/-! ### The scan loop -/

/-- With one step of fuel for every 7 bytes, and one more, the loop ends in WAIT. -/
theorem scanRun_scanLoop {fuel : Nat} {s : State} (hfuel : s.buf.length / 7 < fuel) :
    ScanRun s (scanLoop fuel s) := by
  induction fuel generalizing s with
  | zero => exact absurd hfuel (Nat.not_lt_zero _)
  | succ fuel ih =>
    unfold scanLoop
    cases hs : scanStep s with
    | none => exact .wait hs
    | some s' =>
      obtain ⟨n, hmin, hmax, hbuf⟩ := scanStep_consumes hs
      have hshorter : s'.buf.length / 7 < fuel := by
        rw [hbuf, List.length_drop]
        omega
      exact .consumed hs (ih hshorter)

/-- The model's scan is the loop of R142. -/
theorem scanRun_scan (s : State) : ScanRun s (scan s) :=
  scanRun_scanLoop (Nat.lt_succ_self _)

theorem scan_buf_length_le (s : State) : (scan s).buf.length ≤ s.buf.length := by
  refine scan_induct (P := fun u => u.buf.length ≤ s.buf.length) (fun u u' hstep hu => ?_)
    (Nat.le_refl _)
  obtain ⟨n, -, -, hbuf⟩ := scanStep_consumes hstep
  rw [hbuf, List.length_drop]
  omega

/-! ### FEED_BYTE (R140, R141) -/

theorem evict_of_full {s : State} (h : s.buf.length = s.cfg.bufCap) :
    evict s = ({ s with buf := s.buf.drop 1 } : State).bump .evict :=
  if_pos h

theorem evict_of_not_full {s : State} (h : s.buf.length ≠ s.cfg.bufCap) : evict s = s :=
  if_neg h

/-- After the eviction there is room for the byte, so that the append keeps the buffer within its
capacity (10_state.md R31). -/
theorem evict_buf_length_lt {s : State} (hcap : 1 ≤ s.cfg.bufCap)
    (hbound : s.buf.length ≤ s.cfg.bufCap) : (evict s).buf.length < s.cfg.bufCap := by
  by_cases hfull : s.buf.length = s.cfg.bufCap
  · rw [evict_of_full hfull]
    simp
    omega
  · rw [evict_of_not_full hfull]
    omega

theorem evict_cmd (s : State) : (evict s).cmd = s.cmd := by
  unfold evict
  split <;> rfl

theorem feedByte_cmd (b : Byte) (s : State) : (feedByte b s).cmd = s.cmd := by
  rw [feedByte, scan_cmd]
  exact evict_cmd s

theorem feedByte_buf_length_le {b : Byte} {s : State} (hcap : 1 ≤ s.cfg.bufCap)
    (hbound : s.buf.length ≤ s.cfg.bufCap) : (feedByte b s).buf.length ≤ s.cfg.bufCap := by
  calc (feedByte b s).buf.length
      ≤ (appendByte b (evict s)).buf.length := scan_buf_length_le _
    _ = (evict s).buf.length + 1 := by simp [appendByte]
    _ ≤ s.cfg.bufCap := evict_buf_length_lt hcap hbound

/-! ### The command word of an operation (30_encoding.md R114) -/

theorem opField_commandWord (op : BitVec 4) (imm : Byte) : opField (commandWord op imm) = op := by
  simp (disch := decide) only [opField, commandWord, BitVec.extractLsb'_append_eq_of_le]
  simp

theorem zField_commandWord (op : BitVec 4) (imm : Byte) : zField (commandWord op imm) = 0 := by
  simp (disch := decide) only [zField, commandWord, BitVec.extractLsb'_append_eq_of_le,
    BitVec.extractLsb'_append_eq_of_add_le]
  simp

theorem immField_commandWord (op : BitVec 4) (imm : Byte) :
    immField (commandWord op imm) = imm := by
  simp (disch := decide) only [immField, commandWord, BitVec.extractLsb'_append_eq_of_add_le]
  simp

/-- The number of a command word is `0x1000 * OP + IMM8`. -/
theorem ofNat_eq_commandWord (op : BitVec 4) (imm : Byte) :
    BitVec.ofNat 16 (0x1000 * op.toNat + imm.toNat) = commandWord op imm := by
  apply BitVec.eq_of_toNat_eq
  rw [Sys2Proof.Laws.commandWord_toNat, BitVec.toNat_ofNat]
  omega

theorem decodeCommand_feedByte (b : Byte) (vals : List FieldValue) (body : List Byte) :
    decodeCommand (commandWord 1 b) vals body = .ok (.feedByte b) := by
  simp [decodeCommand, opField_commandWord, zField_commandWord, immField_commandWord]

end Sys2Proof.Machine
end

section
/-! PROOFS. The statements about the Frame Reassembler: FEED_BYTE, the search for a candidate, and the
rows of the dispatch (40_reassembler.md R140 to R155). -/

namespace Sys2Proof.Machine

/-- Settles O27: FEED_BYTE is the scan of the state with the byte appended, and the scan is the spec's loop,
which never lengthens the buffer. -/
theorem feedByteEvictsAppendsAndScans : Obligations.FeedByteEvictsAppendsAndScans := by
  unfold Obligations.FeedByteEvictsAppendsAndScans
  refine ⟨fun b => ?_, fun s b hroom => ⟨feedByte b s, rfl, feedByte_cmd b s, ?_⟩,
    fun s b hfull => ⟨feedByte b s, rfl, feedByte_cmd b s, ?_⟩, fun s t b hcap hbound h => ?_⟩
  · rw [← decodeCommand_feedByte b [] [], ← ofNat_eq_commandWord]
    rfl
  · rw [feedByte, evict_of_not_full hroom]
    exact scanRun_scan _
  · rw [feedByte, evict_of_full hfull]
    exact scanRun_scan _
  · rw [exec_cfg h]
    cases h
    exact feedByte_buf_length_le hcap hbound

/-- Settles O29, from the characterisation of `locate` by its four tests. -/
theorem locateFindsTheFirstCandidate : Obligations.LocateFindsTheFirstCandidate := by
  unfold Obligations.LocateFindsTheFirstCandidate
  exact ⟨fun _ => scanStep_eq_none, fun _ _ => locate_eq_some⟩

/-- Settles O31, from the two dropping branches of the handling of a candidate. -/
theorem badCandidatesAreDropped : Obligations.BadCandidatesAreDropped := by
  unfold Obligations.BadCandidatesAreDropped
  constructor
  · intro s k hk hxor
    rw [scanStep_of_locate hk, handleCandidate_of_badSum hxor]
    rfl
  · intro s k hk hxor hempty
    rw [scanStep_of_locate hk, handleCandidate_of_goodSum hxor, hempty]
    rfl

/-- Settles O33: the two rows write the latch from the body alone. -/
theorem ackAndNackFramesAreLatched : Obligations.AckAndNackFramesAreLatched := by
  unfold Obligations.AckAndNackFramesAreLatched
  exact ⟨fun c body => ⟨decodeFrame_ack c body, decodeFrame_nack c body⟩,
    fun _ => rfl, fun _ _ _ => rfl, fun _ => rfl, fun _ _ _ => rfl⟩

/-- Settles O34. Type 0xDC has a row of its own, which looks its layout up as every other type does. -/
theorem unknownFramesAreDropped : Obligations.UnknownFramesAreDropped := by
  unfold Obligations.UnknownFramesAreDropped
  refine ⟨fun s t body ha hn hlay => ?_, fun _ _ _ => rfl, fun _ _ => inLayout_eq_none⟩
  rw [exec_decodeFrame, dispatchFrame_of_ne body s ha hn, decodeAndDeliver_of_unknown hlay]
  rfl

/-- Settles O35, from the outcomes of the decode and of the delivery. -/
theorem registeredFramesAreDecodedAndDelivered :
    Obligations.RegisteredFramesAreDecodedAndDelivered := by
  unfold Obligations.RegisteredFramesAreDecodedAndDelivered
  refine ⟨fun c t body ha hn hm hlay => decodeFrame_registered body ha hn hm hlay,
    fun s body => rfl, fun c t body m h => ?_, fun s t body m _ h hroom => ?_,
    fun s t body m _ h hfull => ?_, fun s t body e hlay h => ⟨?_, ?_⟩⟩
  · obtain ⟨lay, -, hd⟩ := decodeIn_eq_ok.1 h
    exact decodeLayout_type hd
  · rw [exec_frameRegistered, decodeAndDeliver_of_ok h, deliver_of_not_full t m hroom]
    rfl
  · rw [exec_frameRegistered, decodeAndDeliver_of_ok h, deliver_of_full t m hfull]
    rfl
  · obtain ⟨lay, -, hd⟩ := (decodeIn_eq_error hlay).1 h
    exact decodeLayout_error hd
  · rw [exec_frameRegistered, decodeAndDeliver_of_error hlay h]
    rfl

end Sys2Proof.Machine
end

section
/-! SUPPORT. The inbound layouts of a legal configuration passed every check (41_registry.md R207 to
R213). -/

namespace Sys2Proof.Machine

theorem errorUnless_eq_nil {ok : Bool} {t : Byte} {part : Option LayoutPart} {field : Option Nat}
    {c : CheckCode} : errorUnless ok t part field c = [] ↔ ok = true := by
  cases ok <;> simp [errorUnless]

theorem legal_registryErrors {c : Config} (h : Legal c) : registryErrors c.registry = [] := by
  simp only [Legal, configDefects, List.append_eq_nil_iff] at h
  obtain ⟨⟨-, hreg⟩, -⟩ := h
  exact List.map_eq_nil_iff.1 hreg

/-- A registry without a defect has none in any slot. -/
theorem entryErrors_of_findEntry {reg : List (Byte × Entry)} {t : Byte} {e : Entry}
    (hreg : registryErrors reg = []) (h : findEntry reg t = some e) : entryErrors t e = [] := by
  induction reg with
  | nil => simp [findEntry] at h
  | cons slot rest ih =>
    obtain ⟨t', e'⟩ := slot
    obtain ⟨hslot, hrest⟩ := List.append_eq_nil_iff.1 hreg
    rw [findEntry] at h
    split at h
    next ht =>
      cases h
      exact ht ▸ hslot
    next => exact ih hrest h

theorem layoutErrors_of_inLayout {c : Config} {t : Byte} {lay : Layout} (hc : Legal c)
    (h : inLayout c t = some lay) : layoutErrors t .inbound lay = [] := by
  unfold inLayout at h
  split at h
  next => cases h
  next e he =>
    have hentry := entryErrors_of_findEntry (legal_registryErrors hc) he
    simp only [entryErrors, h, directionErrors, List.append_eq_nil_iff] at hentry
    obtain ⟨⟨-, hin⟩, -⟩ := hentry
    exact hin

/-- Check I1 on the two field lists of an ARRAY layout (R207). -/
theorem layoutErrors_array_widths {t : Byte} {part : LayoutPart} {header sub : List FieldDesc}
    {headerBits countIdx subBits : Nat}
    (h : layoutErrors t part (.array header headerBits countIdx sub subBits) = []) :
    widthSum header = headerBits ∧ widthSum sub = subBits := by
  simp only [layoutErrors, List.append_eq_nil_iff, errorUnless_eq_nil, beq_iff_eq] at h
  obtain ⟨⟨⟨⟨⟨-, hheader⟩, hsub⟩, -⟩, -⟩, -⟩ := h
  exact ⟨hheader, hsub⟩

end Sys2Proof.Machine
end

section
/-! SUPPORT. Why a decode fails: under each form of layout, the tests in their order and the code that
each gives (42_codec.md R243, R254, R255). -/

namespace Sys2Proof.Machine

theorem decodeIn_of_inLayout {c : Config} {t : Byte} {lay : Layout} (body : List Byte)
    (h : inLayout c t = some lay) : decodeIn c t body = decodeLayout t lay body := by
  simp [decodeIn, h]

theorem countOf_of_uint {hv : List FieldValue} {idx w : Nat} {n : Int}
    (h : hv[idx]? = some (.u w n)) : countOf hv idx = some n := by
  simp [countOf, h]

/-- A FIXED layout tests the length, then reads the fields (R243). -/
theorem decodeLayout_fixed_error_iff {t : Byte} {fields : List FieldDesc} {bits : Nat}
    {body : List Byte} {e : StatusCode} :
    decodeLayout t (.fixed fields bits) body = .error e ↔
      (8 * body.length ≠ bits ∧ e = .eDecLength) ∨
        (8 * body.length = bits ∧ FirstReadFailure fields body 0 e) := by
  rw [← unpackFields_error_iff, decodeLayout]
  by_cases hlen : 8 * body.length = bits
  · cases unpackFields fields body 0 <;> simp [hlen]
  · simp [hlen, eq_comm]

/-- An ARRAY layout makes its two length tests first (R254). -/
theorem decodeArray_of_bad_length {t : Byte} {header : List FieldDesc} {headerBits countIdx : Nat}
    {sub : List FieldDesc} {subBits : Nat} {body : List Byte}
    (hbad : 8 * body.length < headerBits ∨ (8 * body.length - headerBits) % subBits ≠ 0) :
    decodeArray t header headerBits countIdx sub subBits body = .error .eDecLength := by
  rw [decodeArray]
  by_cases hshort : 8 * body.length < headerBits
  · rw [if_pos hshort]
  · rw [if_neg hshort, if_pos (hbad.resolve_left hshort)]

/-- Behind the length tests an ARRAY layout reads the header, then compares the count, then reads the
items (R254, R255). -/
theorem decodeArray_error_iff {t : Byte} {header : List FieldDesc} {headerBits countIdx : Nat}
    {sub : List FieldDesc} {subBits : Nat} {body : List Byte} {e : StatusCode} {n : Nat}
    (hgood : ¬ (8 * body.length < headerBits ∨ (8 * body.length - headerBits) % subBits ≠ 0))
    (hn : (8 * body.length - headerBits) / subBits = n) :
    decodeArray t header headerBits countIdx sub subBits body = .error e ↔
      FirstReadFailure header body 0 e ∨
        ∃ hv o, unpackFields header body 0 = .ok (hv, o) ∧
          ((countOf hv countIdx ≠ some (n : Int) ∧ e = .eDecCount) ∨
            (countOf hv countIdx = some (n : Int) ∧ unpackItems sub body n o = .error e)) := by
  obtain ⟨hshort, hrem⟩ := not_or.1 hgood
  rw [← unpackFields_error_iff, decodeArray, if_neg hshort, if_neg hrem, hn]
  cases unpackFields header body 0 with
  | error e' => simp
  | ok r =>
    obtain ⟨hv, o⟩ := r
    by_cases hcount : countOf hv countIdx = some (n : Int)
    · cases hitems : unpackItems sub body n o <;> simp [hcount, hitems]
    · simp [hcount, eq_comm (b := e)]

end Sys2Proof.Machine
end

section
/-! PROOFS. The statement about the codes of a decode (42_codec.md R243, R255). -/

namespace Sys2Proof.Machine

/-- Settles O47, from the order of the tests under each form of layout. Legality enters once:
a declared width is the sum of the fields' (check I1), so the items begin where the header's read ends. -/
theorem bodyLengthAndCountAreChecked : Obligations.BodyLengthAndCountAreChecked := by
  unfold Obligations.BodyLengthAndCountAreChecked
  refine ⟨fun c t fields bits body hlay => ?fixedLength,
    fun c t header sub hb ci sb body hlay => ?arrayTests,
    fun c t fields bits body e hlay hlen hfail => ?fixedFields,
    fun c t header sub hb ci sb body hc hlay hlen hrem => ?arrayFields,
    fun f body o e h => fieldDecode_error h⟩
  case fixedLength =>
    rw [decodeIn_of_inLayout body hlay]
    refine ⟨fun hne => decodeLayout_fixed_error_iff.2 (.inl ⟨hne, rfl⟩), fun hlen herr => ?_⟩
    obtain ⟨hne, -⟩ | ⟨-, hfail⟩ := decodeLayout_fixed_error_iff.1 herr
    · exact hne hlen
    · cases unpackFields_error (unpackFields_error_iff.2 hfail)
  case arrayTests =>
    rw [decodeIn_of_inLayout body hlay, decodeLayout]
    refine ⟨decodeArray_of_bad_length, fun hv o hgood hread hcount =>
      (decodeArray_error_iff hgood rfl).2 (.inr ⟨hv, o, hread, .inl ⟨hcount, rfl⟩⟩),
      fun m hm => ?_⟩
    obtain ⟨-, -, hv, o, items, -, hcount, hitems, rfl⟩ := decodeArray_ok.1 hm
    obtain ⟨hn, -⟩ := unpackItems_ok_iff.1 hitems
    exact ⟨items, rfl, hn, hn ▸ hcount⟩
  case fixedFields =>
    rw [decodeIn_of_inLayout body hlay]
    exact decodeLayout_fixed_error_iff.2 (.inr ⟨hlen, hfail⟩)
  case arrayFields =>
    have hgood : ¬ (8 * body.length < hb ∨ (8 * body.length - hb) % sb ≠ 0) := by omega
    obtain ⟨rfl, rfl⟩ := layoutErrors_array_widths (layoutErrors_of_inLayout hc hlay)
    rw [decodeIn_of_inLayout body hlay, decodeLayout]
    refine ⟨fun e hfail => (decodeArray_error_iff hgood rfl).2 (.inl hfail),
      fun hv w n hread hn => ?_⟩
    have hheader : unpackFields header body 0 = .ok (hv, widthSum header) :=
      unpackFields_ok_iff.2 ⟨hread, (Nat.zero_add _).symm⟩
    have hcount := countOf_of_uint hn
    refine ⟨fun hne => ?countDiffers, fun heq j e hj hbefore hfail => ?itemFails⟩
    case countDiffers =>
      have hne' := fun h => hne (Option.some.inj (hcount.symm.trans h))
      exact (decodeArray_error_iff hgood rfl).2 (.inr ⟨hv, _, hheader, .inl ⟨hne', rfl⟩⟩)
    case itemFails =>
      have hitems := unpackItems_error hj hbefore hfail
      exact (decodeArray_error_iff hgood rfl).2
        (.inr ⟨hv, _, hheader, .inr ⟨hcount.trans (congrArg some heq), hitems⟩⟩)

end Sys2Proof.Machine
end

section
/-! SUPPORT. The host operations: the command word of each, its outcomes one by one in the order of its
tests (43_host_ops.md R303 to R308, 60_exceptions.md R356), and the two types that no registry holds
(41_registry.md R211). -/

namespace Sys2Proof.Machine

/-! ### The command words (30_encoding.md R114, R115) -/

/-- The decoder reads back the word and the record of every host operation. -/
theorem decodeCommand_of_encode {i : Instr} {w : CommandWord} {vals : List FieldValue}
    {body : List Byte} (h : encode i = .command w vals body) :
    decodeCommand w vals body = .ok i := by
  cases i with
  | feedByte | sendCmd | decodeMsg | encodeMsg | csrRead | getMsg | waitAck | abandon =>
    cases h
    simp [decodeCommand, noImm, opField_commandWord, zField_commandWord, immField_commandWord]
  | _ => cases h

/-- The same for a command word given as the number `0x1000 * OP + IMM8`. -/
theorem decodeCommand_ofNat {i : Instr} (op : BitVec 4) {imm : Byte} {vals : List FieldValue}
    {body : List Byte} (h : encode i = .command (commandWord op imm) vals body) :
    decodeCommand (BitVec.ofNat 16 (0x1000 * op.toNat + imm.toNat)) vals body = .ok i := by
  rw [ofNat_eq_commandWord]
  exact decodeCommand_of_encode h

/-! ### SEND_CMD (R303) -/

theorem exec_sendCmd_of_pending {s : State} (t : Byte) (vals : List FieldValue)
    (hbusy : s.cmd.pending = true) : exec (.sendCmd t vals) s = .next (s.hostError .eBusy) :=
  if_pos hbusy

theorem exec_sendCmd_of_error {s : State} {t : Byte} {vals : List FieldValue} {e : StatusCode}
    (hidle : s.cmd.pending = false) (h : encodeOut s.cfg t vals = .error e) :
    exec (.sendCmd t vals) s = .next (s.hostError e) := by
  simp [exec, execSendCmd, hidle, h]

theorem exec_sendCmd_of_ok {s : State} {t : Byte} {vals : List FieldValue} {body : List Byte}
    (hidle : s.cmd.pending = false) (h : encodeOut s.cfg t vals = .ok body) :
    exec (.sendCmd t vals) s = .next ((sendFrame t body s).respond .unit) := by
  simp [exec, execSendCmd, hidle, h]

/-! ### DECODE (R306) -/

theorem exec_decodeMsg_of_unknown {s : State} {t : Byte} (body : List Byte)
    (hlay : inLayout s.cfg t = none) :
    exec (.decodeMsg t body) s = .next (s.hostError .eUnknownType) := by
  simp [exec, execDecodeMsg, hlay]

theorem exec_decodeMsg_of_long {s : State} {t : Byte} {body : List Byte}
    (hlay : inLayout s.cfg t ≠ none) (hlong : maxBody < body.length) :
    exec (.decodeMsg t body) s = .next (s.hostError .eDecLength) := by
  obtain ⟨lay, hl⟩ := Option.ne_none_iff_exists'.1 hlay
  simp [exec, execDecodeMsg, hl, hlong]

theorem exec_decodeMsg_of_error {s : State} {t : Byte} {body : List Byte} {e : StatusCode}
    (hlay : inLayout s.cfg t ≠ none) (hlen : body.length ≤ maxBody)
    (h : decodeIn s.cfg t body = .error e) :
    exec (.decodeMsg t body) s = .next (s.hostError e) := by
  obtain ⟨lay, hl, hd⟩ := (decodeIn_eq_error hlay).1 h
  simp [exec, execDecodeMsg, hl, hlen.not_gt, hd]

/-- A body that decodes has a type with an inbound layout, so only its length is a condition. -/
theorem exec_decodeMsg_of_ok {s : State} {t : Byte} {body : List Byte} {m : MsgValue}
    (hlen : body.length ≤ maxBody) (h : decodeIn s.cfg t body = .ok m) :
    exec (.decodeMsg t body) s = .next (s.respond (.msg m)) := by
  obtain ⟨lay, hl, hd⟩ := decodeIn_eq_ok.1 h
  simp [exec, execDecodeMsg, hl, hlen.not_gt, hd]

/-! ### ENCODE (R307) -/

theorem exec_encodeMsg_of_error {s : State} {t : Byte} {vals : List FieldValue} {e : StatusCode}
    (h : encodeOut s.cfg t vals = .error e) :
    exec (.encodeMsg t vals) s = .next (s.hostError e) := by
  simp [exec, execEncodeMsg, h]

theorem exec_encodeMsg_of_ok {s : State} {t : Byte} {vals : List FieldValue} {body : List Byte}
    (h : encodeOut s.cfg t vals = .ok body) :
    exec (.encodeMsg t vals) s = .next (s.respond (.body body)) := by
  simp [exec, execEncodeMsg, h]

/-! ### CSR_READ (R308) -/

/-- The counters stand at 0x10 to 0x1C (10_state.md R50). -/
theorem counterAt_eq_none {n : Nat} : counterAt n = none ↔ n < 0x10 ∨ 0x1C < n := by
  unfold counterAt
  split
  case h_14 => -- the default arm: `n` is none of the thirteen indices
    simp only [imp_false, true_iff] at *
    omega
  all_goals simp

/-- The unmapped indices (10_state.md R51): behind the six registers, and behind the counters. -/
theorem csrValue_eq_none {s : State} {i : Byte} :
    csrValue s i = none ↔ (0x06 ≤ i.toNat ∧ i.toNat ≤ 0x0F) ∨ 0x1D ≤ i.toNat := by
  unfold csrValue
  split
  case h_7 => -- the default arm: a counter, or nothing
    simp only [imp_false, Option.map_eq_none_iff, counterAt_eq_none] at *
    omega
  all_goals simp [*]

theorem exec_csrRead_of_unmapped {s : State} {i : Byte} (h : csrValue s i = none) :
    exec (.csrRead i) s = .next (s.hostError .eCsrAddr) := by
  simp [exec, execCsrRead, h]

theorem exec_csrRead_of_mapped {s : State} {i : Byte} {v : Word} (h : csrValue s i = some v) :
    exec (.csrRead i) s = .next (s.respond (.csr v)) := by
  simp [exec, execCsrRead, h]

/-! ### The types ACK and NACK have no entry (41_registry.md R211) -/

/-- Check I5 keeps both type bytes out of a legal registry. -/
theorem findEntry_ack_nack {c : Config} {t : Byte} (hc : Legal c) (ht : t = ackId ∨ t = nackId) :
    findEntry c.registry t = none := by
  by_contra hsome
  obtain ⟨e, he⟩ := Option.ne_none_iff_exists'.1 hsome
  have hentry := entryErrors_of_findEntry (legal_registryErrors hc) he
  simp only [entryErrors, List.append_eq_nil_iff, errorUnless_eq_nil, Bool.and_eq_true,
    bne_iff_ne] at hentry
  obtain ⟨⟨⟨⟨⟨hack, hnack⟩, -⟩, -⟩, -⟩, -⟩ := hentry
  exact ht.elim hack hnack

theorem encodeOut_of_findEntry_none {c : Config} {t : Byte} (vals : List FieldValue)
    (h : findEntry c.registry t = none) : encodeOut c t vals = .error .eEncNoLayout := by
  simp [encodeOut, outLayout, h]

end Sys2Proof.Machine
end

section
/-! PROOFS. The statements about the host operations (43_host_ops.md R303, R305 to R308). -/

namespace Sys2Proof.Machine

/-- Settles O17, from the three outcomes of SEND_CMD; check I5 leaves ACK and NACK without a layout. -/
theorem sendCmdSendsOneFrame : Obligations.SendCmdSendsOneFrame := by
  unfold Obligations.SendCmdSendsOneFrame
  exact ⟨fun _ _ => decodeCommand_ofNat 3 rfl,
    fun _ t vals hbusy => exec_sendCmd_of_pending t vals hbusy,
    fun _ _ _ _ hidle h => exec_sendCmd_of_error hidle h,
    fun _ _ _ _ hidle h => exec_sendCmd_of_ok hidle h,
    fun _ vals hc => ⟨encodeOut_of_findEntry_none vals (findEntry_ack_nack hc (.inl rfl)),
      encodeOut_of_findEntry_none vals (findEntry_ack_nack hc (.inr rfl))⟩⟩

/-- Settles O19: ABANDON makes no test. -/
theorem abandonClearsCommandAndLatch : Obligations.AbandonClearsCommandAndLatch := by
  unfold Obligations.AbandonClearsCommandAndLatch
  exact ⟨decodeCommand_of_encode rfl, fun _ => rfl⟩

/-- Settles O20, from the outcomes of DECODE; check I5 leaves ACK and NACK without a layout. -/
theorem decodeAnswersTheMessage : Obligations.DecodeAnswersTheMessage := by
  unfold Obligations.DecodeAnswersTheMessage
  exact ⟨fun _ _ => decodeCommand_ofNat 6 rfl,
    fun _ _ body hlay => exec_decodeMsg_of_unknown body hlay,
    fun _ _ _ hlay hlong => exec_decodeMsg_of_long hlay hlong,
    fun _ _ _ _ hlay hlen h => exec_decodeMsg_of_error hlay hlen h,
    fun _ _ _ _ _ hlen h => exec_decodeMsg_of_ok hlen h,
    fun _ hc => ⟨inLayout_eq_none.2 (.inl (findEntry_ack_nack hc (.inl rfl))),
      inLayout_eq_none.2 (.inl (findEntry_ack_nack hc (.inr rfl)))⟩⟩

/-- Settles O21, from the two outcomes of ENCODE, neither of which looks at CMD. -/
theorem encodeAnswersTheBody : Obligations.EncodeAnswersTheBody := by
  unfold Obligations.EncodeAnswersTheBody
  exact ⟨fun _ _ => decodeCommand_ofNat 7 rfl, fun _ _ _ _ h => exec_encodeMsg_of_ok h,
    fun _ _ _ _ h => exec_encodeMsg_of_error h⟩

/-- Settles O22, from the set of the unmapped indices. -/
theorem csrReadAnswersMappedIndices : Obligations.CsrReadAnswersMappedIndices := by
  unfold Obligations.CsrReadAnswersMappedIndices
  refine ⟨fun _ => decodeCommand_ofNat 8 rfl, fun s i hmapped => ?_, fun s i hunmapped =>
    exec_csrRead_of_unmapped (csrValue_eq_none.2 hunmapped)⟩
  have hsome : csrValue s i ≠ none := by
    rw [Ne, csrValue_eq_none]
    omega
  obtain ⟨v, hv⟩ := Option.ne_none_iff_exists'.1 hsome
  exact ⟨v, hv, exec_csrRead_of_mapped hv⟩

end Sys2Proof.Machine
end

section
/-! SUPPORT. RESET and the state it leaves, as the agents and the register space see them
(70_reset_and_hazards.md R390, R391). -/

namespace Sys2Proof.Machine

/-! ### RESET as a step -/

/-- The turn of an agent whose oldest request is RESET. -/
theorem step_of_reset {s : State} {a : Agent} {rest : List Agent} (hlegal : Legal s.cfg)
    (hsched : s.schedule = a :: rest) (hreq : nextRequest a s.pending = some .reset) :
    step s = .next (runReset a { s with schedule := rest }) := by
  simp [step, hlegal, hsched, agentStep, hreq, runRequest]

/-! ### The register space after RESET -/

/-- STATUS reads the block alone: a RESET shows the STATUS of power-on, whatever the agents have
issued. -/
theorem statusCsr_runReset {a : Agent} {s : State} (hlegal : Legal s.cfg) :
    statusCsr (runReset a s) = 0x00010000 :=
  statusCsr_resetWith hlegal

/-- Behind the six registers, an index shows a counter or nothing (10_state.md R50, R51). -/
theorem csrValue_of_counterIndex {s : State} {i : Byte} (hi : 0x10 ≤ i.toNat) :
    csrValue s i = (counterAt i.toNat).map s.cnt.get := by
  unfold csrValue
  split
  case h_7 => rfl -- the default arm; the others are the six registers
  all_goals omega

theorem csrValue_counter_resetWith {c : Config} {i : Byte} (hlo : 0x10 ≤ i.toNat)
    (hhi : i.toNat ≤ 0x1C) : csrValue (State.resetWith c) i = some 0 := by
  have hmapped : counterAt i.toNat ≠ none := by
    rw [Ne, counterAt_eq_none]
    omega
  obtain ⟨k, hk⟩ := Option.ne_none_iff_exists'.1 hmapped
  rw [csrValue_of_counterIndex hlo, hk]
  exact congrArg some (get_zero k)

end Sys2Proof.Machine
end

section
/-! PROOFS. The statement about RESET (70_reset_and_hazards.md R390, R391). -/

namespace Sys2Proof.Machine

/-- Settles O1: the step is `runReset`, whose block is that of power-on; STATUS there needs a legal
configuration, under which the empty queue is not full. -/
theorem resetGivesEveryElementItsResetValue : Obligations.ResetGivesEveryElementItsResetValue := by
  unfold Obligations.ResetGivesEveryElementItsResetValue
  refine ⟨fun s a rest hlegal hsched hreq => ?_, fun _ => rfl, fun c hlegal => ?_⟩
  · exact ⟨_, step_of_reset hlegal hsched hreq, rfl, rfl, rfl, rfl, rfl, get_zero, rfl, rfl, rfl, rfl,
      rfl, congrArg some (statusCsr_runReset hlegal), rfl⟩
  · exact ⟨congrArg some (statusCsr_resetWith hlegal), rfl, rfl, rfl, rfl,
      congrArg some (lastDropCsr_resetWith c), fun _ hlo hhi => csrValue_counter_resetWith hlo hhi,
      rfl, rfl⟩

end Sys2Proof.Machine
end

section
/-! SUPPORT. The build-time checks as conditions: a field, a layout and an entry without a defect are
exactly those that meet `FieldSound`, `LayoutSound` and `EntrySound` (41_registry.md R207 to R213). -/

namespace Sys2Proof.Machine

/-! ### One field (R209, R210) -/

/-- A check that answers no code is one that passes. -/
theorem ite_none_some_eq_none {p : Prop} [Decidable p] {c : CheckCode} :
    (if p then none else some c) = none ↔ p := by
  by_cases h : p <;> simp [h]

theorem fieldCheck_eq_none {f : FieldDesc} : fieldCheck f = none ↔ FieldSound f := by
  obtain ⟨name, kind, size⟩ := f
  cases kind with
  | enum set =>
    by_cases hw : widthOk size
    · simp only [fieldCheck, FieldSound, if_pos hw, ite_none_some_eq_none]
      exact ⟨fun h => ⟨hw.1, hw.2, h⟩, fun ⟨_, _, h⟩ => h⟩
    · simp only [fieldCheck, FieldSound, if_neg hw]
      exact ⟨fun h => (Option.some_ne_none _ h).elim, fun ⟨hlo, hhi, _⟩ => (hw ⟨hlo, hhi⟩).elim⟩
  | fixu base exp | fixs base exp =>
    simp only [fieldCheck, FieldSound, ite_none_some_eq_none, and_assoc]
  | _ => exact ite_none_some_eq_none

theorem fieldErrors_eq_nil {t : Byte} {part : LayoutPart} {i : Nat} {fs : List FieldDesc} :
    fieldErrors t part i fs = [] ↔ ∀ f ∈ fs, FieldSound f := by
  induction fs generalizing i with
  | nil => simp [fieldErrors]
  | cons f fs ih =>
    rw [List.forall_mem_cons, ← fieldCheck_eq_none, ← ih (i := i + 1), fieldErrors]
    cases fieldCheck f <;> simp

/-! ### One layout (R207, R208, R212) -/

theorem widthSum_eq_sum (fs : List FieldDesc) : widthSum fs = (fs.map fieldWidth).sum := by
  induction fs with
  | nil => rfl
  | cons f fs ih => simp [widthSum, ih]

/-- Check I7 is about the kind of the header field that the count index names. -/
theorem countFieldOk_iff {header : List FieldDesc} {idx : Nat} :
    countFieldOk header idx = true ↔ ∃ f, header[idx]? = some f ∧ f.kind = .uint := by
  unfold countFieldOk
  cases header[idx]? <;> simp

theorem layoutErrors_eq_nil {t : Byte} {part : LayoutPart} {lay : Layout} :
    layoutErrors t part lay = [] ↔ LayoutSound lay := by
  cases lay with
  | fixed fields bits =>
    simp [layoutErrors, LayoutSound, errorUnless_eq_nil, fieldErrors_eq_nil, widthSum_eq_sum]
    exact fun _ _ _ => Iff.rfl
  | array header headerBits countIdx sub subBits =>
    simp [layoutErrors, LayoutSound, errorUnless_eq_nil, fieldErrors_eq_nil, widthSum_eq_sum,
      countFieldOk_iff]
    exact fun _ _ _ _ _ _ _ _ => Iff.rfl

theorem directionErrors_eq_nil {t : Byte} {part : LayoutPart} {dir : Option Layout} :
    directionErrors t part dir = [] ↔ ∀ lay, dir = some lay → LayoutSound lay := by
  cases dir <;> simp [directionErrors, layoutErrors_eq_nil]

/-! ### One entry, and the registry (R211, R212) -/

theorem outIsFixed_iff {dir : Option Layout} :
    outIsFixed dir = true ↔ ∀ lay, dir = some lay → ∃ fields bits, lay = .fixed fields bits := by
  match dir with
  | none => simp [outIsFixed]
  | some (.fixed fields bits) => simp [outIsFixed]
  | some (.array ..) => simp [outIsFixed]

theorem entryErrors_eq_nil {t : Byte} {e : Entry} : entryErrors t e = [] ↔ EntrySound t e := by
  simp only [entryErrors, List.append_eq_nil_iff, errorUnless_eq_nil, directionErrors_eq_nil,
    outIsFixed_iff, EntrySound, Bool.and_eq_true, Bool.or_eq_true, bne_iff_ne,
    Option.isSome_iff_ne_none, forall_and, ackId, nackId]
  tauto

theorem registryErrors_eq_nil {reg : List (Byte × Entry)} :
    registryErrors reg = [] ↔ ∀ t e, (t, e) ∈ reg → EntrySound t e := by
  induction reg with
  | nil => simp [registryErrors]
  | cons slot rest ih =>
    obtain ⟨t, e⟩ := slot
    simp only [registryErrors, List.append_eq_nil_iff, entryErrors_eq_nil, ih, List.mem_cons,
      Prod.mk.injEq]
    constructor
    · rintro ⟨hslot, hrest⟩ t' e' (⟨rfl, rfl⟩ | hmem)
      · exact hslot
      · exact hrest t' e' hmem
    · exact fun h => ⟨h t e (.inl ⟨rfl, rfl⟩), fun t' e' hmem => h t' e' (.inr hmem)⟩

/-- The listing order compares neighbours only, which is enough: the order of the type bytes is
transitive. -/
theorem registrySorted_iff {reg : List (Byte × Entry)} :
    registrySorted reg = true ↔ reg.Pairwise fun x y => x.1.toNat < y.1.toNat := by
  induction reg with
  | nil => simp [registrySorted]
  | cons x rest ih =>
    cases rest with
    | nil => simp [registrySorted]
    | cons y rest =>
      have hsplit : registrySorted (x :: y :: rest) = true ↔
          x.1.toNat < y.1.toNat ∧ registrySorted (y :: rest) = true := by
        simp [registrySorted]
      rw [hsplit, ih, List.pairwise_cons (a := x)]
      refine and_congr_left fun hrest => ⟨fun hxy => ?_, fun h => h y (by simp)⟩
      obtain ⟨hhead, -⟩ := List.pairwise_cons.1 hrest
      exact List.forall_mem_cons.2 ⟨hxy, fun z hz => hxy.trans (hhead z hz)⟩

/-! ### The entry of type 0xDC (R216) -/

theorem isMeasTimeEntry_iff {e : Entry} :
    isMeasTimeEntry e = true ↔
      (∃ fields, e.inLayout = some (.fixed fields 72) ∧
        fieldShapes fields = [(.uint, 8), (.uint, 16), (.uint, 32), (.uint, 16)]) ∧
      e.outLayout = none := by
  obtain ⟨name, inl, outl⟩ := e
  match inl, outl with
  | some (.fixed fields bits), none => simp [isMeasTimeEntry, and_comm]
  | some (.fixed fields bits), some lay => simp [isMeasTimeEntry]
  | some (.array ..), none => simp [isMeasTimeEntry]
  | some (.array ..), some lay => simp [isMeasTimeEntry]
  | none, dir => simp [isMeasTimeEntry]

theorem hasMeasTime_iff {c : Config} :
    hasMeasTime c = true ↔
      (∃ fields, inLayout c measTimeId = some (.fixed fields 72) ∧
        fieldShapes fields = [(.uint, 8), (.uint, 16), (.uint, 32), (.uint, 16)]) ∧
      outLayout c measTimeId = none := by
  unfold hasMeasTime inLayout outLayout
  cases findEntry c.registry measTimeId with
  | none => simp
  | some e => exact isMeasTimeEntry_iff

/-! ### A legal configuration -/

theorem legal_iff {c : Config} :
    Legal c ↔ (8 ≤ c.bufCap ∧ c.bufCap < 2 ^ 32) ∧ (1 ≤ c.rxqDepth ∧ c.rxqDepth < 2 ^ 32) ∧
      c.registry.Pairwise (fun x y => x.1.toNat < y.1.toNat) ∧
      (∀ t e, (t, e) ∈ c.registry → EntrySound t e) ∧ hasMeasTime c = true := by
  simp only [Legal, configDefects, List.append_eq_nil_iff, List.map_eq_nil_iff,
    registryErrors_eq_nil, ite_eq_left_iff, List.cons_ne_nil, imp_false, not_not,
    registrySorted_iff, and_assoc]

theorem layoutSound_of_inLayout {c : Config} {t : Byte} {lay : Layout} (hc : Legal c)
    (h : inLayout c t = some lay) : LayoutSound lay :=
  layoutErrors_eq_nil.1 (layoutErrors_of_inLayout hc h)

/-- Check I6: an outbound layout is FIXED, and it passed the other checks. -/
theorem layoutSound_of_outLayout {c : Config} {t : Byte} {lay : Layout} (hc : Legal c)
    (h : outLayout c t = some lay) :
    LayoutSound lay ∧ ∃ fields bits, lay = .fixed fields bits := by
  unfold outLayout at h
  split at h
  next => cases h
  next e he =>
    have hentry := entryErrors_of_findEntry (legal_registryErrors hc) he
    obtain ⟨-, -, -, -, hout⟩ := entryErrors_eq_nil.1 hentry
    exact hout lay h

end Sys2Proof.Machine
end

section
/-! PROOFS. The statements about legal and defective configurations (41_registry.md R207 to R213). -/

namespace Sys2Proof.Machine

/-- Settles O11, check by check. -/
theorem legalMeansEveryCheckPasses : Obligations.LegalMeansEveryCheckPasses := by
  unfold Obligations.LegalMeansEveryCheckPasses
  intro c
  rw [legal_iff, hasMeasTime_iff]
  simp only [Nat.lt_iff_le_pred (show 0 < 2 ^ 32 by decide)]
  rfl

/-- Settles O10: the step names the head of the list of defects. -/
theorem defectiveConfigurationHasNoRun : Obligations.DefectiveConfigurationHasNoRun := by
  unfold Obligations.DefectiveConfigurationHasNoRun
  intro s hdefective
  obtain ⟨d, ds, hd, hstep⟩ | ⟨hlegal, -⟩ | ⟨a, rest, hlegal, -⟩ := step_cases s
  · exact ⟨d, hd ▸ List.mem_cons_self, hstep⟩
  · exact absurd hlegal hdefective
  · exact absurd hlegal hdefective

end Sys2Proof.Machine
end

section
/-! SUPPORT. A body as a string of bits, the first one most significant: reading a field is reading a
stretch of it, and writing it back gives the stretch (20_memory.md R72 to R76). -/

namespace Sys2Proof.Machine

/-! ### Numbers and bit strings -/

@[simp] theorem length_bitsOf (w v : Nat) : (bitsOf w v).length = w := by
  induction w with
  | zero => rfl
  | succ w ih => simp [bitsOf, ih]

theorem getElem_bitsOf {w v j : Nat} (h : j < (bitsOf w v).length) :
    (bitsOf w v)[j] = v.testBit (w - 1 - j) := by
  induction w generalizing j with
  | zero => simp at h
  | succ w ih =>
    obtain - | j := j
    · simp [bitsOf]
    · simp only [bitsOf, List.getElem_cons_succ, ih, Nat.add_sub_cancel]
      congr 1
      omega

theorem natOfBits_concat (l : List Bool) (b : Bool) :
    natOfBits (l ++ [b]) = 2 * natOfBits l + b.toNat := by
  simp [natOfBits]

theorem natOfBits_lt (l : List Bool) : natOfBits l < 2 ^ l.length := by
  induction l using List.reverseRecOn with
  | nil => exact Nat.one_pos
  | append_singleton l b ih =>
    rw [natOfBits_concat, List.length_append, List.length_singleton, Nat.pow_succ]
    have := b.toNat_lt
    omega

/-- Appending a bit doubles the number, so the pattern of the longer number ends in that bit. -/
theorem bitsOf_concat (w v : Nat) (b : Bool) :
    bitsOf (w + 1) (2 * v + b.toNat) = bitsOf w v ++ [b] := by
  have hbit : (2 * v + b.toNat) = Nat.bit b v := by cases b <;> simp [Nat.bit]
  induction w with
  | zero => rw [hbit]; simp [bitsOf]
  | succ w ih =>
    rw [bitsOf, ih, hbit, Nat.testBit_bit_succ]
    rfl

/-- The pattern of the number that bits stand for is those bits. -/
theorem bitsOf_natOfBits (l : List Bool) : bitsOf l.length (natOfBits l) = l := by
  induction l using List.reverseRecOn with
  | nil => rfl
  | append_singleton l b ih =>
    rw [natOfBits_concat, List.length_append, List.length_singleton, bitsOf_concat, ih]

theorem bitsOf_inj {w v v' : Nat} (hv : v < 2 ^ w) (hv' : v' < 2 ^ w)
    (h : bitsOf w v = bitsOf w v') : v = v' := by
  refine Nat.eq_of_testBit_eq fun i => ?_
  by_cases hi : i < w
  · have hbit : (bitsOf w v)[w - 1 - i]? = (bitsOf w v')[w - 1 - i]? := by rw [h]
    have hpos : w - 1 - i < w := by omega
    rw [List.getElem?_eq_getElem (by simpa using hpos),
      List.getElem?_eq_getElem (by simpa using hpos), getElem_bitsOf, getElem_bitsOf,
      show w - 1 - (w - 1 - i) = i by omega] at hbit
    exact Option.some.inj hbit
  · have hpow : 2 ^ w ≤ 2 ^ i := Nat.pow_le_pow_right (by decide) (Nat.le_of_not_lt hi)
    rw [Nat.testBit_lt_two_pow (hv.trans_le hpow), Nat.testBit_lt_two_pow (hv'.trans_le hpow)]

theorem natOfBits_bitsOf {w v : Nat} (hv : v < 2 ^ w) : natOfBits (bitsOf w v) = v := by
  have hlt := natOfBits_lt (bitsOf w v)
  have hpat := bitsOf_natOfBits (bitsOf w v)
  rw [length_bitsOf] at hlt hpat
  exact bitsOf_inj hlt hv hpat

/-! ### Bytes and bit strings -/

@[simp] theorem length_bitsOfBytes (bs : List Byte) : (bitsOfBytes bs).length = 8 * bs.length := by
  induction bs with
  | nil => rfl
  | cons b bs ih =>
    simp only [bitsOfBytes, List.length_append, length_bitsOf, ih, List.length_cons]
    omega

theorem bitsOfBytes_eq_flatMap (bs : List Byte) :
    bitsOfBytes bs = bs.flatMap fun b => bitsOf 8 b.toNat := by
  induction bs with
  | nil => rfl
  | cons b bs ih => rw [bitsOfBytes, ih, List.flatMap_cons]

/-- A string of eight bits or more is a byte and the rest. -/
theorem exists_byte_append {bits : List Bool} (h : 8 ≤ bits.length) :
    ∃ b : Byte, ∃ rest, bits = bitsOf 8 b.toNat ++ rest := by
  have hlen : (bits.take 8).length = 8 := by simpa using h
  have hlt := natOfBits_lt (bits.take 8)
  have hpat := bitsOf_natOfBits (bits.take 8)
  rw [hlen] at hlt hpat
  refine ⟨BitVec.ofNat 8 (natOfBits (bits.take 8)), bits.drop 8, ?_⟩
  rw [BitVec.toNat_ofNat, Nat.mod_eq_of_lt hlt, hpat, List.take_append_drop]

theorem bytesOf_bitsOf_append (b : Byte) (rest : List Bool) :
    bytesOf (bitsOf 8 b.toNat ++ rest) = b :: bytesOf rest := by
  have hbyte : BitVec.ofNat 8 (natOfBits (bitsOf 8 b.toNat)) = b := by
    rw [natOfBits_bitsOf b.isLt, BitVec.ofNat_toNat, BitVec.setWidth_eq]
  exact congrArg (· :: bytesOf rest) hbyte

theorem bytesOf_bitsOfBytes (bs : List Byte) : bytesOf (bitsOfBytes bs) = bs := by
  induction bs with
  | nil => rfl
  | cons b bs ih => rw [bitsOfBytes, bytesOf_bitsOf_append, ih]

/-- The bytes of a bit string of whole bytes read back that string (R76). -/
theorem bitsOfBytes_bytesOf {bits : List Bool} (h : bits.length % 8 = 0) :
    bitsOfBytes (bytesOf bits) = bits := by
  induction hn : bits.length / 8 generalizing bits with
  | zero =>
    obtain rfl : bits = [] := List.eq_nil_of_length_eq_zero (by omega)
    rfl
  | succ n ih =>
    obtain ⟨b, rest, rfl⟩ := exists_byte_append (show 8 ≤ bits.length by omega)
    rw [List.length_append, length_bitsOf] at h hn
    rw [bytesOf_bitsOf_append, bitsOfBytes, ih (by omega) (by omega)]

theorem length_bytesOf {bits : List Bool} (h : bits.length % 8 = 0) :
    8 * (bytesOf bits).length = bits.length := by
  rw [← length_bitsOfBytes, bitsOfBytes_bytesOf h]

/-! ### Reading a body -/

/-- Bit offset `k` of a body is bit `k` of its bit string (R72). -/
theorem bitAt_eq_getD (body : List Byte) (k : Nat) :
    bitAt body k = (bitsOfBytes body).getD k false := by
  induction body generalizing k with
  | nil => simp [bitAt, bitsOfBytes]
  | cons b bs ih =>
    rw [bitsOfBytes, List.getD_eq_getElem?_getD]
    by_cases hk : k < 8
    · rw [List.getElem?_append_left (by simpa using hk),
        List.getElem?_eq_getElem (by simpa using hk), getElem_bitsOf, bitAt,
        Nat.div_eq_of_lt hk, Nat.mod_eq_of_lt hk]
      rfl
    · obtain ⟨k, rfl⟩ := Nat.exists_eq_add_of_le' (Nat.le_of_not_lt hk)
      rw [List.getElem?_append_right (by simp), length_bitsOf, Nat.add_sub_cancel,
        ← List.getD_eq_getElem?_getD, ← ih, bitAt, Nat.add_mod_right,
        Nat.add_div_right k (by decide), List.getD_cons_succ]
      rfl

/-- The `w` bits of a body from bit offset `o` on. -/
def bodyBits (body : List Byte) (o w : Nat) : List Bool :=
  (List.range w).map fun j => bitAt body (o + j)

@[simp] theorem length_bodyBits (body : List Byte) (o w : Nat) : (bodyBits body o w).length = w := by
  simp [bodyBits]

theorem bodyBits_add (body : List Byte) (o w w' : Nat) :
    bodyBits body o (w + w') = bodyBits body o w ++ bodyBits body (o + w) w' := by
  simp [bodyBits, List.range_add, Nat.add_assoc]

/-- A stretch within the body is that stretch of its bit string. -/
theorem bodyBits_eq_take_drop {body : List Byte} {o w : Nat} (h : o + w ≤ 8 * body.length) :
    bodyBits body o w = ((bitsOfBytes body).drop o).take w := by
  refine List.ext_getElem (by simp; omega) fun j hj _ => ?_
  rw [length_bodyBits] at hj
  have hpos : o + j < (bitsOfBytes body).length := by rw [length_bitsOfBytes]; omega
  simp [bodyBits, bitAt_eq_getD, List.getD_eq_getElem?_getD, List.getElem?_eq_getElem hpos]

theorem bodyBits_all (body : List Byte) : bodyBits body 0 (8 * body.length) = bitsOfBytes body := by
  rw [bodyBits_eq_take_drop (by omega), List.drop_zero, List.take_of_length_le (by simp)]

/-- In the bytes of a bit string of whole bytes, every stretch stands where it was written (R76). -/
theorem bodyBits_bytesOf {before p after : List Bool}
    (h : (before ++ p ++ after).length % 8 = 0) :
    bodyBits (bytesOf (before ++ p ++ after)) before.length p.length = p := by
  have hlen := length_bytesOf h
  rw [bodyBits_eq_take_drop (by rw [hlen]; simp), bitsOfBytes_bytesOf h]
  simp

/-- `BitRead` is the number that the stretch stands for (R75). -/
theorem bitRead_eq_natOfBits (body : List Byte) (o w : Nat) :
    bitRead body o w = natOfBits (bodyBits body o w) := by
  induction w with
  | zero => rfl
  | succ w ih =>
    rw [bitRead, ih, bodyBits_add, show bodyBits body (o + w) 1 = [bitAt body (o + w)] from rfl,
      natOfBits_concat]

theorem bitRead_lt (body : List Byte) (o w : Nat) : bitRead body o w < 2 ^ w := by
  have h := natOfBits_lt (bodyBits body o w)
  rwa [length_bodyBits, ← bitRead_eq_natOfBits] at h

theorem bitsOf_bitRead (body : List Byte) (o w : Nat) :
    bitsOf w (bitRead body o w) = bodyBits body o w := by
  have h := bitsOf_natOfBits (bodyBits body o w)
  rwa [length_bodyBits, ← bitRead_eq_natOfBits] at h

theorem bitRead_of_bodyBits {body : List Byte} {o w v : Nat} (hv : v < 2 ^ w)
    (h : bodyBits body o w = bitsOf w v) : bitRead body o w = v := by
  rw [bitRead_eq_natOfBits, h, natOfBits_bitsOf hv]

theorem testBit_bitRead {body : List Byte} {o w j : Nat} (hj : j < w) :
    (bitRead body o w).testBit (w - 1 - j) = bitAt body (o + j) := by
  have hlen : j < (bitsOf w (bitRead body o w)).length := by simpa using hj
  rw [← getElem_bitsOf hlen]
  simp [bitsOf_bitRead, bodyBits]

end Sys2Proof.Machine
end

section
/-! PROOFS. The statement about the order of the bits in a body (20_memory.md R72). -/

namespace Sys2Proof.Machine

/-- Settles O45: a body is a bit string, and both directions are about one stretch of it. -/
theorem bitsAreMostSignificantFirst : Obligations.BitsAreMostSignificantFirst := by
  unfold Obligations.BitsAreMostSignificantFirst
  refine ⟨fun body o w _ => ⟨bitRead_lt body o w, fun j hj => testBit_bitRead hj⟩,
    fun before after w v hv hlen => ?_⟩
  have hwhole : (before ++ bitsOf w v ++ after).length = before.length + w + after.length := by
    simp [Nat.add_assoc]
  rw [← hwhole] at hlen ⊢
  have hread := bodyBits_bytesOf hlen
  rw [length_bitsOf] at hread
  exact ⟨length_bytesOf hlen, bitRead_of_bodyBits hv hread⟩

end Sys2Proof.Machine
end

section
/-! SUPPORT. The field functions as one relation: a field decodes to a value exactly where the value encodes
to the bits that stand there (42_codec.md R245 to R268), and what that says of field lists. -/

namespace Sys2Proof.Machine

/-! ### Patterns (R258, R259) -/

theorem packUnsigned_eq_ok {w : Nat} {n : Int} {p : List Bool} :
    packUnsigned w n = .ok p ↔ fitsUnsigned w n ∧ p = bitsOf w n.toNat := by
  by_cases h : fitsUnsigned w n
  · rw [packUnsigned, if_pos h]
    exact ⟨fun hp => ⟨h, (Except.ok.inj hp).symm⟩, fun ⟨_, hp⟩ => congrArg _ hp.symm⟩
  · rw [packUnsigned, if_neg h]
    exact ⟨nofun, fun ⟨hfits, _⟩ => absurd hfits h⟩

theorem packSigned_eq_ok {w : Nat} {i : Int} {p : List Bool} :
    packSigned w i = .ok p ↔ fitsSigned w i ∧ p = bitsOf w (i % 2 ^ w).toNat := by
  by_cases h : fitsSigned w i
  · rw [packSigned, if_pos h]
    exact ⟨fun hp => ⟨h, (Except.ok.inj hp).symm⟩, fun ⟨_, hp⟩ => congrArg _ hp.symm⟩
  · rw [packSigned, if_neg h]
    exact ⟨nofun, fun ⟨hfits, _⟩ => absurd hfits h⟩

/-- The two's-complement reading of a pattern is in range, and its pattern is the one it was read from
(00_scope.md R12). -/
theorem sext_spec {w p : Nat} (hw : 1 ≤ w) (hp : p < 2 ^ w) :
    fitsSigned w (sext w p) ∧ sext w p % 2 ^ w = (p : Int) := by
  obtain ⟨w, rfl⟩ := Nat.exists_eq_add_of_le' hw
  have hpow : (2 : Int) ^ (w + 1) = 2 * 2 ^ w := by ring
  have hpow' : (2 : Nat) ^ (w + 1) = 2 * 2 ^ w := by ring
  have hp' : (p : Int) < 2 * 2 ^ w := by exact_mod_cast hpow' ▸ hp
  have hmod : (p : Int) % (2 ^ (w + 1)) = p := Int.emod_eq_of_lt (Int.natCast_nonneg p) (hpow ▸ hp')
  unfold sext fitsSigned
  rw [Nat.add_sub_cancel]
  split
  next hneg =>
    have hneg' : (2 : Int) ^ w ≤ p := by exact_mod_cast hneg
    refine ⟨by omega, ?_⟩
    rw [Int.sub_emod_right, hmod]
  next hpos =>
    have hpos' : (p : Int) < 2 ^ w := by exact_mod_cast Nat.lt_of_not_le hpos
    exact ⟨by omega, hmod⟩

/-- In range, a number is determined by its pattern. -/
theorem eq_of_fitsSigned {w : Nat} {i j : Int} (hw : 1 ≤ w) (hi : fitsSigned w i)
    (hj : fitsSigned w j) (h : i % 2 ^ w = j % 2 ^ w) : i = j := by
  obtain ⟨w, rfl⟩ := Nat.exists_eq_add_of_le' hw
  unfold fitsSigned at hi hj
  rw [Nat.add_sub_cancel] at hi hj
  have hpow : (2 : Int) ^ (w + 1) = 2 * 2 ^ w := by ring
  obtain ⟨k, hk⟩ : 2 ^ (w + 1) ∣ j - i := Int.ModEq.dvd h
  have hpos : (0 : Int) < 2 ^ w := by positivity
  have hk0 : k = 0 := by nlinarith
  rw [hk0] at hk
  omega

/-- An unsigned number encodes to the bits of a stretch exactly where the stretch reads as it. -/
theorem packUnsigned_eq_bodyBits {w o : Nat} {n : Int} {body : List Byte} :
    packUnsigned w n = .ok (bodyBits body o w) ↔ n = bitRead body o w := by
  rw [packUnsigned_eq_ok]
  constructor
  · rintro ⟨⟨hpos, hlt⟩, hbits⟩
    obtain ⟨m, rfl⟩ := Int.eq_ofNat_of_zero_le hpos
    rw [bitRead_of_bodyBits (by exact_mod_cast hlt) hbits]
    rfl
  · rintro rfl
    exact ⟨⟨Int.natCast_nonneg _, by exact_mod_cast bitRead_lt body o w⟩,
      (bitsOf_bitRead body o w).symm⟩

/-- The same for a signed number and the two's-complement reading. -/
theorem packSigned_eq_bodyBits {w o : Nat} {i : Int} {body : List Byte} (hw : 1 ≤ w) :
    packSigned w i = .ok (bodyBits body o w) ↔ i = sext w (bitRead body o w) := by
  rw [packSigned_eq_ok]
  obtain ⟨hfits, hmod⟩ := sext_spec hw (bitRead_lt body o w)
  constructor
  · rintro ⟨hi, hbits⟩
    have hnonneg : 0 ≤ i % 2 ^ w := Int.emod_nonneg _ (by positivity)
    have hlt : i % 2 ^ w < 2 ^ w := Int.emod_lt_of_pos _ (by positivity)
    obtain ⟨m, hm⟩ := Int.eq_ofNat_of_zero_le hnonneg
    rw [hm] at hlt hbits
    have hread := bitRead_of_bodyBits (by exact_mod_cast hlt) hbits
    refine eq_of_fitsSigned hw hi hfits ?_
    rw [hmod, hread, hm]
    rfl
  · rintro rfl
    rw [hmod]
    exact ⟨hfits, (bitsOf_bitRead body o w).symm⟩

/-! ### What each kind encodes (R257 to R266) -/

theorem encodeUint_eq_ok {w : Nat} {v : FieldValue} {p : List Bool} :
    encodeUint w v = .ok p ↔ ∃ n, v = .u w n ∧ packUnsigned w n = .ok p := by
  cases v <;> simp [encodeUint]
  case u w' n => by_cases h : w' = w <;> simp [h]

theorem encodeSint_eq_ok {w : Nat} {v : FieldValue} {p : List Bool} :
    encodeSint w v = .ok p ↔ ∃ i, v = .s w i ∧ packSigned w i = .ok p := by
  cases v <;> simp [encodeSint]
  case s w' i => by_cases h : w' = w <;> simp [h]

theorem encodeF32_eq_ok {v : FieldValue} {p : List Bool} :
    encodeF32 v = .ok p ↔ ∃ b, v = .f32 b ∧ packUnsigned 32 b = .ok p := by
  cases v <;> simp [encodeF32]

theorem encodeF64_eq_ok {v : FieldValue} {p : List Bool} :
    encodeF64 v = .ok p ↔ ∃ b, v = .f64 b ∧ packUnsigned 64 b = .ok p := by
  cases v <;> simp [encodeF64]

theorem encodeBlob_eq_ok {k : Nat} {v : FieldValue} {p : List Bool} :
    encodeBlob k v = .ok p ↔ ∃ bs, v = .blob bs ∧ bs.length = k ∧ p = bitsOfBytes bs := by
  cases v <;> simp [encodeBlob]
  case blob bs => by_cases h : bs.length = k <;> simp [h, eq_comm]

theorem encodeEnum_eq_ok {w : Nat} {set : List Nat} {v : FieldValue} {p : List Bool} :
    encodeEnum w set v = .ok p ↔ ∃ n : Nat, v = .e w n ∧ n ∈ set ∧ p = bitsOf w n := by
  cases v <;> simp [encodeEnum]
  case e w' n =>
    by_cases h : w' = w
    · by_cases hn : 0 ≤ n ∧ n.toNat ∈ set
      · obtain ⟨hpos, hmem⟩ := hn
        obtain ⟨m, rfl⟩ := Int.eq_ofNat_of_zero_le hpos
        have hmem' : m ∈ set := hmem
        simp [h, hmem', eq_comm]
      · simp only [h, hn, if_true, if_false, reduceCtorEq, true_and, false_iff, not_exists]
        rintro m ⟨rfl, hmem, -⟩
        exact hn ⟨Int.natCast_nonneg m, hmem⟩
    · simp [h]

theorem encodeFlags_eq_ok {w : Nat} {v : FieldValue} {p : List Bool} :
    encodeFlags w v = .ok p ↔ ∃ n, v = .fl w n ∧ packUnsigned w n = .ok p := by
  cases v <;> simp [encodeFlags]
  case fl w' n => by_cases h : w' = w <;> simp [h]

theorem encodeFixu_eq_ok {w base : Nat} {exp : Int} {v : FieldValue} {p : List Bool} :
    encodeFixu w base exp v = .ok p ↔ ∃ n, v = .fxu w n base exp ∧ packUnsigned w n = .ok p := by
  cases v <;> simp [encodeFixu]
  case fxu w' n base' exp' => by_cases h : w' = w ∧ base' = base ∧ exp' = exp <;> simp [h]

theorem encodeFixs_eq_ok {w base : Nat} {exp : Int} {v : FieldValue} {p : List Bool} :
    encodeFixs w base exp v = .ok p ↔ ∃ i, v = .fxs w i base exp ∧ packSigned w i = .ok p := by
  cases v <;> simp [encodeFixs]
  case fxs w' i base' exp' => by_cases h : w' = w ∧ base' = base ∧ exp' = exp <;> simp [h]

end Sys2Proof.Machine
end

section
/-! SUPPORT. The codec relation on one field, and on the lists of fields and items of a layout
(42_codec.md R244, R254, R256, R267, R268). -/

namespace Sys2Proof.Machine

/-! ### One field -/

@[simp] theorem length_readBytes (body : List Byte) (o k : Nat) :
    (readBytes body o k).length = k := by
  induction k generalizing o with
  | zero => rfl
  | succ k ih => simp [readBytes, ih]

/-- The bytes of a blob are the stretch it stands on (R249). -/
theorem bitsOfBytes_readBytes (body : List Byte) (o k : Nat) :
    bitsOfBytes (readBytes body o k) = bodyBits body o (8 * k) := by
  induction k generalizing o with
  | zero => rfl
  | succ k ih =>
    have hbyte : (BitVec.ofNat 8 (bitRead body o 8)).toNat = bitRead body o 8 := by
      rw [BitVec.toNat_ofNat]
      exact Nat.mod_eq_of_lt (bitRead_lt body o 8)
    rw [readBytes, bitsOfBytes, hbyte, bitsOf_bitRead, ih, Nat.mul_succ, Nat.add_comm (8 * k),
      bodyBits_add]

theorem getD_readBytes {body : List Byte} {o k j : Nat} (hj : j < k) :
    ((readBytes body o k).getD j 0).toNat = bitRead body (o + 8 * j) 8 := by
  induction k generalizing o j with
  | zero => exact absurd hj (Nat.not_lt_zero j)
  | succ k ih =>
    obtain - | j := j
    · rw [readBytes, List.getD_cons_zero, BitVec.toNat_ofNat]
      exact Nat.mod_eq_of_lt (bitRead_lt body o 8)
    · rw [readBytes, List.getD_cons_succ, ih (Nat.lt_of_succ_lt_succ hj), Nat.mul_succ,
        Nat.add_comm (8 * j), Nat.add_assoc]

/-- A sound field decodes to a value exactly where the value encodes to the bits that stand there: one
relation, which decode and encode read in the two directions. -/
theorem fieldDecode_eq_ok_iff {f : FieldDesc} {body : List Byte} {o : Nat} {v : FieldValue}
    (hf : FieldSound f) :
    fieldDecode f body o = .ok v ↔ fieldEncode f v = .ok (bodyBits body o (fieldWidth f)) := by
  obtain ⟨name, kind, w⟩ := f
  cases kind with
  | uint =>
    simp [fieldDecode, fieldEncode, fieldWidth, decodeUint, encodeUint_eq_ok,
      packUnsigned_eq_bodyBits, eq_comm (b := v)]
  | sint =>
    obtain ⟨hw, -⟩ := hf
    simp [fieldDecode, fieldEncode, fieldWidth, decodeSint, encodeSint_eq_ok,
      packSigned_eq_bodyBits hw, eq_comm (b := v)]
  | f32 =>
    simp [fieldDecode, fieldEncode, fieldWidth, decodeF32, encodeF32_eq_ok,
      packUnsigned_eq_bodyBits, eq_comm (b := v)]
  | f64 =>
    simp [fieldDecode, fieldEncode, fieldWidth, decodeF64, encodeF64_eq_ok,
      packUnsigned_eq_bodyBits, eq_comm (b := v)]
  | blob =>
    simp only [fieldDecode, fieldEncode, fieldWidth, decodeBlob, encodeBlob_eq_ok,
      ← bitsOfBytes_readBytes, Except.ok.injEq]
    constructor
    · rintro rfl
      exact ⟨_, rfl, length_readBytes body o w, rfl⟩
    · rintro ⟨bs, rfl, -, hbits⟩
      rw [← bytesOf_bitsOfBytes bs, ← hbits, bytesOf_bitsOfBytes]
  | enum set =>
    obtain ⟨-, -, -, hset⟩ := hf
    simp only [fieldDecode, fieldEncode, fieldWidth, decodeEnum, encodeEnum_eq_ok]
    constructor
    · intro h
      split at h
      next hmem => cases h; exact ⟨_, rfl, hmem, (bitsOf_bitRead body o w).symm⟩
      next => cases h
    · rintro ⟨n, rfl, hmem, hbits⟩
      rw [bitRead_of_bodyBits (hset n hmem) hbits, if_pos hmem]
  | flags =>
    simp [fieldDecode, fieldEncode, fieldWidth, decodeFlags, encodeFlags_eq_ok,
      packUnsigned_eq_bodyBits, eq_comm (b := v)]
  | fixu base exp =>
    simp [fieldDecode, fieldEncode, fieldWidth, decodeFixu, encodeFixu_eq_ok,
      packUnsigned_eq_bodyBits, eq_comm (b := v)]
  | fixs base exp =>
    obtain ⟨hw, -⟩ := hf
    simp [fieldDecode, fieldEncode, fieldWidth, decodeFixs, encodeFixs_eq_ok,
      packSigned_eq_bodyBits hw, eq_comm (b := v)]

theorem packUnsigned_isOk {w : Nat} {n : Int} :
    (∃ p, packUnsigned w n = .ok p) ↔ fitsUnsigned w n := by
  simp only [packUnsigned_eq_ok]
  exact ⟨fun ⟨_, h, _⟩ => h, fun h => ⟨_, h, rfl⟩⟩

theorem packSigned_isOk {w : Nat} {i : Int} : (∃ p, packSigned w i = .ok p) ↔ fitsSigned w i := by
  simp only [packSigned_eq_ok]
  exact ⟨fun ⟨_, h, _⟩ => h, fun h => ⟨_, h, rfl⟩⟩

/-- A field encodes exactly the values of its tag, width, scale and range (R257 to R266). -/
theorem fieldEncode_isOk {f : FieldDesc} {v : FieldValue} :
    (∃ p, fieldEncode f v = .ok p) ↔ valueFits f v = true := by
  obtain ⟨name, kind, w⟩ := f
  cases kind with
  | uint =>
    cases v <;> simp [fieldEncode, encodeUint_eq_ok, valueFits, packUnsigned_isOk]
    case u => rintro rfl -; rfl
  | sint =>
    cases v <;> simp [fieldEncode, encodeSint_eq_ok, valueFits, packSigned_isOk]
    case s => rintro rfl; rfl
  | f32 => cases v <;> simp [fieldEncode, encodeF32_eq_ok, valueFits, packUnsigned_isOk]
  | f64 => cases v <;> simp [fieldEncode, encodeF64_eq_ok, valueFits, packUnsigned_isOk]
  | blob => cases v <;> simp [fieldEncode, encodeBlob_eq_ok, valueFits]
  | enum set =>
    cases v <;> simp [fieldEncode, encodeEnum_eq_ok, valueFits]
    case e w' n =>
      constructor
      · rintro ⟨m, ⟨rfl, rfl⟩, hmem⟩
        exact ⟨rfl, Int.natCast_nonneg m, hmem⟩
      · rintro ⟨rfl, hpos, hmem⟩
        exact ⟨n.toNat, ⟨rfl, (Int.toNat_of_nonneg hpos).symm⟩, hmem⟩
  | flags =>
    cases v <;> simp [fieldEncode, encodeFlags_eq_ok, valueFits, packUnsigned_isOk]
    case fl => rintro rfl -; rfl
  | fixu base exp =>
    cases v <;> simp [fieldEncode, encodeFixu_eq_ok, valueFits, packUnsigned_isOk, and_assoc]
    case fxu => rintro rfl rfl rfl -; rfl
  | fixs base exp =>
    cases v <;> simp [fieldEncode, encodeFixs_eq_ok, valueFits, packSigned_isOk, and_assoc]
    case fxs => rintro rfl rfl rfl; rfl

theorem length_packUnsigned {w : Nat} {n : Int} {p : List Bool} (h : packUnsigned w n = .ok p) :
    p.length = w := by
  obtain ⟨-, rfl⟩ := packUnsigned_eq_ok.1 h
  exact length_bitsOf w _

theorem length_packSigned {w : Nat} {i : Int} {p : List Bool} (h : packSigned w i = .ok p) :
    p.length = w := by
  obtain ⟨-, rfl⟩ := packSigned_eq_ok.1 h
  exact length_bitsOf w _

/-- A pattern is as wide as its field (R203, R256). -/
theorem length_fieldEncode {f : FieldDesc} {v : FieldValue} {p : List Bool}
    (h : fieldEncode f v = .ok p) : p.length = fieldWidth f := by
  obtain ⟨name, kind, w⟩ := f
  cases kind with
  | uint => obtain ⟨n, -, hp⟩ := encodeUint_eq_ok.1 h; exact length_packUnsigned hp
  | sint => obtain ⟨i, -, hp⟩ := encodeSint_eq_ok.1 h; exact length_packSigned hp
  | f32 => obtain ⟨b, -, hp⟩ := encodeF32_eq_ok.1 h; exact length_packUnsigned hp
  | f64 => obtain ⟨b, -, hp⟩ := encodeF64_eq_ok.1 h; exact length_packUnsigned hp
  | blob =>
    obtain ⟨bs, -, hlen, rfl⟩ := encodeBlob_eq_ok.1 h
    exact (length_bitsOfBytes bs).trans (congrArg (8 * ·) hlen)
  | enum set => obtain ⟨n, -, -, rfl⟩ := encodeEnum_eq_ok.1 h; exact length_bitsOf w n
  | flags => obtain ⟨n, -, hp⟩ := encodeFlags_eq_ok.1 h; exact length_packUnsigned hp
  | fixu base exp => obtain ⟨n, -, hp⟩ := encodeFixu_eq_ok.1 h; exact length_packUnsigned hp
  | fixs base exp => obtain ⟨i, -, hp⟩ := encodeFixs_eq_ok.1 h; exact length_packSigned hp

theorem packUnsigned_error {w : Nat} {n : Int} {e : StatusCode} (h : packUnsigned w n = .error e) :
    e = .eEncRange := by
  unfold packUnsigned at h
  split at h <;> cases h
  rfl

theorem packSigned_error {w : Nat} {i : Int} {e : StatusCode} (h : packSigned w i = .error e) :
    e = .eEncRange := by
  unfold packSigned at h
  split at h <;> cases h
  rfl

/-! ### A field list -/

/-- A list of sound fields decodes to values exactly where the values encode to the bits that stand
there. -/
theorem unpackFields_eq_ok_iff {fs : List FieldDesc} {body : List Byte} {o : Nat}
    {vals : List FieldValue} (hfs : ∀ f ∈ fs, FieldSound f) :
    unpackFields fs body o = .ok (vals, o + widthSum fs) ↔
      packFields fs vals = .ok (bodyBits body o (widthSum fs)) := by
  induction fs generalizing o vals with
  | nil => cases vals <;> simp [unpackFields, packFields, widthSum, bodyBits]
  | cons f fs ih =>
    obtain ⟨hf, hfs⟩ := List.forall_mem_cons.1 hfs
    cases vals with
    | nil => simp [unpackFields_cons_ok, packFields]
    | cons v vs =>
      rw [unpackFields_cons_ok, packFields_cons_ok, widthSum, ← Nat.add_assoc, bodyBits_add]
      constructor
      · rintro ⟨v', vs', hv, hvs, heq⟩
        cases heq
        exact ⟨_, _, (fieldDecode_eq_ok_iff hf).1 hv, (ih hfs).1 hvs, rfl⟩
      · rintro ⟨b, rest, hv, hvs, hbits⟩
        have hlen : (bodyBits body o (fieldWidth f)).length = b.length := by
          rw [length_bodyBits, length_fieldEncode hv]
        obtain ⟨rfl, rfl⟩ := List.append_inj hbits hlen
        exact ⟨v, vs, (fieldDecode_eq_ok_iff hf).2 hv, (ih hfs).2 hvs, rfl⟩

theorem packFields_isOk {fs : List FieldDesc} {vals : List FieldValue} :
    (∃ p, packFields fs vals = .ok p) ↔ valuesFit fs vals = true := by
  induction fs generalizing vals with
  | nil => cases vals <;> simp [packFields, valuesFit]
  | cons f fs ih =>
    cases vals with
    | nil => simp [packFields, valuesFit]
    | cons v vs =>
      rw [valuesFit, Bool.and_eq_true, ← fieldEncode_isOk, ← ih]
      simp only [packFields_cons_ok]
      exact ⟨fun ⟨_, b, rest, hb, hrest, _⟩ => ⟨⟨b, hb⟩, rest, hrest⟩,
        fun ⟨⟨b, hb⟩, rest, hrest⟩ => ⟨_, b, rest, hb, hrest, rfl⟩⟩

theorem length_packFields {fs : List FieldDesc} {vals : List FieldValue} {p : List Bool}
    (h : packFields fs vals = .ok p) : p.length = widthSum fs := by
  induction fs generalizing vals p with
  | nil => cases vals <;> cases h; rfl
  | cons f fs ih =>
    cases vals with
    | nil => cases h
    | cons v vs =>
      obtain ⟨b, rest, hb, hrest, rfl⟩ := packFields_cons_ok.1 h
      rw [List.length_append, length_fieldEncode hb, ih hrest, widthSum]

theorem length_of_valuesFit {fs : List FieldDesc} {vals : List FieldValue}
    (h : valuesFit fs vals = true) : vals.length = fs.length := by
  obtain ⟨p, hp⟩ := packFields_isOk.2 h
  obtain ⟨pats, ⟨hlen, -⟩, -⟩ := packFields_ok_iff.1 hp
  exact hlen

theorem valuesFit_of_unpackFields {fs : List FieldDesc} {body : List Byte} {o o' : Nat}
    {vals : List FieldValue} (hfs : ∀ f ∈ fs, FieldSound f)
    (h : unpackFields fs body o = .ok (vals, o')) : valuesFit fs vals = true := by
  obtain rfl := unpackFields_offset h
  exact packFields_isOk.1 ⟨_, (unpackFields_eq_ok_iff hfs).1 h⟩

theorem valuesFit_of_unpackItems {sub : List FieldDesc} {body : List Byte} {n o : Nat}
    {items : List (List FieldValue)} (hsub : ∀ f ∈ sub, FieldSound f)
    (h : unpackItems sub body n o = .ok items) : items.all (valuesFit sub) = true := by
  induction n generalizing o items with
  | zero => cases h; rfl
  | succ n ih =>
    obtain ⟨iv, o', rest, hfirst, hrest, rfl⟩ := unpackItems_succ_ok.1 h
    rw [List.all_cons, valuesFit_of_unpackFields hsub hfirst, ih hrest]
    rfl

/-! ### Layouts -/

/-- What a sound layout decodes fits it (R240, R241, R254). -/
theorem messageFits_of_decodeLayout {t : Byte} {lay : Layout} {body : List Byte} {m : MsgValue}
    (hlay : LayoutSound lay) (h : decodeLayout t lay body = .ok m) : messageFits lay m = true := by
  cases lay with
  | fixed fields bits =>
    obtain ⟨hfields, -⟩ := hlay
    obtain ⟨-, vals, o, hread, rfl⟩ := decodeLayout_fixed_ok.1 h
    exact valuesFit_of_unpackFields hfields hread
  | array header headerBits countIdx sub subBits =>
    obtain ⟨hheader, hsub, -⟩ := hlay
    obtain ⟨-, -, hv, o, items, hread, hcount, hitems, rfl⟩ := decodeArray_ok.1 h
    obtain ⟨hlen, -⟩ := unpackItems_ok_iff.1 hitems
    show (valuesFit header hv && items.all (valuesFit sub)
      && countOf hv countIdx == some (items.length : Int)) = true
    rw [valuesFit_of_unpackFields hheader hread, valuesFit_of_unpackItems hsub hitems, hcount, hlen]
    simp

theorem messageTyped_of_decodeIn {c : Config} {t : Byte} {body : List Byte} {m : MsgValue}
    (hc : Legal c) (h : decodeIn c t body = .ok m) : messageTyped c m = true := by
  obtain ⟨lay, hlay, hdec⟩ := decodeIn_eq_ok.1 h
  rw [messageTyped, decodeLayout_type hdec, hlay]
  exact messageFits_of_decodeLayout (layoutSound_of_inLayout hc hlay) hdec

/-- On a sound FIXED layout, decode and encode are one relation between values and bodies (R268). -/
theorem decodeLayout_fixed_iff_encode {t : Byte} {fields : List FieldDesc} {bits : Nat}
    {vals : List FieldValue} {body : List Byte} (hlay : LayoutSound (.fixed fields bits)) :
    decodeLayout t (.fixed fields bits) body = .ok ⟨t, vals, none⟩ ↔
      packFields fields vals = .ok (bitsOfBytes body) := by
  obtain ⟨hfields, hsum, -⟩ := hlay
  rw [← widthSum_eq_sum] at hsum
  rw [decodeLayout_fixed_ok]
  constructor
  · rintro ⟨hlen, vals', o, hread, heq⟩
    cases heq
    obtain rfl := unpackFields_offset hread
    rw [← bodyBits_all, hlen, ← hsum]
    exact (unpackFields_eq_ok_iff hfields).1 hread
  · intro h
    have hlen := length_packFields h
    rw [length_bitsOfBytes] at hlen
    refine ⟨hlen.trans hsum, vals, 0 + widthSum fields, (unpackFields_eq_ok_iff hfields).2 ?_, rfl⟩
    rw [← hlen, bodyBits_all]
    exact h

/-- Under a legal configuration, what encodes has the declared length in bits (R267). -/
theorem encodeOut_ok_legal {c : Config} {t : Byte} {vals : List FieldValue} {bytes : List Byte}
    (hc : Legal c) (h : encodeOut c t vals = .ok bytes) :
    ∃ fields bits, outLayout c t = some (.fixed fields bits) ∧ LayoutSound (.fixed fields bits) ∧
      packFields fields vals = .ok (bitsOfBytes bytes) ∧ 8 * bytes.length = bits := by
  obtain ⟨fields, bits, pattern, hout, -, hpack, rfl⟩ := encodeOut_ok.1 h
  obtain ⟨hlay, -⟩ := layoutSound_of_outLayout hc hout
  have ⟨_, hsum, hwhole, _⟩ := hlay
  have hlen : pattern.length = bits := by rw [length_packFields hpack, widthSum_eq_sum, hsum]
  have hpattern : pattern.length % 8 = 0 := hlen ▸ hwhole
  exact ⟨fields, bits, hout, hlay, by rw [bitsOfBytes_bytesOf hpattern]; exact hpack,
    (length_bytesOf hpattern).trans hlen⟩

end Sys2Proof.Machine
end

section
/-! SUPPORT. A field row as an instruction: one descriptor applied to a body or to a value, and the outcome
of each kind (42_codec.md R245 to R266, 30_encoding.md R111, R112). -/

namespace Sys2Proof.Machine

/-! ### Every row is one application of its descriptor -/

theorem exec_fieldInstr (k : KindCode) (d : DescBits) (op : FieldOp) (s : State) :
    exec (fieldInstr k d op) s = applyDescriptor k d op s := by
  cases k <;> rfl

theorem exec_fieldInstr_of_ok {k : KindCode} {d : DescBits} {op : FieldOp} {s : State}
    {f : FieldDesc} (hd : descOf s.cfg.enumSets k d = .ok f) :
    exec (fieldInstr k d op) s = applyField f op s := by
  simp [exec_fieldInstr, applyDescriptor, hd]

theorem exec_fieldInstr_of_error {k : KindCode} {d : DescBits} {op : FieldOp} {s : State}
    {c : CheckCode} (hd : descOf s.cfg.enumSets k d = .error c) :
    exec (fieldInstr k d op) s = .refused (.defectiveDescriptor c) := by
  simp [exec_fieldInstr, applyDescriptor, hd]

section
variable {k : KindCode} {d : DescBits} {s : State} {f : FieldDesc} {body : List Byte} {o : Nat}
  {v : FieldValue}

theorem exec_decode_of_ok (hd : descOf s.cfg.enumSets k d = .ok f)
    (hfit : o + fieldWidth f ≤ 8 * body.length) (h : fieldDecode f body o = .ok v) :
    exec (fieldInstr k d (.decode body o)) s = .next { s with out := .ok (.field v) } := by
  rw [exec_fieldInstr_of_ok hd, applyField, if_pos hfit, h]
  rfl

theorem exec_decode_of_error {e : StatusCode} (hd : descOf s.cfg.enumSets k d = .ok f)
    (hfit : o + fieldWidth f ≤ 8 * body.length) (h : fieldDecode f body o = .error e) :
    exec (fieldInstr k d (.decode body o)) s = .next { s with out := .status e } := by
  rw [exec_fieldInstr_of_ok hd, applyField, if_pos hfit, h]
  rfl

theorem exec_decode_past_body (hd : descOf s.cfg.enumSets k d = .ok f)
    (hpast : 8 * body.length < o + fieldWidth f) :
    exec (fieldInstr k d (.decode body o)) s = .refused .fieldPastBody := by
  rw [exec_fieldInstr_of_ok hd, applyField, if_neg hpast.not_ge]

theorem exec_encode_of_ok {p : List Bool} (hd : descOf s.cfg.enumSets k d = .ok f)
    (h : fieldEncode f v = .ok p) :
    exec (fieldInstr k d (.encode v)) s = .next { s with out := .ok (.bits p) } := by
  rw [exec_fieldInstr_of_ok hd, applyField, h]
  rfl

theorem exec_encode_of_error {e : StatusCode} (hd : descOf s.cfg.enumSets k d = .ok f)
    (h : fieldEncode f v = .error e) :
    exec (fieldInstr k d (.encode v)) s = .next { s with out := .status e } := by
  rw [exec_fieldInstr_of_ok hd, applyField, h]
  rfl

end

/-! ### The descriptor of a legal word (R112) -/

/-- The record that the bits of a word stand for, before any check. -/
def rawDesc (sets : List (List Nat)) (k : KindCode) (d : DescBits) : FieldDesc :=
  ⟨"", kindOf sets k d, d.size.toNat⟩

theorem descOf_eq_ok_iff {sets : List (List Nat)} {k : KindCode} {d : DescBits} {f : FieldDesc} :
    descOf sets k d = .ok f ↔
      unusedBitsZero k d = true ∧ FieldSound (rawDesc sets k d) ∧ f = rawDesc sets k d := by
  rw [← fieldCheck_eq_none, descOf, rawDesc]
  by_cases hu : unusedBitsZero k d = true
  · rw [if_pos hu]
    cases fieldCheck ⟨"", kindOf sets k d, d.size.toNat⟩ <;> simp [hu, eq_comm]
  · simp [hu]

theorem descOf_eq_error_iff {sets : List (List Nat)} {k : KindCode} {d : DescBits} {c : CheckCode} :
    descOf sets k d = .error c ↔
      (unusedBitsZero k d = false ∧ c = .i3) ∨
        (unusedBitsZero k d = true ∧ fieldCheck (rawDesc sets k d) = some c) := by
  rw [descOf, rawDesc]
  by_cases hu : unusedBitsZero k d = true
  · rw [if_pos hu]
    cases fieldCheck ⟨"", kindOf sets k d, d.size.toNat⟩ <;> simp [hu]
  · simp [hu, eq_comm]

theorem descOf_of_sound {sets : List (List Nat)} {k : KindCode} {d : DescBits}
    (hunused : unusedBitsZero k d = true) (hsound : FieldSound (rawDesc sets k d)) :
    descOf sets k d = .ok (rawDesc sets k d) :=
  descOf_eq_ok_iff.2 ⟨hunused, hsound, rfl⟩

/-- BASE and EXP of a word are within the limits of R209, whatever its bits. -/
theorem scaleOk_of_bits (d : DescBits) : scaleOk (scaleBase d.base) d.aux.toInt := by
  have hlo := BitVec.le_toInt d.aux
  have hhi := BitVec.toInt_lt (x := d.aux)
  refine ⟨?_, by simpa using hlo, by omega⟩
  unfold scaleBase
  split
  · exact .inl rfl
  · exact .inr rfl

/-! ### What a field does not encode (R257 to R266) -/

theorem packUnsigned_of_not_fits {w : Nat} {n : Int} (h : ¬ fitsUnsigned w n) :
    packUnsigned w n = .error .eEncRange :=
  if_neg h

theorem packSigned_of_not_fits {w : Nat} {i : Int} (h : ¬ fitsSigned w i) :
    packSigned w i = .error .eEncRange :=
  if_neg h

@[simp] theorem encodeUint_same (w : Nat) (n : Int) :
    encodeUint w (.u w n) = packUnsigned w n :=
  if_pos rfl

@[simp] theorem encodeSint_same (w : Nat) (i : Int) :
    encodeSint w (.s w i) = packSigned w i :=
  if_pos rfl

@[simp] theorem encodeFlags_same (w : Nat) (n : Int) :
    encodeFlags w (.fl w n) = packUnsigned w n :=
  if_pos rfl

@[simp] theorem encodeFixu_same (w base : Nat) (exp n : Int) :
    encodeFixu w base exp (.fxu w n base exp) = packUnsigned w n :=
  if_pos ⟨rfl, rfl, rfl⟩

@[simp] theorem encodeFixs_same (w base : Nat) (exp i : Int) :
    encodeFixs w base exp (.fxs w i base exp) = packSigned w i :=
  if_pos ⟨rfl, rfl, rfl⟩

theorem encodeEnum_of_not_mem {w : Nat} {set : List Nat} {n : Int}
    (h : ∀ m ∈ set, n ≠ (m : Int)) : encodeEnum w set (.e w n) = .error .eEncRange := by
  have hnot : ¬ (0 ≤ n ∧ n.toNat ∈ set) :=
    fun ⟨hpos, hmem⟩ => h _ hmem (Int.toNat_of_nonneg hpos).symm
  simp [encodeEnum, hnot]

theorem encodeUint_of_shape {w : Nat} {v : FieldValue} (h : ∀ n, v ≠ .u w n) :
    encodeUint w v = .error .eEncShape := by
  cases v with
  | u w' n =>
    refine if_neg ?_
    rintro rfl
    exact h n rfl
  | _ => rfl

theorem encodeSint_of_shape {w : Nat} {v : FieldValue} (h : ∀ i, v ≠ .s w i) :
    encodeSint w v = .error .eEncShape := by
  cases v with
  | s w' i =>
    refine if_neg ?_
    rintro rfl
    exact h i rfl
  | _ => rfl

theorem encodeF32_of_shape {v : FieldValue} (h : ∀ b, v ≠ .f32 b) :
    encodeF32 v = .error .eEncShape := by
  cases v with
  | f32 b => exact absurd rfl (h b)
  | _ => rfl

theorem encodeF64_of_shape {v : FieldValue} (h : ∀ b, v ≠ .f64 b) :
    encodeF64 v = .error .eEncShape := by
  cases v with
  | f64 b => exact absurd rfl (h b)
  | _ => rfl

theorem encodeBlob_of_shape {k : Nat} {v : FieldValue} (h : ∀ bs, v ≠ .blob bs) :
    encodeBlob k v = .error .eEncShape := by
  cases v with
  | blob bs => exact absurd rfl (h bs)
  | _ => rfl

theorem encodeEnum_of_shape {w : Nat} {set : List Nat} {v : FieldValue} (h : ∀ n, v ≠ .e w n) :
    encodeEnum w set v = .error .eEncShape := by
  cases v with
  | e w' n =>
    refine if_neg ?_
    rintro rfl
    exact h n rfl
  | _ => rfl

theorem encodeFlags_of_shape {w : Nat} {v : FieldValue} (h : ∀ n, v ≠ .fl w n) :
    encodeFlags w v = .error .eEncShape := by
  cases v with
  | fl w' n =>
    refine if_neg ?_
    rintro rfl
    exact h n rfl
  | _ => rfl

theorem encodeFixu_of_shape {w base : Nat} {exp : Int} {v : FieldValue}
    (h : ∀ n, v ≠ .fxu w n base exp) : encodeFixu w base exp v = .error .eEncShape := by
  cases v with
  | fxu w' n base' exp' =>
    refine if_neg ?_
    rintro ⟨rfl, rfl, rfl⟩
    exact h n rfl
  | _ => rfl

theorem encodeFixs_of_shape {w base : Nat} {exp : Int} {v : FieldValue}
    (h : ∀ i, v ≠ .fxs w i base exp) : encodeFixs w base exp v = .error .eEncShape := by
  cases v with
  | fxs w' i base' exp' =>
    refine if_neg ?_
    rintro ⟨rfl, rfl, rfl⟩
    exact h i rfl
  | _ => rfl

/-- A tag or width test comes first, and gives E_ENC_SHAPE (R257). -/
theorem code_of_shape_test {test : Prop} [Decidable test] {r : Except StatusCode (List Bool)}
    {e : StatusCode} (h : (if test then r else .error .eEncShape) = .error e)
    (hr : r = .error e → e = .eEncRange) : e = .eEncShape ∨ e = .eEncRange := by
  split at h
  · exact .inr (hr h)
  · cases h; exact .inl rfl

theorem code_of_range_test {test : Prop} [Decidable test] {p : List Bool} {e : StatusCode}
    (h : (if test then .ok p else .error .eEncRange : Except StatusCode (List Bool)) = .error e) :
    e = .eEncRange := by
  split at h <;> cases h
  rfl

/-- The two codes of the field encoders (R257 to R266). -/
theorem fieldEncode_error {f : FieldDesc} {v : FieldValue} {e : StatusCode}
    (h : fieldEncode f v = .error e) : e = .eEncShape ∨ e = .eEncRange := by
  obtain ⟨name, kind, w⟩ := f
  have hshape : (.error .eEncShape : Except StatusCode (List Bool)) = .error e →
      e = .eEncShape ∨ e = .eEncRange := fun h => .inl (Except.error.inj h).symm
  cases kind with
  | uint =>
    cases v with
    | u w' n => exact code_of_shape_test h packUnsigned_error
    | _ => exact hshape h
  | sint =>
    cases v with
    | s w' i => exact code_of_shape_test h packSigned_error
    | _ => exact hshape h
  | f32 =>
    cases v with
    | f32 b => exact .inr (packUnsigned_error h)
    | _ => exact hshape h
  | f64 =>
    cases v with
    | f64 b => exact .inr (packUnsigned_error h)
    | _ => exact hshape h
  | blob =>
    cases v with
    | blob bs => exact .inr (code_of_range_test h)
    | _ => exact hshape h
  | enum set =>
    cases v with
    | e w' n => exact code_of_shape_test h code_of_range_test
    | _ => exact hshape h
  | flags =>
    cases v with
    | fl w' n => exact code_of_shape_test h packUnsigned_error
    | _ => exact hshape h
  | fixu base exp =>
    cases v with
    | fxu w' n base' exp' => exact code_of_shape_test h packUnsigned_error
    | _ => exact hshape h
  | fixs base exp =>
    cases v with
    | fxs w' i base' exp' => exact code_of_shape_test h packSigned_error
    | _ => exact hshape h

end Sys2Proof.Machine
end

section
/-! PROOFS. The statements about the Message Codec Engine (42_codec.md R240 to R268). -/

namespace Sys2Proof.Machine

/-- Settles O50: on a sound FIXED layout `DecodeIn` and `EncodeOut` are one relation between values and
bodies, so each direction is the other one read backwards. -/
theorem symmetricTypesRoundTrip : Obligations.SymmetricTypesRoundTrip := by
  unfold Obligations.SymmetricTypesRoundTrip
  intro c t fields bits hc hin hout
  have hlay := layoutSound_of_inLayout hc hin
  refine ⟨fun vals bytes henc => ?_, fun vals body hdec => ?_⟩
  · obtain ⟨fields', bits', hout', -, hpack, -⟩ := encodeOut_ok_legal hc henc
    cases hout.symm.trans hout'
    rw [decodeIn_of_inLayout bytes hin]
    exact (decodeLayout_fixed_iff_encode hlay).2 hpack
  · rw [decodeIn_of_inLayout body hin, decodeLayout_fixed_iff_encode hlay] at hdec
    obtain ⟨pats, ⟨hlen, -⟩, -⟩ := packFields_ok_iff.1 hdec
    exact encodeOut_ok.2 ⟨fields, bits, _, hout, hlen, hdec, (bytesOf_bitsOfBytes body).symm⟩

/-- Settles O49, from the widths of the patterns and checks I1 and I2. -/
theorem encodedLengthIsDeclaredLength : Obligations.EncodedLengthIsDeclaredLength := by
  unfold Obligations.EncodedLengthIsDeclaredLength
  intro c t vals bytes hc henc
  obtain ⟨fields, bits, hout, ⟨-, -, -, hbound⟩, -, hlen⟩ := encodeOut_ok_legal hc henc
  exact ⟨fields, bits, hout, by omega, hlen, by omega⟩

/-- Settles O46. Legality enters for the types (the checks on the fields) and for the items of an array,
which begin where the header's declared width ends (check I1). -/
theorem decodedMessagesFitTheirLayout : Obligations.DecodedMessagesFitTheirLayout := by
  unfold Obligations.DecodedMessagesFitTheirLayout
  refine ⟨fun c t body m hc h => ?typed, fun c t fields bits body vals hlay hlen hread => ?fixed,
    fun c t header sub hb ci sb w body hv items hc hlay hlen hrem hread hcount hitems hall =>
      ?array,
    fun s k d f body o hd hfit => ⟨fun v h => exec_decode_of_ok hd hfit h,
      fun e h => exec_decode_of_error hd hfit h⟩⟩
  case typed =>
    obtain ⟨lay, -, hdec⟩ := decodeIn_eq_ok.1 h
    exact ⟨decodeLayout_type hdec, messageTyped_of_decodeIn hc h⟩
  case fixed =>
    rw [decodeIn_of_inLayout body hlay, decodeLayout_fixed_ok]
    exact ⟨hlen, vals, _, unpackFields_ok_iff.2 ⟨hread, rfl⟩, rfl⟩
  case array =>
    obtain ⟨rfl, rfl⟩ := layoutErrors_array_widths (layoutErrors_of_inLayout hc hlay)
    have hheader : unpackFields header body 0 = .ok (hv, widthSum header) :=
      unpackFields_ok_iff.2 ⟨hread, (Nat.zero_add _).symm⟩
    rw [decodeIn_of_inLayout body hlay, decodeLayout, decodeArray_ok]
    refine ⟨hlen, hrem, hv, _, items, hheader, ?_, unpackItems_ok_iff.2 ⟨hitems, hall⟩, rfl⟩
    rw [← hitems]
    exact countOf_of_uint hcount

theorem encodeOut_of_outLayout_none {c : Config} {t : Byte} (vals : List FieldValue)
    (h : outLayout c t = none) : encodeOut c t vals = .error .eEncNoLayout := by
  simp [encodeOut, h]

/-- Behind the look-up, the length of the list is tested and the fields are packed (R256). -/
theorem encodeOut_of_fixed {c : Config} {t : Byte} {fields : List FieldDesc} {bits : Nat}
    {vals : List FieldValue} (hout : outLayout c t = some (.fixed fields bits)) :
    encodeOut c t vals =
      if vals.length = fields.length then (packFields fields vals).map bytesOf
      else .error .eEncShape := by
  rw [encodeOut, hout]
  by_cases hlen : vals.length = fields.length
  · cases hp : packFields fields vals <;> simp [encodeLayout, hlen, hp, Except.map]
  · simp [encodeLayout, hlen]

/-- Settles O48: a list encodes exactly where each value fits its field, and the code of a list that does
not is the first test that fails. -/
theorem encodeAcceptsExactlyTheFittingLists : Obligations.EncodeAcceptsExactlyTheFittingLists := by
  unfold Obligations.EncodeAcceptsExactlyTheFittingLists
  refine ⟨fun c t fields bits vals _ hout => ⟨?accepted, ?accepts⟩,
    fun c t vals hout => encodeOut_of_outLayout_none vals hout,
    fun c t fields bits vals hout => ⟨?length, ?patterns, ?firstFailure⟩,
    fun f v e h => fieldEncode_error h,
    fun s k d f v hd => ⟨fun p h => exec_encode_of_ok hd h, fun e h => exec_encode_of_error hd h⟩⟩
  case accepted =>
    rintro ⟨bytes, henc⟩
    obtain ⟨fields', bits', p, hout', -, hpack, -⟩ := encodeOut_ok.1 henc
    cases hout.symm.trans hout'
    exact packFields_isOk.1 ⟨p, hpack⟩
  case accepts =>
    intro hfit
    obtain ⟨p, hpack⟩ := packFields_isOk.2 hfit
    exact ⟨bytesOf p, encodeOut_ok.2
      ⟨fields, bits, p, hout, length_of_valuesFit hfit, hpack, rfl⟩⟩
  case length =>
    intro hne
    rw [encodeOut_of_fixed hout, if_neg hne]
  case patterns =>
    intro pats hpats
    have ⟨hlen, _⟩ := hpats
    rw [encodeOut_of_fixed hout, if_pos hlen, packFields_ok_iff.2 ⟨pats, hpats, rfl⟩]
    rfl
  case firstFailure =>
    intro e hlen hfail
    rw [encodeOut_of_fixed hout, if_pos hlen, packFields_error hlen hfail]
    rfl

end Sys2Proof.Machine
end

section
/-! PROOFS. The statements about the field rows (42_codec.md R245 to R266). -/

namespace Sys2Proof.Machine

/-- A kind without AUX, BASE and EXP leaves those bits 0 (30_encoding.md R112). -/
theorem unusedBitsZero_plain {k : KindCode} {d : DescBits} (haux : d.aux = 0) (hbase : d.base = 0)
    (hrsvd : d.rsvd = 0) : unusedBitsZero k d = true := by
  cases k <;> simp [unusedBitsZero, haux, hbase, hrsvd]

/-- The descriptor of a legal word of a kind that has a width alone. -/
theorem descOf_plain {sets : List (List Nat)} {k : KindCode} {d : DescBits} (haux : d.aux = 0)
    (hbase : d.base = 0) (hrsvd : d.rsvd = 0) (hsound : FieldSound (rawDesc sets k d)) :
    descOf sets k d = .ok (rawDesc sets k d) :=
  descOf_of_sound (unusedBitsZero_plain haux hbase hrsvd) hsound

/-- UINT, SINT and FLAGS have a width alone, and check I3 is about that width (R209). -/
theorem descOf_width {sets : List (List Nat)} {k : KindCode} {d : DescBits}
    (hk : k = .uint ∨ k = .sint ∨ k = .flags) (hlo : 1 ≤ d.size.toNat) (hhi : d.size.toNat ≤ 64)
    (haux : d.aux = 0) (hbase : d.base = 0) (hrsvd : d.rsvd = 0) :
    descOf sets k d = .ok (rawDesc sets k d) := by
  refine descOf_plain haux hbase hrsvd ?_
  obtain rfl | rfl | rfl := hk <;> exact ⟨hlo, hhi⟩

/-- Settles O51: both kinds hold an unsigned pattern, and differ in their tag. -/
theorem unsignedFieldRows : Obligations.UnsignedFieldRows := by
  unfold Obligations.UnsignedFieldRows
  refine ⟨fun s d body o hlo hhi haux hbase hrsvd hfit => ?decode,
    fun s d n hlo hhi haux hbase hrsvd => ⟨fun hpos hlt => ?inRange, fun hout => ?outOfRange⟩,
    fun s d v hlo hhi haux hbase hrsvd => ⟨fun hv => ?uintShape, fun hv => ?flagsShape⟩⟩
  case decode =>
    exact ⟨exec_decode_of_ok (descOf_width (.inl rfl) hlo hhi haux hbase hrsvd) hfit rfl,
      exec_decode_of_ok (descOf_width (.inr (.inr rfl)) hlo hhi haux hbase hrsvd) hfit rfl⟩
  case inRange =>
    have hpack := packUnsigned_eq_ok.2 ⟨⟨hpos, hlt⟩, rfl⟩
    exact ⟨exec_encode_of_ok (descOf_width (.inl rfl) hlo hhi haux hbase hrsvd)
        ((encodeUint_same _ n).trans hpack),
      exec_encode_of_ok (descOf_width (.inr (.inr rfl)) hlo hhi haux hbase hrsvd)
        ((encodeFlags_same _ n).trans hpack)⟩
  case outOfRange =>
    have hpack := packUnsigned_of_not_fits hout
    exact ⟨exec_encode_of_error (descOf_width (.inl rfl) hlo hhi haux hbase hrsvd)
        ((encodeUint_same _ n).trans hpack),
      exec_encode_of_error (descOf_width (.inr (.inr rfl)) hlo hhi haux hbase hrsvd)
        ((encodeFlags_same _ n).trans hpack)⟩
  case uintShape =>
    exact exec_encode_of_error (descOf_width (.inl rfl) hlo hhi haux hbase hrsvd)
      (encodeUint_of_shape hv)
  case flagsShape =>
    exact exec_encode_of_error (descOf_width (.inr (.inr rfl)) hlo hhi haux hbase hrsvd)
      (encodeFlags_of_shape hv)

/-- Settles O52: the decoded integer is the two's-complement reading, and the range is that of the
width. -/
theorem signedFieldRow : Obligations.SignedFieldRow := by
  unfold Obligations.SignedFieldRow
  intro s d hlo hhi haux hbase hrsvd
  have hd : descOf s.cfg.enumSets .sint d = .ok (rawDesc s.cfg.enumSets .sint d) :=
    descOf_width (.inr (.inl rfl)) hlo hhi haux hbase hrsvd
  refine ⟨fun body o hfit => ?_, fun i hmin hmax => ?_, fun i hout => ?_, fun v hv => ?_⟩
  · obtain ⟨⟨hmin, hmax⟩, hmod⟩ := sext_spec hlo (bitRead_lt body o d.size.toNat)
    exact ⟨_, exec_decode_of_ok hd hfit rfl, hmin, hmax, hmod⟩
  · exact exec_encode_of_ok hd
      ((encodeSint_same _ i).trans (packSigned_eq_ok.2 ⟨⟨hmin, hmax⟩, rfl⟩))
  · exact exec_encode_of_error hd ((encodeSint_same _ i).trans (packSigned_of_not_fits hout))
  · exact exec_encode_of_error hd (encodeSint_of_shape hv)

/-- Settles O53: the two words are the only legal ones of their kinds. -/
theorem floatFieldRows : Obligations.FloatFieldRows := by
  unfold Obligations.FloatFieldRows
  rintro s _ _ rfl rfl
  have h32 : descOf s.cfg.enumSets .f32 ⟨32, 0, 0, 0⟩ = .ok ⟨"", .f32, 32⟩ := rfl
  have h64 : descOf s.cfg.enumSets .f64 ⟨64, 0, 0, 0⟩ = .ok ⟨"", .f64, 64⟩ := rfl
  have hfits (w p : Nat) (hp : p < 2 ^ w) : packUnsigned w p = .ok (bitsOf w p) :=
    packUnsigned_eq_ok.2 ⟨⟨Int.natCast_nonneg p, by exact_mod_cast hp⟩, rfl⟩
  have hout (w : Nat) (p : Int) (hp : p < 0 ∨ 2 ^ w ≤ p) :
      packUnsigned w p = .error .eEncRange :=
    packUnsigned_of_not_fits fun ⟨hpos, hlt⟩ => hp.elim hpos.not_gt hlt.not_ge
  refine ⟨fun body o => ⟨fun hfit => ?_, fun hfit => ?_⟩, fun p => ⟨fun hp => ?_, fun hp => ?_⟩,
    fun p => ⟨fun hp => ?_, fun hp => ?_⟩, fun v => ⟨fun hv => ?_, fun hv => ?_⟩⟩
  · exact exec_decode_of_ok h32 hfit rfl
  · exact exec_decode_of_ok h64 hfit rfl
  · exact exec_encode_of_ok h32 (hfits 32 p hp)
  · exact exec_encode_of_ok h64 (hfits 64 p hp)
  · exact exec_encode_of_error h32 (hout 32 p hp)
  · exact exec_encode_of_error h64 (hout 64 p hp)
  · exact exec_encode_of_error h32 (encodeF32_of_shape hv)
  · exact exec_encode_of_error h64 (encodeF64_of_shape hv)

/-- Settles O54. A 12-bit SIZE is at most 4095, so check I3 asks for a SIZE that is not 0. -/
theorem blobFieldRow : Obligations.BlobFieldRow := by
  unfold Obligations.BlobFieldRow
  intro s d hlo haux hbase hrsvd
  have hd : descOf s.cfg.enumSets .blob d = .ok (rawDesc s.cfg.enumSets .blob d) :=
    descOf_plain haux hbase hrsvd ⟨hlo, Nat.le_of_lt_succ d.size.isLt⟩
  refine ⟨fun body o hfit => ?_, fun bs hlen => ?_, fun bs hlen => ?_, fun v hv => ?_⟩
  · exact ⟨_, exec_decode_of_ok hd hfit rfl, length_readBytes body o _,
      fun j hj => getD_readBytes hj⟩
  · rw [← bitsOfBytes_eq_flatMap]
    exact exec_encode_of_ok hd (encodeBlob_eq_ok.2 ⟨bs, rfl, hlen, rfl⟩)
  · exact exec_encode_of_error hd (if_neg hlen)
  · exact exec_encode_of_error hd (encodeBlob_of_shape hv)

/-- Settles O55: the set of the record is the one that AUX names. -/
theorem enumFieldRow : Obligations.EnumFieldRow := by
  unfold Obligations.EnumFieldRow
  intro s d set hlo hhi hbase hrsvd hset hne hmembers
  have hkind : kindOf s.cfg.enumSets .enum d = .enum set := by
    simp [kindOf, enumSetOf, List.getD_eq_getElem?_getD, hset]
  have hd : descOf s.cfg.enumSets .enum d = .ok ⟨"", .enum set, d.size.toNat⟩ := by
    rw [← hkind]
    refine descOf_of_sound (by simp [unusedBitsZero, hbase, hrsvd]) ?_
    rw [rawDesc, hkind]
    exact ⟨hlo, hhi, hne, hmembers⟩
  refine ⟨fun body o hfit => ⟨fun hmem => ?_, fun hmem => ?_⟩, fun n hn => ?_, fun n hn => ?_,
    fun v hv => ?_⟩
  · exact exec_decode_of_ok hd hfit (if_pos hmem)
  · exact exec_decode_of_error hd hfit (if_neg hmem)
  · exact exec_encode_of_ok hd (encodeEnum_eq_ok.2 ⟨n, rfl, hn, rfl⟩)
  · exact exec_encode_of_error hd (encodeEnum_of_not_mem hn)
  · exact exec_encode_of_error hd (encodeEnum_of_shape hv)

/-- Settles O56: BASE and EXP of a word are always within the limits of check I3. -/
theorem fixedPointFieldRows : Obligations.FixedPointFieldRows := by
  unfold Obligations.FixedPointFieldRows
  rintro s d _ _ hlo hhi hrsvd rfl rfl
  have hunsigned : descOf s.cfg.enumSets .fixu d = .ok (rawDesc s.cfg.enumSets .fixu d) :=
    descOf_of_sound (by simp [unusedBitsZero, hrsvd]) ⟨hlo, hhi, scaleOk_of_bits d⟩
  have hsigned : descOf s.cfg.enumSets .fixs d = .ok (rawDesc s.cfg.enumSets .fixs d) :=
    descOf_of_sound (by simp [unusedBitsZero, hrsvd]) ⟨hlo, hhi, scaleOk_of_bits d⟩
  refine ⟨fun body o hfit => ⟨?decodeUnsigned, ?decodeSigned⟩, fun n hpos hlt => ?_,
    fun n hout => ?_, fun i hmin hmax => ?_, fun i hout => ?_,
    fun v => ⟨fun hv => ?_, fun hv => ?_⟩⟩
  case decodeUnsigned => exact exec_decode_of_ok hunsigned hfit rfl
  case decodeSigned =>
    obtain ⟨⟨hmin, hmax⟩, hmod⟩ := sext_spec hlo (bitRead_lt body o d.size.toNat)
    exact ⟨_, exec_decode_of_ok hsigned hfit rfl, hmin, hmax, hmod⟩
  · exact exec_encode_of_ok hunsigned
      ((encodeFixu_same _ _ _ n).trans (packUnsigned_eq_ok.2 ⟨⟨hpos, hlt⟩, rfl⟩))
  · exact exec_encode_of_error hunsigned
      ((encodeFixu_same _ _ _ n).trans (packUnsigned_of_not_fits hout))
  · exact exec_encode_of_ok hsigned
      ((encodeFixs_same _ _ _ i).trans (packSigned_eq_ok.2 ⟨⟨hmin, hmax⟩, rfl⟩))
  · exact exec_encode_of_error hsigned
      ((encodeFixs_same _ _ _ i).trans (packSigned_of_not_fits hout))
  · exact exec_encode_of_error hunsigned (encodeFixu_of_shape hv)
  · exact exec_encode_of_error hsigned (encodeFixs_of_shape hv)

end Sys2Proof.Machine
end

section
/-! SUPPORT. Defective descriptor words: which check they fail, what record they become in a registry, and
that the registry which holds one is refused for it (30_encoding.md R111, R112, 41_registry.md R209,
R210, R213). -/

namespace Sys2Proof.Machine

/-! ### The check that a defective word fails -/

/-- The bits that the packing leaves 0: AUX belongs to three kinds, and BASE to two of them. -/
theorem bits_of_unusedBitsZero {k : KindCode} {d : DescBits} (h : unusedBitsZero k d = true) :
    d.rsvd = 0 ∧ (k = .fixu ∨ k = .fixs ∨ d.base = 0) ∧
      (k = .fixu ∨ k = .fixs ∨ k = .enum ∨ d.aux = 0) := by
  cases k with
  | enum =>
    obtain ⟨hbase, hrsvd⟩ : d.base = 0 ∧ d.rsvd = 0 := by simpa [unusedBitsZero] using h
    exact ⟨hrsvd, .inr (.inr hbase), by simp⟩
  | fixu | fixs => exact ⟨by simpa [unusedBitsZero] using h, by simp, by simp⟩
  | _ =>
    obtain ⟨⟨haux, hbase⟩, hrsvd⟩ : (d.aux = 0 ∧ d.base = 0) ∧ d.rsvd = 0 := by
      simpa [unusedBitsZero] using h
    exact ⟨hrsvd, .inr (.inr hbase), .inr (.inr (.inr haux))⟩

/-- A size out of the range of its kind fails check I3 (R209), also for an ENUM that fails I4 as well
(log 9). -/
theorem fieldCheck_of_size {sets : List (List Nat)} {k : KindCode} {d : DescBits} {size : Nat}
    (h : size = 0 ∨ (k = .f32 ∧ size ≠ 32) ∨ (k = .f64 ∧ size ≠ 64) ∨ (k ≠ .blob ∧ 64 < size)) :
    fieldCheck ⟨"", kindOf sets k d, size⟩ = some .i3 := by
  have hwidth (hk : k ≠ .f32 ∧ k ≠ .f64 ∧ k ≠ .blob) : ¬ widthOk size := by
    simp only [hk, false_and, false_or, not_false_eq_true, true_and, ne_eq] at h
    unfold widthOk
    omega
  cases k with
  | f32 =>
    have hne : size ≠ 32 := by simp at h; omega
    exact if_neg hne
  | f64 =>
    have hne : size ≠ 64 := by simp at h; omega
    exact if_neg hne
  | blob =>
    have hzero : size = 0 := by simpa using h
    exact if_neg fun ⟨hlo, _⟩ => absurd hzero (Nat.ne_of_gt hlo)
  | uint | sint | enum | flags => exact if_neg (hwidth (by decide))
  | fixu | fixs => exact if_neg fun hok => hwidth (by decide) hok.1

/-- An ENUM of a legal width whose set is missing, empty or too wide fails check I4 (R210, log 10). -/
theorem fieldCheck_of_enumSet {sets : List (List Nat)} {d : DescBits}
    (hwidth : widthOk d.size.toNat)
    (h : sets[d.aux.toNat]? = none ∨ sets[d.aux.toNat]? = some [] ∨
      ∃ set, sets[d.aux.toNat]? = some set ∧ ∃ v ∈ set, 2 ^ d.size.toNat ≤ v) :
    fieldCheck (rawDesc sets .enum d) = some .i4 := by
  have hset : ¬ (enumSetOf sets d.aux ≠ [] ∧ ∀ v ∈ enumSetOf sets d.aux, v < 2 ^ d.size.toNat) := by
    unfold enumSetOf
    rw [List.getD_eq_getElem?_getD]
    obtain h | h | ⟨set, h, v, hv, hwide⟩ := h <;> rw [h]
    · simp
    · simp
    · exact fun ⟨_, hall⟩ => absurd (hall v hv) hwide.not_gt
  exact (if_pos hwidth).trans (if_neg hset)

/-- KIND codes from 9 on are reserved (R111). -/
theorem kindOfCode_eq_none {k : BitVec 4} : kindOfCode k = none ↔ 9 ≤ k.toNat := by
  unfold kindOfCode
  split
  case h_10 => -- the default arm: `k` is none of the nine codes
    simp only [imp_false, true_iff] at *
    omega
  all_goals simp [*]

theorem kindField_toNat (w : Word) : (kindField w).toNat = w.toNat % 16 := by
  simp [kindField]

/-! ### The record of a word in a registry (log 11) -/

theorem recordOf_of_kind {sets : List (List Nat)} {w : Word} {k : KindCode}
    (hk : kindOfCode (kindField w) = some k) :
    recordOf sets w = ⟨"", kindOf sets k (descField w),
      if unusedBitsZero k (descField w) then (descField w).size.toNat else 0⟩ := by
  simp [recordOf, hk]

/-- The record of a word fails the check that the word fails. -/
theorem fieldCheck_recordOf {sets : List (List Nat)} {w : Word} {c : CheckCode}
    (h : unpackDescriptor sets w = .error c) : fieldCheck (recordOf sets w) = some c := by
  unfold unpackDescriptor at h
  cases hk : kindOfCode (kindField w) with
  | none =>
    rw [hk] at h
    cases h
    simp [recordOf, hk, fieldCheck]
  | some k =>
    rw [hk] at h
    rw [recordOf_of_kind hk]
    obtain ⟨hunused, rfl⟩ | ⟨hunused, hcheck⟩ := descOf_eq_error_iff.1 h
    · simpa [hunused] using fieldCheck_of_size (.inl rfl)
    · rw [if_pos hunused]
      exact hcheck

/-- The record of a word that passes is its descriptor. -/
theorem recordOf_of_ok {sets : List (List Nat)} {w : Word} {f : FieldDesc}
    (h : unpackDescriptor sets w = .ok f) : fieldCheck (recordOf sets w) = none ∧
      recordOf sets w = f := by
  obtain ⟨k, hk, hd⟩ := unpackDescriptor_ok.1 h
  obtain ⟨hunused, hsound, rfl⟩ := descOf_eq_ok_iff.1 hd
  have hrecord : recordOf sets w = rawDesc sets k (descField w) := by
    rw [recordOf_of_kind hk, if_pos hunused]
    rfl
  exact ⟨hrecord ▸ fieldCheck_eq_none.2 hsound, hrecord⟩

/-! ### A defective word in slot 0x00 (log 4) -/

/-- Slot 0x00 comes first, so a legal registry with another entry there is still in slot order. -/
theorem registrySorted_withSlotZero {c : Config} (hc : Legal c) (e : Entry) :
    registrySorted (withSlotZero c e).registry = true := by
  obtain ⟨-, -, hsorted, -⟩ := legal_iff.1 hc
  refine registrySorted_iff.2 (List.pairwise_cons.2 ⟨fun x hx => ?_, hsorted.filter _⟩)
  have hne : x.1 ≠ 0 := by simpa using List.of_mem_filter hx
  exact Nat.pos_of_ne_zero fun h => hne (BitVec.eq_of_toNat_eq h)

/-- A first field that fails a check is the first defect of its entry (log 9). -/
theorem entryErrors_fieldEntry {f : FieldDesc} {c : CheckCode} (h : fieldCheck f = some c) :
    ∃ more, entryErrors 0 (fieldEntry f) = ⟨0, some .inbound, some 0, c⟩ :: more := by
  simp [entryErrors, fieldEntry, errorUnless, outIsFixed, directionErrors, layoutErrors,
    fieldErrors, h, ackId, nackId]

/-- Placed over a legal configuration, it is the first defect of the whole. -/
theorem configDefects_withSlotZero {c : Config} {f : FieldDesc} {code : CheckCode} (hc : Legal c)
    (h : fieldCheck f = some code) :
    ∃ more, configDefects (withSlotZero c (fieldEntry f)) =
      .integrity ⟨0, some .inbound, some 0, code⟩ :: more := by
  obtain ⟨hbuf, hrxq, -⟩ := legal_iff.1 hc
  obtain ⟨more, hentry⟩ := entryErrors_fieldEntry h
  have hbuf' : 8 ≤ (withSlotZero c (fieldEntry f)).bufCap ∧
      (withSlotZero c (fieldEntry f)).bufCap < 2 ^ 32 := hbuf
  have hrxq' : 1 ≤ (withSlotZero c (fieldEntry f)).rxqDepth ∧
      (withSlotZero c (fieldEntry f)).rxqDepth < 2 ^ 32 := hrxq
  have herrors : registryErrors (withSlotZero c (fieldEntry f)).registry =
      ⟨0, some .inbound, some 0, code⟩ ::
        (more ++ registryErrors (c.registry.filter fun x => x.1 != 0)) := by
    rw [withSlotZero, registryErrors, hentry]
    rfl
  rw [configDefects, if_pos hbuf', if_pos hrxq', if_pos (registrySorted_withSlotZero hc _), herrors]
  exact ⟨_, rfl⟩

theorem step_of_configDefects {s : State} {d : ConfigDefect} {more : List ConfigDefect}
    (h : configDefects s.cfg = d :: more) : step s = .refused (.illegalConfig d) := by
  simp [step, h]

end Sys2Proof.Machine
end

section
/-! PROOFS. The statement about defective descriptor words (41_registry.md R209, R210, R213). -/

namespace Sys2Proof.Machine

/-- Settles O57. A word fails I3 for its unused bits before its size is looked at; in a registry it is
the first defect of the first slot. -/
theorem defectiveDescriptorsAreRefused : Obligations.DefectiveDescriptorsAreRefused := by
  unfold Obligations.DefectiveDescriptorsAreRefused
  refine ⟨fun s k d op h => exec_fieldInstr_of_error (descOf_eq_error_iff.2 ?i3),
    fun s d op hlo hhi hbase hrsvd h =>
      exec_fieldInstr_of_error (k := .enum) (descOf_eq_error_iff.2 (.inr ⟨?unused, ?i4⟩)),
    fun s k d f body o hd hpast => exec_decode_past_body hd hpast,
    fun sets w op h => ?reserved,
    fun sets w => ⟨fun c h => fieldCheck_recordOf h, fun f h => recordOf_of_ok h⟩,
    fun s w c hlegal h => ?registry⟩
  case i3 =>
    by_cases hunused : unusedBitsZero k d = true
    · refine .inr ⟨hunused, fieldCheck_of_size ?_⟩
      obtain ⟨hrsvd, hbase, haux⟩ := bits_of_unusedBitsZero hunused
      obtain h | ⟨hfixu, hfixs, h⟩ | ⟨hfixu, hfixs, henum, h⟩ | h | ⟨hk, h⟩ | ⟨hk, h⟩ | h := h
      · exact absurd hrsvd h
      · exact absurd ((hbase.resolve_left hfixu).resolve_left hfixs) h
      · exact absurd (((haux.resolve_left hfixu).resolve_left hfixs).resolve_left henum) h
      · exact .inl (congrArg BitVec.toNat h)
      · exact .inr (.inl ⟨hk, fun hsize => h (BitVec.eq_of_toNat_eq hsize)⟩)
      · exact .inr (.inr (.inl ⟨hk, fun hsize => h (BitVec.eq_of_toNat_eq hsize)⟩))
      · exact .inr (.inr (.inr h))
    · exact .inl ⟨Bool.eq_false_of_not_eq_true hunused, rfl⟩
  case unused => simp [unusedBitsZero, hbase, hrsvd]
  case i4 => exact fieldCheck_of_enumSet ⟨hlo, hhi⟩ h
  case reserved =>
    have hk : kindOfCode (kindField w) = none := kindOfCode_eq_none.2 (kindField_toNat w ▸ h)
    simp [decodeDescriptor, unpackDescriptor, hk]
  case registry =>
    obtain ⟨more, hdefects⟩ := configDefects_withSlotZero hlegal (fieldCheck_recordOf h)
    have hword : s.withFetchWord 32 w.toNat = s.placeDescriptor w := by
      simp [State.withFetchWord, State.placeWord]
    rw [hword]
    exact step_of_configDefects hdefects

end Sys2Proof.Machine
end

section
/-! SUPPORT. The words of the three formats and their fields: what the decoder reads from a word, and that
the word is made of it (30_encoding.md R108 to R116). -/

namespace Sys2Proof.Machine

/-! ### The fields of a command word (R114) -/

theorem opField_toNat (w : CommandWord) : (opField w).toNat = w.toNat / 4096 := by
  have := w.isLt
  rw [opField, BitVec.extractLsb'_toNat, Nat.shiftRight_eq_div_pow]
  omega

theorem zField_toNat (w : CommandWord) : (zField w).toNat = w.toNat / 256 % 16 := by
  rw [zField, BitVec.extractLsb'_toNat, Nat.shiftRight_eq_div_pow]

theorem immField_toNat (w : CommandWord) : (immField w).toNat = w.toNat % 256 := by
  rw [immField, BitVec.extractLsb'_toNat, Nat.shiftRight_zero]

/-- A command word whose bits 11:8 are 0 is made of its OP and its IMM8. -/
theorem eq_commandWord {w : CommandWord} (hz : zField w = 0) :
    w = commandWord (opField w) (immField w) := by
  have hz' : w.toNat / 256 % 16 = 0 := by rw [← zField_toNat, hz]; rfl
  apply BitVec.eq_of_toNat_eq
  rw [Sys2Proof.Laws.commandWord_toNat, opField_toNat, immField_toNat]
  omega

/-- The operations of R115, by OP and IMM8. -/
inductive CommandOf (vals : List FieldValue) (body : List Byte) :
    BitVec 4 → Byte → Instr → Prop where
  | feedByte (b : Byte) : CommandOf vals body 1 b (.feedByte b)
  | getMsg : CommandOf vals body 2 0 .getMsg
  | sendCmd (t : Byte) : CommandOf vals body 3 t (.sendCmd t vals)
  | waitAck : CommandOf vals body 4 0 .waitAck
  | abandon : CommandOf vals body 5 0 .abandon
  | decodeMsg (t : Byte) : CommandOf vals body 6 t (.decodeMsg t body)
  | encodeMsg (t : Byte) : CommandOf vals body 7 t (.encodeMsg t vals)
  | csrRead (i : Byte) : CommandOf vals body 8 i (.csrRead i)

theorem noImm_eq_ok {w : CommandWord} {i j : Instr} :
    noImm w i = .ok j ↔ immField w = 0 ∧ i = j := by
  by_cases himm : immField w = 0
  · simp [noImm, himm]
  · rw [noImm, if_neg himm]
    exact ⟨nofun, fun ⟨h, _⟩ => absurd h himm⟩

/-- A command word decodes to an operation exactly where it is made of that operation's OP and IMM8
(R115, R116). -/
theorem decodeCommand_eq_ok {w : CommandWord} {vals : List FieldValue} {body : List Byte}
    {i : Instr} :
    decodeCommand w vals body = .ok i ↔
      ∃ op imm, w = commandWord op imm ∧ CommandOf vals body op imm i := by
  constructor
  · intro h
    unfold decodeCommand at h
    split at h
    · cases h
    · split at h
      · cases h
      next hz =>
        refine ⟨opField w, immField w, eq_commandWord (not_not.1 hz), ?_⟩
        have hop (n : Nat) (hn : (opField w).toNat = n) : opField w = BitVec.ofNat 4 n := by
          rw [← hn, BitVec.ofNat_toNat, BitVec.setWidth_eq]
        split at h
        next hn => cases h; rw [hop 1 hn]; exact .feedByte _
        next hn => obtain ⟨himm, rfl⟩ := noImm_eq_ok.1 h; rw [hop 2 hn, himm]; exact .getMsg
        next hn => cases h; rw [hop 3 hn]; exact .sendCmd _
        next hn => obtain ⟨himm, rfl⟩ := noImm_eq_ok.1 h; rw [hop 4 hn, himm]; exact .waitAck
        next hn => obtain ⟨himm, rfl⟩ := noImm_eq_ok.1 h; rw [hop 5 hn, himm]; exact .abandon
        next hn => cases h; rw [hop 6 hn]; exact .decodeMsg _
        next hn => cases h; rw [hop 7 hn]; exact .encodeMsg _
        next hn => cases h; rw [hop 8 hn]; exact .csrRead _
        next => cases h
  · rintro ⟨op, imm, rfl, h⟩
    cases h <;>
      simp [decodeCommand, noImm, opField_commandWord, zField_commandWord, immField_commandWord]

/-- The words that stand for no operation (R116): a reserved OP, bits 11:8 not 0, or an IMM8 where none is
taken. -/
theorem decodeCommand_isError {w : CommandWord} {vals : List FieldValue} {body : List Byte} :
    (∃ e, decodeCommand w vals body = .error e) ↔
      (opField w).toNat = 0 ∨ 9 ≤ (opField w).toNat ∨ (zField w).toNat ≠ 0 ∨
        ((immField w).toNat ≠ 0 ∧
          ((opField w).toNat = 2 ∨ (opField w).toNat = 4 ∨ (opField w).toNat = 5)) := by
  have hop0 : opField w = 0 ↔ (opField w).toNat = 0 := BitVec.toNat_inj.symm
  have hz0 : zField w = 0 ↔ (zField w).toNat = 0 := BitVec.toNat_inj.symm
  have himm0 : immField w = 0 ↔ (immField w).toNat = 0 := BitVec.toNat_inj.symm
  simp only [decodeCommand, noImm, hop0, Ne, hz0, himm0]
  generalize (opField w).toNat = op
  by_cases hop : op = 0 ∨ 8 < op
  · rw [if_pos hop]
    exact ⟨fun _ => hop.imp_right .inl, fun _ => ⟨_, rfl⟩⟩
  · rw [if_neg hop]
    by_cases hz : (zField w).toNat = 0
    · obtain ⟨hlo, hhi⟩ := not_or.1 hop
      rw [if_neg (not_not.2 hz)]
      have hrange : op = 1 ∨ op = 2 ∨ op = 3 ∨ op = 4 ∨ op = 5 ∨ op = 6 ∨ op = 7 ∨ op = 8 := by
        omega
      rcases hrange with rfl | rfl | rfl | rfl | rfl | rfl | rfl | rfl <;>
        by_cases himm : (immField w).toNat = 0 <;> simp [hz, himm]
    · rw [if_pos hz]
      exact ⟨fun _ => .inr (.inr (.inl hz)), fun _ => ⟨_, rfl⟩⟩

/-! ### The type byte of a frame (R108) -/

theorem encode_decodeFrame (c : Config) (t : Byte) (body : List Byte) :
    encode (decodeFrame c t body) = .frame t body := by
  unfold decodeFrame frameRow
  split_ifs with hack hnack hmeas hreg
  · rw [hack]; rfl
  · rw [hnack]; rfl
  · rw [hmeas]; rfl
  · rfl
  · rfl

theorem ordinaryType_iff {t : Byte} :
    ordinaryType t = true ↔ t ≠ ackId ∧ t ≠ nackId ∧ t ≠ measTimeId := by
  simp [ordinaryType, and_assoc]

theorem decodeFrame_unknown {c : Config} {t : Byte} (body : List Byte) (ha : t ≠ ackId)
    (hn : t ≠ nackId) (hm : t ≠ measTimeId) (hlay : inLayout c t = none) :
    decodeFrame c t body = .frameUnknown t body := by
  simp [decodeFrame, frameRow, ha, hn, hm, hlay]

/-! ### The fields of a descriptor word (R111, R112) -/

theorem kindField_descriptorWord (k : KindCode) (d : DescBits) :
    kindField (descriptorWord k d) = kindCodeBits k := by
  apply BitVec.eq_of_toNat_eq
  rw [kindField_toNat, Sys2Proof.Laws.descriptorWord_kind]

theorem descField_descriptorWord (k : KindCode) (d : DescBits) :
    descField (descriptorWord k d) = d := by
  obtain ⟨size, aux, base, rsvd⟩ := d
  simp (disch := decide) only [descField, descriptorWord, BitVec.extractLsb'_append_eq_of_le,
    BitVec.extractLsb'_append_eq_of_add_le]
  simp

/-- A descriptor word is made of its KIND and the bits above it. -/
theorem descriptorWord_descField {k : KindCode} {w : Word} (h : kindCodeBits k = kindField w) :
    descriptorWord k (descField w) = w := by
  have := w.isLt
  apply BitVec.eq_of_toNat_eq
  simp only [descriptorWord, descField, h, kindField, Sys2Proof.Laws.toNat_join,
    BitVec.extractLsb'_toNat, Nat.shiftRight_eq_div_pow]
  omega

theorem kindOfCode_eq_some {b : BitVec 4} {k : KindCode} :
    kindOfCode b = some k ↔ kindCodeBits k = b := by
  constructor
  · intro h
    unfold kindOfCode at h
    split at h <;> cases h
    all_goals exact BitVec.eq_of_toNat_eq (Eq.symm ‹_›)
  · rintro rfl
    cases k <;> rfl

theorem encode_fieldInstr (k : KindCode) (d : DescBits) (op : FieldOp) :
    encode (fieldInstr k d op) = .descriptor (descriptorWord k d) op := by
  cases k <;> rfl

theorem decodeDescriptor_eq_ok {w : Word} {op : FieldOp} {i : Instr} :
    decodeDescriptor w op = .ok i ↔
      ∃ k, kindCodeBits k = kindField w ∧ i = fieldInstr k (descField w) op := by
  simp only [decodeDescriptor, ← kindOfCode_eq_some]
  cases kindOfCode (kindField w) <;> simp [eq_comm]

theorem decode_encode_fieldInstr (c : Config) (k : KindCode) (d : DescBits) (op : FieldOp) :
    decode c (encode (fieldInstr k d op)) = .ok (fieldInstr k d op) := by
  rw [encode_fieldInstr]
  refine decodeDescriptor_eq_ok.2 ⟨k, (kindField_descriptorWord k d).symm, ?_⟩
  rw [descField_descriptorWord]

end Sys2Proof.Machine
end

section
/-! PROOFS. The statements about the decoder, the encoder and the assembler (30_encoding.md). -/

namespace Sys2Proof.Machine

/-- Settles O58, format by format: a command word, a type byte with its row, a descriptor word. -/
theorem decodeInvertsEncode : Obligations.DecodeInvertsEncode := by
  unfold Obligations.DecodeInvertsEncode
  intro c i hwf
  cases i with
  | feedByte | getMsg | sendCmd | waitAck | abandon | decodeMsg | encodeMsg | csrRead =>
    exact decodeCommand_of_encode rfl
  | frameAck body | frameNack body | frameMeasTime body => rfl
  | frameRegistered t body =>
    obtain ⟨htype, hlay⟩ := Bool.and_eq_true_iff.1 hwf
    obtain ⟨ha, hn, hm⟩ := ordinaryType_iff.1 htype
    exact congrArg _ (decodeFrame_registered body ha hn hm (Option.isSome_iff_ne_none.1 hlay))
  | frameUnknown t body =>
    obtain ⟨htype, hlay⟩ := Bool.and_eq_true_iff.1 hwf
    obtain ⟨ha, hn, hm⟩ := ordinaryType_iff.1 htype
    exact congrArg _ (decodeFrame_unknown body ha hn hm (Option.isNone_iff_eq_none.1 hlay))
  | fieldUint d op => exact decode_encode_fieldInstr c .uint d op
  | fieldSint d op => exact decode_encode_fieldInstr c .sint d op
  | fieldF32 d op => exact decode_encode_fieldInstr c .f32 d op
  | fieldF64 d op => exact decode_encode_fieldInstr c .f64 d op
  | fieldBlob d op => exact decode_encode_fieldInstr c .blob d op
  | fieldEnum d op => exact decode_encode_fieldInstr c .enum d op
  | fieldFlags d op => exact decode_encode_fieldInstr c .flags d op
  | fieldFixu d op => exact decode_encode_fieldInstr c .fixu d op
  | fieldFixs d op => exact decode_encode_fieldInstr c .fixs d op

/-- Settles O59: a word that decodes is made of the fields that the decoder reads. -/
theorem encodeInvertsDecode : Obligations.EncodeInvertsDecode := by
  unfold Obligations.EncodeInvertsDecode
  refine ⟨fun w vals body i h => ?_, encode_decodeFrame, fun w op i h => ?_⟩
  · obtain ⟨op, imm, rfl, hop⟩ := decodeCommand_eq_ok.1 h
    cases hop <;> exact ⟨_, _, rfl, decodeCommand_of_encode rfl⟩
  · obtain ⟨k, hk, rfl⟩ := decodeDescriptor_eq_ok.1 h
    rw [encode_fieldInstr, descriptorWord_descField hk]

/-- Settles O60: the words and the lines are literals, which the model evaluates. -/
theorem specWordsDecodeAsWritten : Obligations.SpecWordsDecodeAsWritten := by
  unfold Obligations.SpecWordsDecodeAsWritten
  decide

end Sys2Proof.Machine
end

section
/-! SUPPORT. The scan and the bytes behind a candidate: what a scan step writes, that it is the same whatever
follows the candidate, and hence that scanning after every byte gives what scanning once gives
(40_reassembler.md R147, R156 to R160). -/

namespace Sys2Proof.Machine

/-! ### The parts of a candidate (R147) -/

theorem slice_append {l : List Byte} (r : List Byte) {i j : Nat} (hj : j ≤ l.length) :
    slice (l ++ r) i j = slice l i j := by
  rw [slice, slice, List.take_append_of_le_length hj]

theorem length_slice {l : List Byte} {i j : Nat} (hj : j ≤ l.length) :
    (slice l i j).length = j - i := by
  simp [slice, hj]

theorem getD_slice {l : List Byte} {i j m : Nat} (hm : i + m < j) :
    (slice l i j).getD m 0 = l.getD (i + m) 0 := by
  simp [slice, List.getD_eq_getElem?_getD, List.getElem?_drop, List.getElem?_take_of_lt hm]

theorem slice_succ {l : List Byte} {i j : Nat} (hi : i ≤ j) (hj : j < l.length) :
    slice l i (j + 1) = slice l i j ++ [l.getD j 0] := by
  have hlen : i ≤ (l.take j).length := by simp; omega
  rw [slice, slice, ← List.take_append_getElem hj, List.drop_append_of_le_length hlen,
    List.getD_eq_getElem _ _ hj]

theorem xorAll_concat (l : List Byte) (b : Byte) : xorAll (l ++ [b]) = xorAll l ^^^ b := by
  simp [xorAll]

/-! ### What a dispatch counts and delivers (R156) -/

/-- A checksum-valid candidate with a payload counts in one of six counters. -/
theorem dispatchFrame_cnt (t : Byte) (body : List Byte) (s : State) :
    ∃ k ∈ [CounterId.ack, .nack, .unknown, .decodeErr, .rxqDrop, .delivered],
      (dispatchFrame t body s).cnt = s.cnt.bump k := by
  obtain ⟨-, h⟩ | ⟨-, h⟩ | ⟨-, -, h⟩ := dispatchFrame_cases t body s <;> rw [h]
  · exact ⟨.ack, by decide, rfl⟩
  · exact ⟨.nack, by decide, rfl⟩
  · obtain ⟨-, h⟩ | ⟨-, e, -, -, h⟩ | ⟨-, v, -, -, -, h⟩ | ⟨-, v, -, -, -, h⟩ :=
      decodeAndDeliver_cases t body s <;> rw [h]
    · exact ⟨.unknown, by decide, rfl⟩
    · exact ⟨.decodeErr, by decide, rfl⟩
    · exact ⟨.rxqDrop, by decide, rfl⟩
    · exact ⟨.delivered, by decide, rfl⟩

theorem scanStep_cnt {s s' : State} (h : scanStep s = some s') :
    s'.cnt = s.cnt.bump .cksumErr ∨
      ∃ k ∈ [CounterId.empty, .ack, .nack, .unknown, .decodeErr, .rxqDrop, .delivered],
        s'.cnt = (s.cnt.bump .framesOk).bump k := by
  obtain ⟨k, -, rfl⟩ := scanStep_eq_some.1 h
  obtain ⟨-, h⟩ | ⟨-, -, h⟩ | ⟨t, body, -, -, h⟩ := handleCandidate_cases k s <;> rw [h]
  · exact .inl rfl
  · exact .inr ⟨.empty, by decide, rfl⟩
  · obtain ⟨c, hc, hcnt⟩ := dispatchFrame_cnt t body ((s.consume (k.t + 2)).bump .framesOk)
    exact .inr ⟨c, List.mem_cons_of_mem _ hc, hcnt⟩

theorem dispatchFrame_rxq (t : Byte) (body : List Byte) (s : State) :
    ∃ new, (dispatchFrame t body s).rxq = s.rxq ++ new := by
  obtain ⟨-, h⟩ | ⟨-, h⟩ | ⟨-, -, h⟩ := dispatchFrame_cases t body s <;> rw [h]
  · exact ⟨[], by simp [acceptAck]⟩
  · exact ⟨[], by simp [acceptNack]⟩
  · obtain ⟨-, h⟩ | ⟨-, e, -, -, h⟩ | ⟨-, v, -, -, -, h⟩ | ⟨-, v, -, -, -, h⟩ :=
      decodeAndDeliver_cases t body s <;> rw [h]
    · exact ⟨[], by simp [rejectUnknown]⟩
    · exact ⟨[], by simp [rejectDecode]⟩
    · exact ⟨[], by simp⟩
    · exact ⟨[v], rfl⟩

theorem scanStep_rxq {s s' : State} (h : scanStep s = some s') : ∃ new, s'.rxq = s.rxq ++ new := by
  obtain ⟨k, -, rfl⟩ := scanStep_eq_some.1 h
  obtain ⟨-, h⟩ | ⟨-, -, h⟩ | ⟨t, body, -, -, h⟩ := handleCandidate_cases k s <;> rw [h]
  · exact ⟨[], by simp⟩
  · exact ⟨[], by simp⟩
  · exact dispatchFrame_rxq t body ((s.consume (k.t + 2)).bump .framesOk)

/-! ### The frame of the scan -/

/-- What the scan keeps of a state: everything but the latch, the drop record and the counters of R156; the
buffer loses a front part, and the delivery queue grows at the back. -/
structure ScanFrame (s u : State) : Prop where
  cfg : u.cfg = s.cfg
  cmd : u.cmd = s.cmd
  txs : u.txs = s.txs
  pending : u.pending = s.pending
  schedule : u.schedule = s.schedule
  counts : ∀ k ∈ [CounterId.rxBytes, .evict, .txFrames, .hostErr], u.cnt.get k = s.cnt.get k
  buf : ∃ n, u.buf = s.buf.drop n
  rxq : ∃ new, u.rxq = s.rxq ++ new

theorem ScanFrame.refl (s : State) : ScanFrame s s :=
  ⟨rfl, rfl, rfl, rfl, rfl, fun _ _ => rfl, ⟨0, rfl⟩, ⟨[], (List.append_nil _).symm⟩⟩

theorem ScanFrame.trans {s u v : State} (h : ScanFrame s u) (h' : ScanFrame u v) :
    ScanFrame s v where
  cfg := h'.cfg.trans h.cfg
  cmd := h'.cmd.trans h.cmd
  txs := h'.txs.trans h.txs
  pending := h'.pending.trans h.pending
  schedule := h'.schedule.trans h.schedule
  counts k hk := (h'.counts k hk).trans (h.counts k hk)
  buf := by
    obtain ⟨n, hn⟩ := h.buf
    obtain ⟨m, hm⟩ := h'.buf
    exact ⟨n + m, by rw [hm, hn, List.drop_drop]⟩
  rxq := by
    obtain ⟨new, hnew⟩ := h.rxq
    obtain ⟨more, hmore⟩ := h'.rxq
    exact ⟨new ++ more, by rw [hmore, hnew, List.append_assoc]⟩

/-- The counters of R156 are none of the four that ingress and the host count in. -/
theorem scanStep_counts {s s' : State} (h : scanStep s = some s') :
    ∀ k ∈ [CounterId.rxBytes, .evict, .txFrames, .hostErr], s'.cnt.get k = s.cnt.get k := by
  intro k hk
  obtain hcnt | ⟨c, hc, hcnt⟩ := scanStep_cnt h <;> rw [hcnt]
  · rw [get_bump, if_neg]
    rintro rfl
    exact absurd hk (by decide)
  · rw [get_bump, get_bump, if_neg, if_neg]
    · rintro rfl
      exact absurd hk (by decide)
    · rintro rfl
      revert hc hk
      cases c <;> decide

theorem scanStep_frame {s s' : State} (h : scanStep s = some s') : ScanFrame s s' := by
  have hcounts := scanStep_counts h
  have hrxq := scanStep_rxq h
  obtain ⟨k, -, rfl⟩ := scanStep_eq_some.1 h
  obtain ⟨rxq, ack, drop, cnt, hwrites⟩ := handleCandidate_writes k s
  rw [hwrites] at hcounts hrxq ⊢
  exact ⟨rfl, rfl, rfl, rfl, rfl, hcounts, ⟨_, rfl⟩, hrxq⟩

theorem scan_frame (s : State) : ScanFrame s (scan s) :=
  scan_induct (P := ScanFrame s) (fun _ _ hstep hs => hs.trans (scanStep_frame hstep))
    (ScanFrame.refl s)

/-! ### The scan as the loop of R142 -/

theorem scanRun_ends {s t : State} (h : ScanRun s t) : scanStep t = none := by
  induction h with
  | wait hs => exact hs
  | consumed _ _ ih => exact ih

theorem scanRun_unique {s t u : State} (ht : ScanRun s t) (hu : ScanRun s u) : t = u := by
  induction ht with
  | wait hs =>
    cases hu with
    | wait => rfl
    | consumed hs' => cases hs.symm.trans hs'
  | consumed hs _ ih =>
    cases hu with
    | wait hs' => cases hs.symm.trans hs'
    | consumed hs' hrest =>
      cases hs.symm.trans hs'
      exact ih hrest

theorem scanRun_iff {s t : State} : ScanRun s t ↔ t = scan s :=
  ⟨fun h => scanRun_unique h (scanRun_scan s), fun h => h ▸ scanRun_scan s⟩

theorem quiescent_scan (s : State) : Quiescent (scan s) := scanRun_ends (scanRun_scan s)

theorem scan_of_quiescent {s : State} (h : Quiescent s) : scan s = s :=
  (scanRun_iff.1 (.wait h)).symm

theorem scan_of_consumed {s s' : State} (h : scanStep s = some s') : scan s = scan s' :=
  (scanRun_iff.1 (.consumed h (scanRun_scan s'))).symm

theorem locate_nil : locate [] = none := rfl

theorem quiescent_of_buf_nil {s : State} (h : s.buf = []) : Quiescent s :=
  scanStep_eq_none.2 (h ▸ locate_nil)

/-! ### Bytes behind a candidate (R159) -/

/-- A first pair stays the first pair whatever follows. -/
theorem leastPair_append {x y : Byte} {l : List Byte} {start i : Nat} (r : List Byte)
    (h : LeastPair x y l start i) : LeastPair x y (l ++ r) start i := by
  obtain ⟨hstart, hi, hx, hy, hmin⟩ := h
  have hget (j : Nat) (hj : j < l.length) : (l ++ r).getD j 0 = l.getD j 0 :=
    List.getD_append _ _ _ _ hj
  refine ⟨hstart, by rw [List.length_append]; omega, ?_, ?_, fun j hs hj => ?_⟩
  · rwa [hget i (by omega)]
  · rwa [hget (i + 1) hi]
  · rw [hget j (by omega), hget (j + 1) (by omega)]
    exact hmin j hs hj

theorem locate_append {buf : List Byte} {k : Candidate} (x : List Byte) (h : locate buf = some k) :
    locate (buf ++ x) = some k := by
  obtain ⟨hlen, hp, hfield, hklen, ht⟩ := locate_eq_some.1 h
  rw [locate_eq_some, List.length_append]
  refine ⟨by omega, leastPair_append x hp, by omega, ?_, leastPair_append x ht⟩
  obtain ⟨hstart, hend, -⟩ := ht
  rw [hklen, lengthAt, lengthAt, List.getD_append _ _ _ _ (by omega),
    List.getD_append _ _ _ _ (by omega)]

/-- Bytes handed over, `n` of them counted: what an ingress of any length does before the scan. -/
def ingest (s : State) (bs : List Byte) (n : Word) : State :=
  { s with buf := s.buf ++ bs, cnt := { s.cnt with rxBytes := s.cnt.rxBytes + n } }

theorem ingest_ingest (s : State) (x y : List Byte) (n m : Word) :
    ingest (ingest s x n) y m = ingest s (x ++ y) (n + m) := by
  simp [ingest, List.append_assoc, BitVec.add_assoc]

theorem ingest_zero (s : State) (bs : List Byte) :
    ingest s bs 0 = { s with buf := s.buf ++ bs } := by
  simp [ingest]

/-- The dispatch reads neither the buffer nor the byte counter. -/
theorem dispatchFrame_ingest (t : Byte) (body : List Byte) (s : State) (x : List Byte) (n : Word) :
    dispatchFrame t body (ingest s x n) = ingest (dispatchFrame t body s) x n := by
  have hdeliver (t : Byte) :
      decodeAndDeliver t body (ingest s x n) = ingest (decodeAndDeliver t body s) x n := by
    obtain ⟨hlay, h⟩ | ⟨lay, e, hlay, hdec, h⟩ | ⟨lay, v, hlay, hdec, hfull, h⟩ |
      ⟨lay, v, hlay, hdec, hroom, h⟩ := decodeAndDeliver_cases t body s <;> rw [h]
    · exact decodeAndDeliver_of_unknown hlay
    · exact decodeAndDeliver_of_error (s := ingest s x n) (Option.ne_none_iff_exists'.2 ⟨lay, hlay⟩)
        ((decodeIn_of_inLayout body hlay).trans hdec)
    · refine (decodeAndDeliver_of_ok (s := ingest s x n)
        ((decodeIn_of_inLayout body hlay).trans hdec)).trans ?_
      exact deliver_of_full (s := ingest s x n) t v hfull
    · refine (decodeAndDeliver_of_ok (s := ingest s x n)
        ((decodeIn_of_inLayout body hlay).trans hdec)).trans ?_
      exact deliver_of_not_full (s := ingest s x n) t v hroom
  have hcfg : (ingest s x n).cfg = s.cfg := rfl
  unfold dispatchFrame
  rw [hcfg]
  cases frameRow s.cfg t with
  | ack | nack | unknown => rfl
  | measTime => exact hdeliver measTimeId
  | registered => exact hdeliver t

/-- The handling of a candidate is the same whatever bytes stand behind it, and leaves them behind. -/
theorem handleCandidate_ingest {k : Candidate} {s : State} (x : List Byte) (n : Word)
    (hk : locate s.buf = some k) :
    handleCandidate k (ingest s x n) = ingest (handleCandidate k s) x n := by
  obtain ⟨-, hend⟩ := locate_bounds hk
  have hxor : candidateXor (ingest s x n).buf k = candidateXor s.buf k := by
    rw [candidateXor, candidateXor, ingest, slice_append x (by omega)]
  have hpayload : candidatePayload (ingest s x n).buf k = candidatePayload s.buf k := by
    rw [candidatePayload, candidatePayload, ingest, slice_append x (by omega)]
  have hconsume : (ingest s x n).consume (k.t + 2) = ingest (s.consume (k.t + 2)) x n := by
    simp [ingest, State.consume, List.drop_append_of_le_length hend]
  by_cases hsum : candidateXor s.buf k = 0
  · rw [handleCandidate_of_goodSum hsum, handleCandidate_of_goodSum (hxor.trans hsum), hpayload,
      hconsume]
    cases candidatePayload s.buf k with
    | nil => rfl
    | cons t body => exact dispatchFrame_ingest t body ((s.consume (k.t + 2)).bump .framesOk) x n
  · rw [handleCandidate_of_badSum hsum,
      handleCandidate_of_badSum (fun h => hsum (hxor.symm.trans h)), hconsume]
    rfl

theorem scanStep_ingest {s s' : State} (x : List Byte) (n : Word) (h : scanStep s = some s') :
    scanStep (ingest s x n) = some (ingest s' x n) := by
  obtain ⟨k, hk, rfl⟩ := scanStep_eq_some.1 h
  exact scanStep_eq_some.2 ⟨k, locate_append x hk, (handleCandidate_ingest x n hk).symm⟩

/-- A scan before further bytes arrive changes nothing of the scan after them. -/
theorem scan_ingest_scan (s : State) (x : List Byte) (n : Word) :
    scan (ingest (scan s) x n) = scan (ingest s x n) := by
  have hrun := scanRun_scan s
  generalize scan s = t at hrun
  induction hrun with
  | wait => rfl
  | consumed hs _ ih => rw [ih, scan_of_consumed (scanStep_ingest x n hs)]

/-! ### A stream, byte by byte and in chunks (R160) -/

theorem feedByte_of_room {s : State} (b : Byte) (hroom : s.buf.length ≠ s.cfg.bufCap) :
    feedByte b s = scan (ingest s [b] 1) := by
  rw [feedByte, evict_of_not_full hroom]
  rfl

theorem feedBytes_append (x y : List Byte) (s : State) :
    feedBytes (x ++ y) s = feedBytes y (feedBytes x s) := by
  induction x generalizing s with
  | nil => rfl
  | cons b x ih => exact ih (feedByte b s)

/-- Without eviction, a stream fed byte by byte is the stream appended whole and scanned. -/
theorem feedBytes_eq_scan {s : State} {bs : List Byte} (hs : Quiescent s)
    (hroom : s.buf.length + bs.length ≤ s.cfg.bufCap) :
    feedBytes bs s = scan (ingest s bs (BitVec.ofNat 32 bs.length)) := by
  induction bs generalizing s with
  | nil =>
    have hnil : ingest s [] (BitVec.ofNat 32 0) = s := by simp [ingest]
    rw [List.length_nil, hnil, scan_of_quiescent hs]
    rfl
  | cons b bs ih =>
    rw [List.length_cons] at hroom
    have hlen := scan_buf_length_le (ingest s [b] 1)
    have hlen' : (ingest s [b] 1).buf.length = s.buf.length + 1 := by simp [ingest]
    have hcfg : (scan (ingest s [b] 1)).cfg = s.cfg := (scan_frame (ingest s [b] 1)).cfg
    rw [feedBytes, feedByte_of_room b (by omega), ih (quiescent_scan _) (by rw [hcfg]; omega),
      scan_ingest_scan, ingest_ingest, List.length_cons, Nat.add_comm bs.length, BitVec.ofNat_add]
    rfl

/-- The eviction takes at most the oldest byte, and counts it; nothing else of it shows. -/
theorem evict_eq (s : State) :
    ∃ (n : Nat) (lost : Word), n ≤ s.buf.length ∧
      evict s = { s with buf := s.buf.drop n, cnt := { s.cnt with evict := lost } } := by
  by_cases hfull : s.buf.length = s.cfg.bufCap
  · refine ⟨min 1 s.buf.length, s.cnt.evict + 1, Nat.min_le_right _ _, ?_⟩
    rw [evict_of_full hfull]
    cases hbuf : s.buf <;> rfl
  · exact ⟨0, s.cnt.evict, Nat.zero_le _, evict_of_not_full hfull⟩

/-- What FEED_BYTE keeps: the frame of the scan, behind the eviction and the append (R140). -/
theorem feedByte_keeps (b : Byte) (s : State) :
    (feedByte b s).cmd = s.cmd ∧ (feedByte b s).txs = s.txs ∧ (feedByte b s).cfg = s.cfg ∧
      (feedByte b s).pending = s.pending ∧ (feedByte b s).schedule = s.schedule ∧
      (feedByte b s).cnt.txFrames = s.cnt.txFrames ∧ (feedByte b s).cnt.hostErr = s.cnt.hostErr ∧
      (feedByte b s).cnt.rxBytes = s.cnt.rxBytes + 1 ∧
      ∃ n new, (feedByte b s).buf = (s.buf ++ [b]).drop n ∧ (feedByte b s).rxq = s.rxq ++ new := by
  obtain ⟨m, lost, hm, hevict⟩ := evict_eq s
  have hframe : ScanFrame (appendByte b (evict s)) (feedByte b s) := scan_frame _
  rw [hevict] at hframe
  obtain ⟨n, hn⟩ := hframe.buf
  obtain ⟨new, hnew⟩ := hframe.rxq
  refine ⟨hframe.cmd, hframe.txs, hframe.cfg, hframe.pending, hframe.schedule,
    hframe.counts .txFrames (by decide), hframe.counts .hostErr (by decide),
    hframe.counts .rxBytes (by decide), m + n, new, ?_, hnew⟩
  have hbuf : (s.buf ++ [b]).drop m = s.buf.drop m ++ [b] := List.drop_append_of_le_length hm
  rw [hn, ← List.drop_drop, hbuf]
  rfl

theorem feedChunks_eq_scan {s : State} {chunks : List (List Byte)} (hs : Quiescent s) :
    feedChunks chunks s =
      scan (ingest s chunks.flatten (BitVec.ofNat 32 chunks.flatten.length)) := by
  induction chunks generalizing s with
  | nil =>
    have hnil : ingest s [] (BitVec.ofNat 32 0) = s := by simp [ingest]
    rw [List.flatten_nil, List.length_nil, hnil, scan_of_quiescent hs]
    rfl
  | cons bs chunks ih =>
    have hchunk : feedChunk bs s = scan (ingest s bs (BitVec.ofNat 32 bs.length)) := rfl
    rw [feedChunks, hchunk, ih (quiescent_scan _), scan_ingest_scan, ingest_ingest,
      List.flatten_cons, List.length_append, BitVec.ofNat_add]

end Sys2Proof.Machine
end

section
/-! PROOFS. The statements about the scan and about chunks (40_reassembler.md R140, R147, R151, R156 to
R160). -/

namespace Sys2Proof.Machine

/-- Settles O30: the payload and the checksum byte are two neighbouring stretches of the buffer. -/
theorem candidateGeometry : Obligations.CandidateGeometry := by
  unfold Obligations.CandidateGeometry
  intro buf k h
  obtain ⟨-, -, -, -, hstart, hend, -⟩ := locate_eq_some.1 h
  refine ⟨?_, by omega, by omega, by omega, fun j hj => getD_slice (by omega), ?_⟩
  · rw [candidatePayload, length_slice (by omega)]
    omega
  · have hsucc : k.t = k.t - 1 + 1 := by omega
    rw [candidateXor, candidatePayload, hsucc, slice_succ (by omega) (by omega), xorAll_concat,
      ← hsucc]

/-- Settles O32: the scan step is the dispatch, and the dispatch is the decoded row (log 6). -/
theorem scanRunsTheDecodedFrameRow : Obligations.ScanRunsTheDecodedFrameRow := by
  unfold Obligations.ScanRunsTheDecodedFrameRow
  refine ⟨fun s k t body hk hxor hpayload => ?_, fun c t body => ⟨rfl, rfl, rfl, ?_, ?_⟩⟩
  · refine ⟨dispatchFrame t body ((s.consume (k.t + 2)).bump .framesOk),
      exec_decodeFrame t body ((s.consume (k.t + 2)).bump .framesOk), ?_⟩
    rw [scanStep_of_locate hk, handleCandidate_of_goodSum hxor, hpayload]
    rfl
  · exact fun ha hn hm hlay => decodeFrame_registered body ha hn hm hlay
  · exact fun ha hn hm hlay => decodeFrame_unknown body ha hn hm hlay

/-- Settles O28: the frame of the scan, behind the eviction and the append. -/
theorem feedByteFrame : Obligations.FeedByteFrame := by
  unfold Obligations.FeedByteFrame
  intro s b
  exact ⟨_, rfl, rfl, feedByte_keeps b s⟩

/-- Settles O37, from the counters of each branch. -/
theorem eachCandidateCountsOnce : Obligations.EachCandidateCountsOnce := by
  unfold Obligations.EachCandidateCountsOnce
  exact fun _ _ h => scanStep_cnt h

/-- Settles O38: each step removes 7 bytes or more, so the fuel of the scan outlasts the loop. -/
theorem scanEndsInWait : Obligations.ScanEndsInWait := by
  unfold Obligations.ScanEndsInWait
  exact ⟨fun _ _ h => scanStep_consumes h, fun s => quiescent_scan s, fun _ _ => scanRun_iff⟩

/-- Settles O39: a candidate and its handling depend on the bytes up to its end. -/
theorem scanStepIsPrefixStable : Obligations.ScanStepIsPrefixStable := by
  unfold Obligations.ScanStepIsPrefixStable
  intro s s' x h
  obtain ⟨n, -, hn, hbuf⟩ := scanStep_consumes h
  refine ⟨⟨n, hbuf, hn⟩, ?_⟩
  rw [← ingest_zero s x, ← ingest_zero s' x]
  exact scanStep_ingest x 0 h

/-- Settles O40: both sides are the stream appended whole and scanned. -/
theorem chunkingDoesNotMatter : Obligations.ChunkingDoesNotMatter := by
  unfold Obligations.ChunkingDoesNotMatter
  intro s chunks hs hroom
  rw [feedChunks_eq_scan hs, feedBytes_eq_scan hs hroom]

end Sys2Proof.Machine
end

section
/-! SUPPORT. A whole frame behind bytes without a preamble: where the scan finds it, and what feeding it
does (40_reassembler.md R142 to R149, R164). -/

namespace Sys2Proof.Machine

/-! ### The wire form of a frame (30_encoding.md R100) -/

/-- A preamble, the big-endian length of `mid` without its last byte, `mid`, and a trailer; `mid` stands for
a payload and its checksum byte, whether they agree or not. -/
def wireFrame (mid : List Byte) : List Byte :=
  [0xA0, 0xA1, BitVec.ofNat 8 ((mid.length - 1) / 256), BitVec.ofNat 8 ((mid.length - 1) % 256)]
    ++ mid ++ [0x0D, 0x0A]

/-- Payload and checksum byte of a transmitted frame (R164). -/
def txMid (t : Byte) (body : List Byte) : List Byte := (t :: body) ++ [xorAll (t :: body)]

@[simp] theorem length_txMid (t : Byte) (body : List Byte) :
    (txMid t body).length = body.length + 2 := by
  simp [txMid]

@[simp] theorem length_wireFrame (mid : List Byte) : (wireFrame mid).length = mid.length + 6 := by
  simp [wireFrame]

theorem txFrame_eq_wireFrame (t : Byte) (body : List Byte) :
    txFrame t body = wireFrame (txMid t body) := by
  simp [txFrame, wireFrame, txMid]

theorem length_txFrame (t : Byte) (body : List Byte) :
    (txFrame t body).length = 8 + body.length := by
  rw [txFrame_eq_wireFrame, length_wireFrame, length_txMid]
  omega

theorem xorAll_txMid (t : Byte) (body : List Byte) : xorAll (txMid t body) = 0 := by
  rw [txMid, xorAll_concat]
  exact BitVec.xor_self

/-- The length field reads back the length, where 16 bits hold it (R145). -/
theorem lengthAt_wireFrame {mid : List Byte} (hmax : mid.length ≤ 65536) :
    lengthAt (wireFrame mid) 0 = mid.length - 1 := by
  show (BitVec.ofNat 8 ((mid.length - 1) / 256)).toNat * 256
    + (BitVec.ofNat 8 ((mid.length - 1) % 256)).toNat = mid.length - 1
  rw [BitVec.toNat_ofNat, BitVec.toNat_ofNat]
  omega

theorem drop_wireFrame (mid : List Byte) : (wireFrame mid).drop 4 = mid ++ [0x0D, 0x0A] := by
  simp [wireFrame]

/-- The bytes from index 4 on are `mid` and the trailer. -/
theorem getD_wireFrame (mid : List Byte) (j : Nat) :
    (wireFrame mid).getD (4 + j) 0 = (mid ++ [0x0D, 0x0A]).getD j 0 := by
  rw [← drop_wireFrame]
  simp [List.getD_eq_getElem?_getD]

/-! ### The candidate that it is -/

theorem findPair_eq_none {x y : Byte} {l : List Byte} (h : findPair x y l = none) {j : Nat}
    (hj : j + 1 < l.length) : ¬ (l.getD j 0 = x ∧ l.getD (j + 1) 0 = y) := by
  induction l generalizing j with
  | nil => simp at hj
  | cons a l ih =>
    cases l with
    | nil => simp at hj
    | cons b rest =>
      rw [findPair] at h
      split at h
      · cases h
      next hfront =>
        obtain - | j := j
        · exact hfront
        · exact ih (Option.map_eq_none_iff.1 h) (Nat.lt_of_succ_lt_succ hj)

theorem locate_of_findPreamble_none {buf : List Byte} (h : findPreamble buf = none) :
    locate buf = none := by
  unfold locate
  rw [h]
  split <;> rfl

theorem getD_append_add (pre l : List Byte) (j : Nat) :
    (pre ++ l).getD (pre.length + j) 0 = l.getD j 0 := by
  rw [List.getD_append_right _ _ _ _ (Nat.le_add_right _ _), Nat.add_sub_cancel_left]

/-- No pair that a string without a preamble makes with the next byte is one either, since its first byte is
the next one's A0 and not A1. -/
theorem leastPair_preamble {pre mid : List Byte} (hpre : findPreamble pre = none) :
    LeastPair 0xA0 0xA1 (pre ++ wireFrame mid) 0 pre.length := by
  have hfirst : (pre ++ wireFrame mid).getD pre.length 0 = 0xA0 := getD_append_add pre _ 0
  refine ⟨Nat.zero_le _, by simp, hfirst, getD_append_add pre _ 1, fun j _ hj => ?_⟩
  by_cases hlast : j + 1 = pre.length
  · rw [hlast, hfirst]
    exact fun ⟨_, h⟩ => absurd h (by decide)
  · rw [List.getD_append _ _ _ _ hj, List.getD_append _ _ _ _ (by omega)]
    exact findPair_eq_none hpre (by omega)

/-- Behind bytes without a preamble the frame is the candidate, and its trailer is where the length field
says (R143 to R146). -/
theorem locate_wireFrame {pre mid : List Byte} (hpre : findPreamble pre = none)
    (hmin : 2 ≤ mid.length) (hmax : mid.length ≤ 65536) :
    locate (pre ++ wireFrame mid) =
      some ⟨pre.length, mid.length - 1, pre.length + (4 + mid.length)⟩ := by
  have hstart : pre.length + 5 + (mid.length - 1) = pre.length + (4 + mid.length) := by omega
  have htrailer (j : Nat) :
      (pre ++ wireFrame mid).getD (pre.length + (4 + (mid.length + j))) 0 =
        [0x0D, 0x0A].getD j 0 := by
    rw [getD_append_add, getD_wireFrame, getD_append_add]
  rw [locate_eq_some]
  refine ⟨by simp; omega, leastPair_preamble hpre, by simp, ?_, ?_⟩
  · show mid.length - 1 = lengthAt (pre ++ wireFrame mid) pre.length
    rw [lengthAt, getD_append_add, getD_append_add]
    exact (lengthAt_wireFrame hmax).symm
  · show LeastPair _ _ _ (pre.length + 5 + (mid.length - 1)) _
    rw [hstart]
    exact ⟨Nat.le_refl _, by simp; omega, htrailer 0, htrailer 1,
      fun j hle hlt => absurd hlt hle.not_gt⟩

theorem take_wireFrame (mid : List Byte) {n : Nat} (hn : n ≤ mid.length) :
    slice (wireFrame mid) 4 (4 + n) = mid.take n := by
  rw [slice, List.drop_take, drop_wireFrame, Nat.add_sub_cancel_left,
    List.take_append_of_le_length hn]

theorem slice_append_add (pre l : List Byte) (i j : Nat) :
    slice (pre ++ l) (pre.length + i) (pre.length + j) = slice l i j := by
  rw [slice, slice, List.take_length_add_append, List.drop_length_add_append]

/-! ### Feeding it -/

/-- A frame fed behind bytes without a preamble is one candidate, which consumes everything. -/
theorem feedBytes_wireFrame {s : State} {mid : List Byte} (hpre : findPreamble s.buf = none)
    (hmin : 2 ≤ mid.length) (hmax : mid.length ≤ 65536)
    (hroom : s.buf.length + (mid.length + 6) ≤ s.cfg.bufCap) :
    ∃ cnt, cnt = { s.cnt with rxBytes := s.cnt.rxBytes + BitVec.ofNat 32 (mid.length + 6) } ∧
      feedBytes (wireFrame mid) s =
        if xorAll mid = 0 then
          dispatchPayload mid.dropLast (({ s with buf := [], cnt := cnt } : State).bump .framesOk)
        else (({ s with buf := [], cnt := cnt } : State).bump .cksumErr).drop .eCksum 0 false := by
  refine ⟨_, rfl, ?_⟩
  have hquiet : Quiescent s := scanStep_eq_none.2 (locate_of_findPreamble_none hpre)
  have hlocate := locate_wireFrame hpre hmin hmax
  generalize hu : ingest s (wireFrame mid) (BitVec.ofNat 32 (mid.length + 6)) = u
  generalize hk : (⟨s.buf.length, mid.length - 1, s.buf.length + (4 + mid.length)⟩ : Candidate) = k
    at hlocate
  have hbuf : u.buf = s.buf ++ wireFrame mid := hu ▸ rfl
  have hxor : candidateXor u.buf k = xorAll mid := by
    rw [candidateXor, hbuf, ← hk, slice_append_add, take_wireFrame mid (Nat.le_refl _),
      List.take_length]
  have hpayload : candidatePayload u.buf k = mid.dropLast := by
    have hend : s.buf.length + (4 + mid.length) - 1 = s.buf.length + (4 + (mid.length - 1)) := by
      omega
    rw [candidatePayload, hbuf, ← hk]
    show slice _ _ (s.buf.length + (4 + mid.length) - 1) = _
    rw [hend, slice_append_add, take_wireFrame mid (Nat.sub_le _ _), List.dropLast_eq_take]
  have hconsume : u.consume (k.t + 2) = { s with
      buf := [],
      cnt := { s.cnt with rxBytes := s.cnt.rxBytes + BitVec.ofNat 32 (mid.length + 6) } } := by
    have hall : (s.buf ++ wireFrame mid).drop (k.t + 2) = [] := by
      rw [← hk]
      exact List.drop_eq_nil_of_le (by simp; omega)
    rw [State.consume, hbuf, hall, ← hu]
    rfl
  have hscan : scan u = handleCandidate k u := by
    rw [scan_of_consumed (scanStep_of_locate (hbuf ▸ hlocate)), scan_of_quiescent]
    refine quiescent_of_buf_nil ?_
    rw [handleCandidate_buf, ← consume_buf, hconsume]
  rw [feedBytes_eq_scan hquiet (by simpa using hroom), length_wireFrame, hu, hscan, handleCandidate,
    hxor, hpayload, hconsume]

/-- Counting and consuming a candidate leave the registry that its row is decoded under. -/
theorem exec_decodeFrame_of_cfg {c : Config} {s : State} (hcfg : s.cfg = c) (t : Byte)
    (body : List Byte) : exec (decodeFrame c t body) s = .next (dispatchFrame t body s) :=
  hcfg ▸ exec_decodeFrame t body s

theorem txMid_dropLast (t : Byte) (body : List Byte) : (txMid t body).dropLast = t :: body :=
  List.dropLast_concat

/-- A transmitted frame fed behind bytes without a preamble is dispatched with its type and body. -/
theorem feedBytes_txFrame {s : State} {t : Byte} {body : List Byte}
    (hpre : findPreamble s.buf = none) (hbody : body.length ≤ 65534)
    (hroom : s.buf.length + (8 + body.length) ≤ s.cfg.bufCap) :
    feedBytes (txFrame t body) s = dispatchFrame t body { s with
      buf := [],
      cnt := { s.cnt with
        rxBytes := s.cnt.rxBytes + BitVec.ofNat 32 (8 + body.length),
        framesOk := s.cnt.framesOk + 1 } } := by
  have hlen : (txMid t body).length + 6 = 8 + body.length := by rw [length_txMid]; omega
  obtain ⟨cnt, hcnt, hfeed⟩ := feedBytes_wireFrame (mid := txMid t body) hpre (by simp)
    (by simpa using hbody) (hlen ▸ hroom)
  rw [hlen] at hcnt
  rw [txFrame_eq_wireFrame, hfeed, if_pos (xorAll_txMid t body), txMid_dropLast, hcnt]
  rfl

/-! ### A changed byte -/

theorem xorAll_append (l r : List Byte) : xorAll (l ++ r) = xorAll l ^^^ xorAll r := by
  induction r using List.reverseRecOn with
  | nil => simp [xorAll]
  | append_singleton r b ih =>
    rw [← List.append_assoc, xorAll_concat, xorAll_concat, ih, BitVec.xor_assoc]

/-- Changing one byte changes the exclusive-or. -/
theorem xorAll_set_ne {l : List Byte} {i : Nat} {b : Byte} (hi : i < l.length)
    (hb : b ≠ l.getD i 0) : xorAll (l.set i b) ≠ xorAll l := by
  have hsingle (c : Byte) (r : List Byte) : xorAll (c :: r) = c ^^^ xorAll r := by
    have h := xorAll_append [c] r
    rwa [show xorAll [c] = c from BitVec.zero_xor] at h
  rw [List.getD_eq_getElem _ _ hi] at hb
  have hsplit : l = l.take i ++ l[i] :: l.drop (i + 1) := by simp
  rw [List.set_eq_take_append_cons_drop, if_pos hi]
  conv_rhs => rw [hsplit]
  rw [xorAll_append, xorAll_append, hsingle, hsingle]
  intro h
  exact hb ((BitVec.xor_left_inj _).1 ((BitVec.xor_right_inj _).1 h))

theorem set_wireFrame (mid : List Byte) {i : Nat} (b : Byte) (hi : i < mid.length) :
    (wireFrame mid).set (4 + i) b = wireFrame (mid.set i b) := by
  simp [wireFrame, Nat.add_comm 4 i, List.set_append_left _ _ hi]

end Sys2Proof.Machine
end

section
/-! PROOFS. The statements about whole frames (40_reassembler.md R161, R162, R165, R166). -/

namespace Sys2Proof.Machine

/-- Settles O44. A proper part is no candidate: if it were one, it would be the candidate of the whole
(R159), which ends with the last byte. -/
theorem transmittedFrameLoopsBack : Obligations.TransmittedFrameLoopsBack := by
  unfold Obligations.TransmittedFrameLoopsBack
  intro s t body hempty hbody hroom
  have hpre : findPreamble s.buf = none := hempty ▸ rfl
  have hwhole : feedBytes (txFrame t body) s = dispatchFrame t body { s with
      cnt := { s.cnt with
        rxBytes := s.cnt.rxBytes + BitVec.ofNat 32 (8 + body.length),
        framesOk := s.cnt.framesOk + 1 } } := by
    rw [feedBytes_txFrame hpre hbody (by simp [hempty]; omega)]
    simp only [hempty]
  refine ⟨fun n hn => ?_, ?_, ?_⟩
  · have hwait : locate ((txFrame t body).take n) = none := by
      by_contra hsome
      obtain ⟨k, hk⟩ := Option.ne_none_iff_exists'.1 hsome
      obtain ⟨-, hend⟩ := locate_bounds hk
      have hwholeK := locate_append ((txFrame t body).drop n) hk
      rw [List.take_append_drop, txFrame_eq_wireFrame, ← List.nil_append (wireFrame _),
        locate_wireFrame rfl (by simp) (by simpa using hbody)] at hwholeK
      cases hwholeK
      simp at hend
      rw [length_txFrame] at hn
      omega
    have hlen : ((txFrame t body).take n).length = n := by simp; omega
    rw [length_txFrame] at hn
    rw [feedBytes_eq_scan (quiescent_of_buf_nil hempty) (by rw [hlen, hempty]; simp; omega),
      scan_of_quiescent, hlen]
    · simp [ingest, hempty]
    · exact scanStep_eq_none.2 (by simpa [ingest, hempty] using hwait)
  · rw [hwhole]
    refine exec_decodeFrame_of_cfg ?_ t body
    rfl
  · rw [hwhole]
    obtain ⟨rxq, ack, drop, cnt, hwrites⟩ := dispatchFrame_writes t body _
    rw [hwrites]
    exact hempty

/-- Settles O43, from the wire form, part by part. -/
theorem transmittedFrameIsWellFormed : Obligations.TransmittedFrameIsWellFormed := by
  unfold Obligations.TransmittedFrameIsWellFormed
  intro t body hbody
  have hlength := lengthAt_wireFrame (mid := txMid t body) (by simpa using hbody)
  have hpayload := take_wireFrame (txMid t body) (n := 1 + body.length) (by simp; omega)
  have hall := take_wireFrame (txMid t body) (n := 2 + body.length) (by simp; omega)
  rw [← txFrame_eq_wireFrame, length_txMid] at hlength
  rw [← txFrame_eq_wireFrame, ← Nat.add_assoc] at hpayload hall
  refine ⟨by rw [length_txFrame]; omega, rfl, hlength.trans (by omega),
    hpayload.trans ?_, ?_, ?_, ?_⟩
  · rw [Nat.add_comm 1, txMid]
    simp
  · have hsum := getD_wireFrame (txMid t body) (1 + body.length)
    rw [← txFrame_eq_wireFrame, ← Nat.add_assoc] at hsum
    refine hsum.trans ?_
    simp [txMid, List.getD_eq_getElem?_getD, Nat.add_comm 1]
  · have hdrop := drop_wireFrame (txMid t body)
    rw [← txFrame_eq_wireFrame] at hdrop
    rw [show 6 + body.length = 4 + (txMid t body).length by simp; omega, ← List.drop_drop, hdrop,
      List.drop_left]
  · rw [hall, List.take_of_length_le (by simp; omega), xorAll_txMid]

/-- Settles O42: the frame is dispatched as an unknown type, and the rest is fed to an empty buffer. -/
theorem unknownFrameIsDroppedAlone : Obligations.UnknownFrameIsDroppedAlone := by
  unfold Obligations.UnknownFrameIsDroppedAlone
  intro s t body g hpre hbody hroom ha hn hlay
  rw [feedBytes_append, feedBytes_txFrame hpre hbody hroom, dispatchFrame_of_ne body _ ha hn,
    decodeAndDeliver_of_unknown]
  · rfl
  · exact hlay

/-- Settles O41: the changed byte leaves the wire form, and makes the checksum test fail. -/
theorem corruptedFrameIsDroppedAlone : Obligations.CorruptedFrameIsDroppedAlone := by
  unfold Obligations.CorruptedFrameIsDroppedAlone
  intro s t body i b g hpre hbody hroom hlo hhi hb
  obtain ⟨i, rfl⟩ := Nat.exists_eq_add_of_le hlo
  have hi : i < (txMid t body).length := by simp; omega
  rw [txFrame_eq_wireFrame, getD_wireFrame, List.getD_append _ _ _ _ hi] at hb
  have hxor : xorAll ((txMid t body).set i b) ≠ 0 := xorAll_txMid t body ▸ xorAll_set_ne hi hb
  have hlen : ((txMid t body).set i b).length + 6 = 8 + body.length := by simp; omega
  obtain ⟨cnt, hcnt, hfeed⟩ := feedBytes_wireFrame (mid := (txMid t body).set i b) hpre (by simp)
    (by simpa using hbody) (hlen ▸ hroom)
  rw [hlen] at hcnt
  rw [feedBytes_append, txFrame_eq_wireFrame, set_wireFrame _ b hi, hfeed, if_neg hxor, hcnt]
  rfl

end Sys2Proof.Machine
end

section
/-! SUPPORT. Layouts of UINT fields, and numbers of whole bytes at byte boundaries (42_codec.md R245,
20_memory.md R72). -/

namespace Sys2Proof.Machine

/-- A stretch of `w + w'` bits is read as two numbers, the first one more significant (R75). -/
theorem bitRead_add (body : List Byte) (o w w' : Nat) :
    bitRead body o (w + w') = bitRead body o w * 2 ^ w' + bitRead body (o + w) w' := by
  induction w' with
  | zero => simp [bitRead]
  | succ w' ih =>
    rw [← Nat.add_assoc, bitRead, ih, bitRead, Nat.pow_succ, ← Nat.add_assoc]
    ring

/-- Eight bits at a byte boundary are that byte. -/
theorem bitRead_byte (body : List Byte) (i : Nat) (hi : i < body.length) :
    bitRead body (8 * i) 8 = (body.getD i 0).toNat := by
  refine bitRead_of_bodyBits (body.getD i 0).isLt ?_
  have hsplit : body = body.take i ++ body.getD i 0 :: body.drop (i + 1) := by
    simp [List.getElem?_eq_getElem hi]
  have hlen : (bitsOfBytes (body.take i)).length = 8 * i := by simp; omega
  have happend (l r : List Byte) : bitsOfBytes (l ++ r) = bitsOfBytes l ++ bitsOfBytes r := by
    simp [bitsOfBytes_eq_flatMap]
  rw [bodyBits_eq_take_drop (by omega)]
  conv_lhs => rw [hsplit, happend, ← hlen, List.drop_left, bitsOfBytes]
  exact List.take_left' (length_bitsOf 8 _)

/-- The values of UINT fields of the given widths from a bit offset on (R244, R245). -/
def uintValues : List Nat → List Byte → Nat → List FieldValue
  | [], _, _ => []
  | w :: ws, body, o => .u w (bitRead body o w) :: uintValues ws body (o + w)

/-- A field list of UINT fields always decodes, whatever its names (R203, R245). -/
theorem unpackFields_uint {fs : List FieldDesc} {ws : List Nat} {body : List Byte} {o : Nat}
    (h : fieldShapes fs = ws.map fun w => (.uint, w)) :
    unpackFields fs body o = .ok (uintValues ws body o, o + ws.sum) := by
  induction ws generalizing fs o with
  | nil =>
    obtain rfl : fs = [] := List.map_eq_nil_iff.1 h
    rfl
  | cons w ws ih =>
    obtain ⟨f, fs, rfl, hf, hfs⟩ := List.map_eq_cons_iff.1 h
    obtain ⟨name, kind, size⟩ := f
    obtain ⟨rfl, rfl⟩ := Prod.mk.inj hf
    refine unpackFields_cons_ok.2
      ⟨.u size (bitRead body o size), uintValues ws body (o + size), rfl, ?_, rfl⟩
    rw [List.sum_cons, ← Nat.add_assoc]
    exact ih hfs

end Sys2Proof.Machine
end

section
/-! PROOFS. The statement about "measurement time information" frames (41_registry.md R216). -/

namespace Sys2Proof.Machine

/-- The body of nine bytes as its four fields. -/
theorem uintValues_measTime (b0 b1 b2 b3 b4 b5 b6 b7 b8 : Byte) :
    uintValues [8, 16, 32, 16] [b0, b1, b2, b3, b4, b5, b6, b7, b8] 0 =
      [.u 8 b0.toNat, .u 16 ((b1.toNat * 256 + b2.toNat : Nat) : Int),
        .u 32 ((((b3.toNat * 256 + b4.toNat) * 256 + b5.toNat) * 256 + b6.toNat : Nat) : Int),
        .u 16 ((b7.toNat * 256 + b8.toNat : Nat) : Int)] := by
  generalize hbody : [b0, b1, b2, b3, b4, b5, b6, b7, b8] = body
  have hbyte (i : Nat) (hi : i < 9) : bitRead body (8 * i) 8 = (body.getD i 0).toNat :=
    bitRead_byte body i (by rw [← hbody]; exact hi)
  have hiod : bitRead body 0 8 = b0.toNat := by rw [hbyte 0 (by decide), ← hbody]; rfl
  have hwn : bitRead body 8 16 = b1.toNat * 256 + b2.toNat := by
    rw [bitRead_add body 8 8 8, hbyte 1 (by decide), hbyte 2 (by decide), ← hbody]; rfl
  have htow : bitRead body 24 32 =
      ((b3.toNat * 256 + b4.toNat) * 256 + b5.toNat) * 256 + b6.toNat := by
    rw [bitRead_add body 24 24 8, bitRead_add body 24 16 8, bitRead_add body 24 8 8,
      hbyte 3 (by decide), hbyte 4 (by decide), hbyte 5 (by decide), hbyte 6 (by decide), ← hbody]
    rfl
  have hperiod : bitRead body 56 16 = b7.toNat * 256 + b8.toNat := by
    rw [bitRead_add body 56 8 8, hbyte 7 (by decide), hbyte 8 (by decide), ← hbody]; rfl
  simp only [uintValues, Nat.zero_add, Nat.reduceAdd, hiod, hwn, htow, hperiod]

/-- Settles O36: every legal configuration holds the layout of R216 in slot 0xDC, its names apart. -/
theorem measurementTimeFramesAreDelivered : Obligations.MeasurementTimeFramesAreDelivered := by
  unfold Obligations.MeasurementTimeFramesAreDelivered
  have hlayout (c : Config) (hc : Legal c) :
      ∃ fields, inLayout c measTimeId = some (.fixed fields 72) ∧
        fieldShapes fields = [8, 16, 32, 16].map fun w => (.uint, w) := by
    obtain ⟨-, -, -, -, hmeas⟩ := legal_iff.1 hc
    exact (hasMeasTime_iff.1 hmeas).1
  refine ⟨fun s b0 b1 b2 b3 b4 b5 b6 b7 b8 hc hroom => ?_, fun s body hc hlen => ?_⟩
  · obtain ⟨fields, hin, hshapes⟩ := hlayout s.cfg hc
    have hdec : decodeLayout measTimeId (.fixed fields 72) [b0, b1, b2, b3, b4, b5, b6, b7, b8] =
        .ok ⟨measTimeId, uintValues [8, 16, 32, 16] [b0, b1, b2, b3, b4, b5, b6, b7, b8] 0, none⟩ :=
      decodeLayout_fixed_ok.2 ⟨rfl, _, _, unpackFields_uint hshapes, rfl⟩
    rw [uintValues_measTime] at hdec
    have hdeliver := decodeAndDeliver_of_ok ((decodeIn_of_inLayout _ hin).trans hdec)
    exact congrArg Host.Outcome.next (hdeliver.trans (deliver_of_not_full _ _ hroom))
  · obtain ⟨fields, hin, -⟩ := hlayout s.cfg hc
    have hdec : decodeLayout measTimeId (.fixed fields 72) body = .error .eDecLength :=
      decodeLayout_fixed_error_iff.2 (.inl ⟨by omega, rfl⟩)
    exact congrArg Host.Outcome.next (decodeAndDeliver_of_error (by simp [hin])
      ((decodeIn_of_inLayout body hin).trans hdec))

end Sys2Proof.Machine
end

section
/-! SUPPORT. What a host operation can do, and what a step can do: one inversion each, from which every
statement about all operations or all steps is read off (43_host_ops.md R300 to R310,
60_exceptions.md R352). -/

namespace Sys2Proof.Machine

/-! ### GET_MSG and WAIT_ACK (R302, R304) -/

theorem exec_getMsg_of_cons {s : State} {v : MsgValue} {rest : List MsgValue}
    (h : s.rxq = v :: rest) :
    exec .getMsg s = .next (({ s with rxq := rest } : State).respond (.msg v)) := by
  simp [exec, execGetMsg, h]

theorem exec_getMsg_of_nil {s : State} (h : s.rxq = []) : exec .getMsg s = .next s.holdOp := by
  simp [exec, execGetMsg, h]

/-- The effect of a WAIT_ACK that takes the latched acknowledgement (R304). -/
def takeAck (s : State) : State :=
  ({ s.clearAck with cmd := ⟨false, s.cmd.type⟩ } : State).respond
    (.ack s.ack.kind s.ack.echoValid s.ack.echo)

theorem exec_waitAck_of_valid {s : State} (hpending : s.cmd.pending = true)
    (hvalid : s.ack.valid = true) : exec .waitAck s = .next (takeAck s) := by
  simp [exec, execWaitAck, hpending, hvalid, takeAck]

theorem exec_waitAck_of_not_valid {s : State} (hpending : s.cmd.pending = true)
    (hvalid : s.ack.valid = false) : exec .waitAck s = .next s.holdOp := by
  simp [exec, execWaitAck, hpending, hvalid]

theorem exec_waitAck_of_idle {s : State} (hidle : s.cmd.pending = false) :
    exec .waitAck s = .next (s.hostError .eNotPending) := by
  simp [exec, execWaitAck, hidle]

/-! ### The codes of the host operations (R356) -/

/-- The codes that an operation can raise. -/
def raisable : Instr → List StatusCode
  | .decodeMsg _ _ => [.eUnknownType, .eDecLength, .eDecEnum, .eDecCount]
  | .sendCmd _ _ => [.eBusy, .eEncNoLayout, .eEncShape, .eEncRange]
  | .encodeMsg _ _ => [.eEncNoLayout, .eEncShape, .eEncRange]
  | .waitAck => [.eNotPending]
  | .csrRead _ => [.eCsrAddr]
  | _ => []

theorem packFields_error_code {fs : List FieldDesc} {vals : List FieldValue} {e : StatusCode}
    (h : packFields fs vals = .error e) : e = .eEncShape ∨ e = .eEncRange := by
  induction fs generalizing vals with
  | nil => cases vals <;> cases h; exact .inl rfl
  | cons f fs ih =>
    cases vals with
    | nil => cases h; exact .inl rfl
    | cons v vs =>
      simp only [packFields] at h
      split at h
      next he => cases h; exact fieldEncode_error he
      next =>
        split at h
        next he => cases h; exact ih he
        next => cases h

theorem encodeOut_error_code {c : Config} {t : Byte} {vals : List FieldValue} {e : StatusCode}
    (h : encodeOut c t vals = .error e) :
    e ∈ [StatusCode.eEncNoLayout, .eEncShape, .eEncRange] := by
  unfold encodeOut at h
  split at h
  next => cases h; decide
  next lay hlay =>
    cases lay with
    | array => cases h; decide
    | fixed fields bits =>
      simp only [encodeLayout] at h
      split at h
      next =>
        split at h
        next he => cases h; obtain rfl | rfl := packFields_error_code he <;> decide
        next => cases h
      next => cases h; decide

/-! ### One host operation -/

/-- The operations that only read the block (20_memory.md R78). -/
def PureOp (i : Instr) : Prop :=
  (∃ c, i = .csrRead c) ∨ (∃ ty bs, i = .decodeMsg ty bs) ∨ (∃ ty vs, i = .encodeMsg ty vs)

/-- Everything that a host operation can do in a state. -/
inductive HostEffect (s : State) : Instr → State → Prop where
  | feed (b : Byte) : HostEffect s (.feedByte b) ((feedByte b s).respond .unit)
  | takeMsg (v : MsgValue) (rest : List MsgValue) (h : s.rxq = v :: rest) :
      HostEffect s .getMsg (({ s with rxq := rest } : State).respond (.msg v))
  | holdMsg (h : s.rxq = []) : HostEffect s .getMsg s.holdOp
  | send (t : Byte) (vals : List FieldValue) (body : List Byte)
      (h : encodeOut s.cfg t vals = .ok body) :
      HostEffect s (.sendCmd t vals) ((sendFrame t body s).respond .unit)
  | takeAck : HostEffect s .waitAck (takeAck s)
  | holdAck (hpending : s.cmd.pending = true) (hvalid : s.ack.valid = false) :
      HostEffect s .waitAck s.holdOp
  | abandon : HostEffect s .abandon
      (({ s.clearAck with cmd := ⟨false, 0⟩ } : State).respond .unit)
  | answer (i : Instr) (r : OpResult) (hi : PureOp i) : HostEffect s i (s.respond r)
  | raise (i : Instr) (e : StatusCode) (he : e ∈ raisable i) : HostEffect s i (s.hostError e)

theorem exec_sendCmd_effect (t : Byte) (vals : List FieldValue) (s : State) :
    ∃ u, exec (.sendCmd t vals) s = .next u ∧ HostEffect s (.sendCmd t vals) u := by
  cases hbusy : s.cmd.pending with
  | true => exact ⟨_, exec_sendCmd_of_pending t vals hbusy, .raise _ _ List.mem_cons_self⟩
  | false =>
    cases henc : encodeOut s.cfg t vals with
    | error e =>
      exact ⟨_, exec_sendCmd_of_error hbusy henc,
        .raise _ e (List.mem_cons_of_mem _ (encodeOut_error_code henc))⟩
    | ok body => exact ⟨_, exec_sendCmd_of_ok hbusy henc, .send t vals body henc⟩

theorem exec_getMsg_effect (s : State) :
    ∃ u, exec .getMsg s = .next u ∧ HostEffect s .getMsg u := by
  cases hrxq : s.rxq with
  | nil => exact ⟨_, exec_getMsg_of_nil hrxq, .holdMsg hrxq⟩
  | cons v rest => exact ⟨_, exec_getMsg_of_cons hrxq, .takeMsg v rest hrxq⟩

theorem exec_waitAck_effect (s : State) :
    ∃ u, exec .waitAck s = .next u ∧ HostEffect s .waitAck u := by
  cases hpending : s.cmd.pending with
  | false => exact ⟨_, exec_waitAck_of_idle hpending, .raise _ _ List.mem_cons_self⟩
  | true =>
    cases hvalid : s.ack.valid with
    | false => exact ⟨_, exec_waitAck_of_not_valid hpending hvalid, .holdAck hpending hvalid⟩
    | true => exact ⟨_, exec_waitAck_of_valid hpending hvalid, .takeAck⟩

theorem exec_decodeMsg_effect (t : Byte) (body : List Byte) (s : State) :
    ∃ u, exec (.decodeMsg t body) s = .next u ∧ HostEffect s (.decodeMsg t body) u := by
  by_cases hlay : inLayout s.cfg t = none
  · exact ⟨_, exec_decodeMsg_of_unknown body hlay, .raise _ _ List.mem_cons_self⟩
  · by_cases hlong : maxBody < body.length
    · exact ⟨_, exec_decodeMsg_of_long hlay hlong,
        .raise _ _ (List.mem_cons_of_mem _ List.mem_cons_self)⟩
    · cases hdec : decodeIn s.cfg t body with
      | error e =>
        obtain ⟨lay, -, hlayErr⟩ := (decodeIn_eq_error hlay).1 hdec
        exact ⟨_, exec_decodeMsg_of_error hlay (Nat.le_of_not_lt hlong) hdec,
          .raise _ e (List.mem_cons_of_mem _ (decodeLayout_error hlayErr))⟩
      | ok m =>
        exact ⟨_, exec_decodeMsg_of_ok (Nat.le_of_not_lt hlong) hdec,
          .answer _ _ (.inr (.inl ⟨t, body, rfl⟩))⟩

theorem exec_encodeMsg_effect (t : Byte) (vals : List FieldValue) (s : State) :
    ∃ u, exec (.encodeMsg t vals) s = .next u ∧ HostEffect s (.encodeMsg t vals) u := by
  cases henc : encodeOut s.cfg t vals with
  | error e => exact ⟨_, exec_encodeMsg_of_error henc, .raise _ e (encodeOut_error_code henc)⟩
  | ok body => exact ⟨_, exec_encodeMsg_of_ok henc, .answer _ _ (.inr (.inr ⟨t, vals, rfl⟩))⟩

theorem exec_csrRead_effect (i : Byte) (s : State) :
    ∃ u, exec (.csrRead i) s = .next u ∧ HostEffect s (.csrRead i) u := by
  cases hcsr : csrValue s i with
  | none => exact ⟨_, exec_csrRead_of_unmapped hcsr, .raise _ _ List.mem_cons_self⟩
  | some v => exact ⟨_, exec_csrRead_of_mapped hcsr, .answer _ _ (.inl ⟨i, rfl⟩)⟩

/-- Every decoded host operation answers a next state, with one of the effects above. -/
theorem exec_effect {w : CommandWord} {vals : List FieldValue} {body : List Byte} {i : Instr}
    (h : decodeCommand w vals body = .ok i) (s : State) :
    ∃ t, exec i s = .next t ∧ HostEffect s i t := by
  obtain ⟨op, imm, -, hop⟩ := decodeCommand_eq_ok.1 h
  cases hop with
  | feedByte => exact ⟨_, rfl, .feed _⟩
  | getMsg => exact exec_getMsg_effect s
  | sendCmd => exact exec_sendCmd_effect _ vals s
  | waitAck => exact exec_waitAck_effect s
  | abandon => exact ⟨_, rfl, .abandon⟩
  | decodeMsg => exact exec_decodeMsg_effect _ body s
  | encodeMsg => exact exec_encodeMsg_effect _ vals s
  | csrRead => exact exec_csrRead_effect _ s

theorem hostEffect_of_exec {w : CommandWord} {vals : List FieldValue} {body : List Byte} {i : Instr}
    {s t : State} (h : decodeCommand w vals body = .ok i) (hexec : exec i s = .next t) :
    HostEffect s i t := by
  obtain ⟨u, hu, heffect⟩ := exec_effect h s
  cases hexec.symm.trans hu
  exact heffect

section
variable {s t : State} {i : Instr}

/-- No host operation touches what is issued or who moves next. -/
theorem HostEffect.issued (h : HostEffect s i t) :
    t.pending = s.pending ∧ t.schedule = s.schedule := by
  cases h with
  | feed b =>
    obtain ⟨-, -, -, hpending, hschedule, -⟩ := feedByte_keeps b s
    exact ⟨hpending, hschedule⟩
  | _ => exact ⟨rfl, rfl⟩

theorem HostEffect.of_hold (h : HostEffect s i t) (hout : t.out = .hold) :
    t = s.holdOp ∧ ((i = .getMsg ∧ s.rxq = []) ∨
      (i = .waitAck ∧ s.cmd.pending = true ∧ s.ack.valid = false)) := by
  cases h with
  | holdMsg hrxq => exact ⟨rfl, .inl ⟨rfl, hrxq⟩⟩
  | holdAck hpending hvalid => exact ⟨rfl, .inr ⟨rfl, hpending, hvalid⟩⟩
  | _ => cases hout

theorem HostEffect.of_status {e : StatusCode} (h : HostEffect s i t) (hout : t.out = .status e) :
    t = s.hostError e ∧ e ∈ raisable i := by
  cases h with
  | raise i e' he => cases hout; exact ⟨rfl, he⟩
  | _ => cases hout

/-- Every outcome is OK, a code that the operation raises, or HOLD. -/
theorem HostEffect.outcome (h : HostEffect s i t) :
    (∃ r, t.out = .ok r) ∨ (∃ e ∈ raisable i, t.out = .status e) ∨ t.out = .hold := by
  cases h with
  | holdMsg | holdAck => exact .inr (.inr rfl)
  | raise i e he => exact .inr (.inl ⟨e, he, rfl⟩)
  | _ => exact .inl ⟨_, rfl⟩

theorem HostEffect.buf (h : HostEffect s i t) : t.buf = s.buf ∨ ∃ b, i = .feedByte b := by
  cases h with
  | feed b => exact .inr ⟨b, rfl⟩
  | _ => exact .inl rfl

theorem HostEffect.txs (h : HostEffect s i t) :
    t.txs = s.txs ∨ ∃ ty vals body, i = .sendCmd ty vals ∧ encodeOut s.cfg ty vals = .ok body ∧
      t.txs = s.txs ++ txFrame ty body := by
  cases h with
  | feed b =>
    obtain ⟨-, htxs, -⟩ := feedByte_keeps b s
    exact .inl htxs
  | send ty vals body henc => exact .inr ⟨ty, vals, body, rfl, henc, rfl⟩
  | _ => exact .inl rfl

theorem HostEffect.rxq (h : HostEffect s i t) :
    (∃ new, t.rxq = s.rxq ++ new) ∨ ∃ v, s.rxq = v :: t.rxq ∧ t.out = .ok (.msg v) := by
  cases h with
  | feed b =>
    obtain ⟨-, -, -, -, -, -, -, -, n, new, -, hrxq⟩ := feedByte_keeps b s
    exact .inl ⟨new, hrxq⟩
  | takeMsg v rest hrxq => exact .inr ⟨v, hrxq, rfl⟩
  | _ => exact .inl ⟨[], (List.append_nil _).symm⟩

end

/-! ### The end of an operation (R300, R310) -/

theorem completeOp_out (a : Agent) (s : State) : (completeOp a s).out = s.out := by
  unfold completeOp
  split <;> rfl

theorem completeOp_of_hold {a : Agent} {s : State} (h : s.out = .hold) :
    completeOp a s = { s with outFor := some a } :=
  if_pos h

theorem completeOp_of_ended {a : Agent} {s : State} (h : s.out ≠ .hold) :
    completeOp a s = { s with outFor := some a, pending := dropRequest a s.pending } :=
  if_neg h

theorem continueWait_of_ok {a : Agent} {s : State} (h : s.out = .ok .unit) :
    continueWait a s =
      { s with outFor := some a, pending := replaceRequest a waitAckRequest s.pending } :=
  if_pos h

theorem continueWait_of_code {a : Agent} {s : State} (h : s.out ≠ .ok .unit) :
    continueWait a s = completeOp a s :=
  if_neg h

theorem continueWait_out (a : Agent) (s : State) : (continueWait a s).out = s.out := by
  by_cases h : s.out = .ok .unit
  · rw [continueWait_of_ok h]
  · rw [continueWait_of_code h, completeOp_out]

theorem continueWait_sameBlock (a : Agent) (s : State) : SameBlock s (continueWait a s) := by
  by_cases h : s.out = .ok .unit
  · rw [continueWait_of_ok h]
    exact ⟨rfl, rfl, rfl, rfl, rfl, rfl, rfl, rfl⟩
  · rw [continueWait_of_code h]
    exact completeOp_sameBlock a s

theorem nextRequest_replaceRequest_of_ne {a b : Agent} (h : b ≠ a) (r : Request)
    (l : List (Agent × Request)) : nextRequest b (replaceRequest a r l) = nextRequest b l := by
  induction l with
  | nil => rfl
  | cons x l ih =>
    obtain ⟨c, q⟩ := x
    by_cases hc : c = a
    · simp [replaceRequest, nextRequest, hc, h.symm]
    · simp [replaceRequest, nextRequest, hc, ih]

/-! ### One step -/

/-- Under a legal configuration, the turn of the scheduled agent is its oldest request. -/
theorem step_of_request {s : State} {a : Agent} {rest : List Agent} {r : Request}
    (hlegal : Legal s.cfg) (hsched : s.schedule = a :: rest)
    (hreq : nextRequest a s.pending = some r) :
    step s = runRequest a r { s with schedule := rest } := by
  simp [step, hlegal, hsched, agentStep, hreq]

theorem step_of_command {s t : State} {a : Agent} {rest : List Agent} {w : CommandWord}
    {vals : List FieldValue} {body : List Byte} {i : Instr} (hlegal : Legal s.cfg)
    (hsched : s.schedule = a :: rest) (hreq : nextRequest a s.pending = some (.command w vals body))
    (hdec : decodeCommand w vals body = .ok i)
    (hexec : exec i { s with schedule := rest } = .next t) :
    step s = .next (completeOp a t) := by
  rw [step_of_request hlegal hsched hreq, runRequest, runCommand, hdec]
  exact settle_eq_next.2 ⟨t, hexec, rfl⟩

theorem step_of_illegal {s : State} {a : Agent} {rest : List Agent} {w : CommandWord}
    {vals : List FieldValue} {body : List Byte} {e : DecodeError} (hlegal : Legal s.cfg)
    (hsched : s.schedule = a :: rest) (hreq : nextRequest a s.pending = some (.command w vals body))
    (hdec : decodeCommand w vals body = .error e) :
    step s = .next (completeOp a (({ s with schedule := rest } : State).hostError .eIllegalOp)) := by
  rw [step_of_request hlegal hsched hreq, runRequest, runCommand, hdec]

theorem step_of_sendAndWait {s t : State} {a : Agent} {rest : List Agent} {ty : Byte}
    {vals : List FieldValue} (hlegal : Legal s.cfg) (hsched : s.schedule = a :: rest)
    (hreq : nextRequest a s.pending = some (.sendAndWait ty vals))
    (hexec : exec (.sendCmd ty vals) { s with schedule := rest } = .next t) :
    step s = .next (continueWait a t) := by
  rw [step_of_request hlegal hsched hreq, runRequest, runSendAndWait, hexec]

/-- Everything that a step can do. -/
inductive StepEffect (s : State) : State → Prop where
  | idle : StepEffect s s
  | skip (rest : List Agent) : StepEffect s { s with schedule := rest }
  | reset (a : Agent) (rest : List Agent) (hsched : s.schedule = a :: rest)
      (hreq : nextRequest a s.pending = some .reset) :
      StepEffect s (runReset a { s with schedule := rest })
  | illegal (a : Agent) (rest : List Agent) :
      StepEffect s (completeOp a (({ s with schedule := rest } : State).hostError .eIllegalOp))
  | command (a : Agent) (rest : List Agent) (w : CommandWord) (vals : List FieldValue)
      (body : List Byte) (i : Instr) (t : State) (hsched : s.schedule = a :: rest)
      (hreq : nextRequest a s.pending = some (.command w vals body))
      (hdec : decodeCommand w vals body = .ok i) (h : HostEffect { s with schedule := rest } i t) :
      StepEffect s (completeOp a t)
  | sendAndWait (a : Agent) (rest : List Agent) (ty : Byte) (vals : List FieldValue) (t : State)
      (hsched : s.schedule = a :: rest)
      (hreq : nextRequest a s.pending = some (.sendAndWait ty vals))
      (h : HostEffect { s with schedule := rest } (.sendCmd ty vals) t) :
      StepEffect s (continueWait a t)

/-- Under a legal configuration a step answers a next state, with one of the effects above. -/
theorem step_effect {s : State} (hlegal : Legal s.cfg) :
    ∃ s', step s = .next s' ∧ StepEffect s s' := by
  obtain ⟨d, ds, hd, -⟩ | ⟨-, -, hstep⟩ | ⟨a, rest, -, hsched, hstep⟩ := step_cases s
  · rw [hlegal] at hd
    cases hd
  · exact ⟨s, hstep, .idle⟩
  · cases hreq : nextRequest a s.pending with
    | none => exact ⟨_, by rw [hstep, agentStep, hreq], .skip rest⟩
    | some r =>
      cases r with
      | reset => exact ⟨_, step_of_request hlegal hsched hreq, .reset a rest hsched hreq⟩
      | sendAndWait ty vals =>
        obtain ⟨t, hexec, heffect⟩ := exec_sendCmd_effect ty vals { s with schedule := rest }
        exact ⟨_, step_of_sendAndWait hlegal hsched hreq hexec,
          .sendAndWait a rest ty vals t hsched hreq heffect⟩
      | command w vals body =>
        cases hdec : decodeCommand w vals body with
        | error e => exact ⟨_, step_of_illegal hlegal hsched hreq hdec, .illegal a rest⟩
        | ok i =>
          obtain ⟨t, hexec, heffect⟩ := exec_effect hdec { s with schedule := rest }
          exact ⟨_, step_of_command hlegal hsched hreq hdec hexec,
            .command a rest w vals body i t hsched hreq hdec heffect⟩

/-- A step that answers a next state ran under a legal configuration. -/
theorem legal_of_step {s s' : State} (h : step s = .next s') : Legal s.cfg := by
  obtain ⟨d, ds, -, hstep⟩ | ⟨hlegal, -⟩ | ⟨a, rest, hlegal, -⟩ := step_cases s
  · cases hstep.symm.trans h
  · exact hlegal
  · exact hlegal

theorem stepEffect_of_step {s s' : State} (h : step s = .next s') : StepEffect s s' := by
  obtain ⟨u, hu, heffect⟩ := step_effect (legal_of_step h)
  cases h.symm.trans hu
  exact heffect

end Sys2Proof.Machine
end

section
/-! PROOFS. The statements about the host operations and the steps (43_host_ops.md R300 to R310,
00_scope.md R15, 60_exceptions.md R350 to R364, 20_memory.md R78 to R81). -/

namespace Sys2Proof.Machine

/-- Settles O4: the two forms of an end are those of `completeOp`. -/
theorem stepRunsTheDecodedOperation : Obligations.StepRunsTheDecodedOperation := by
  unfold Obligations.StepRunsTheDecodedOperation
  intro s t a rest w vals body i hlegal hsched hreq hdec hexec
  exact step_of_command hlegal hsched hreq hdec hexec

/-- Settles O5: the three fields of a word as numbers, and the one error of an illegal word. -/
theorem illegalWordsReturnIllegalOp : Obligations.IllegalWordsReturnIllegalOp := by
  unfold Obligations.IllegalWordsReturnIllegalOp
  refine ⟨fun w vals body => ?_, fun s a rest w vals body e hlegal hsched hreq hdec => ?_⟩
  · rw [decodeCommand_isError, opField_toNat, zField_toNat, immField_toNat]
  · rw [step_of_illegal hlegal hsched hreq hdec, completeOp_of_ended (by simp)]
    rfl

/-- Settles O6: the two effects that hold leave the block and what is issued. -/
theorem heldOperationChangesNothingAndWaits : Obligations.HeldOperationChangesNothingAndWaits := by
  unfold Obligations.HeldOperationChangesNothingAndWaits
  intro s t a rest w vals body i hlegal hsched hreq hdec hexec hout
  obtain ⟨rfl, hwhy⟩ := (hostEffect_of_exec hdec hexec).of_hold hout
  refine ⟨⟨_, step_of_command hlegal hsched hreq hdec hexec, ?_⟩, hwhy⟩
  rw [completeOp_of_hold hout]
  exact ⟨⟨rfl, rfl, rfl, rfl, rfl, rfl, rfl, rfl⟩, rfl, rfl, rfl⟩

/-- Settles O7: an OK SEND_CMD leaves WAIT_ACK in its own place, a code ends the request. -/
theorem sendAndWaitIsSendThenWait : Obligations.SendAndWaitIsSendThenWait := by
  unfold Obligations.SendAndWaitIsSendThenWait
  intro s t a rest ty vals hlegal hsched hreq hexec
  have hstep := step_of_sendAndWait hlegal hsched hreq hexec
  obtain ⟨u, hu, heffect⟩ := exec_sendCmd_effect ty vals { s with schedule := rest }
  cases hexec.symm.trans hu
  obtain ⟨hpending, -⟩ := heffect.issued
  refine ⟨fun hok => ⟨_, hstep, continueWait_sameBlock a t, (continueWait_out a t).trans hok, ?_,
    decodeCommand_of_encode rfl, fun b hb => ?_⟩,
    fun e hcode => ⟨_, hstep, continueWait_sameBlock a t, (continueWait_out a t).trans hcode, ?_⟩⟩
  · rw [continueWait_of_ok hok, hpending]
    exact nextRequest_replaceRequest hreq
  · rw [continueWait_of_ok hok, hpending]
    exact nextRequest_replaceRequest_of_ne hb _ _
  · rw [continueWait_of_code (by simp [hcode]), completeOp_of_ended (by simp [hcode]), hpending]

/-- The codes of the host operations are the six that a frame drop does not have, and those of a decode. -/
theorem statusByte_of_raisable {i : Instr} {e : StatusCode} (h : e ∈ raisable i) :
    (0x03 ≤ (statusByte e).toNat ∧ (statusByte e).toNat ≤ 0x06) ∨
      (0x08 ≤ (statusByte e).toNat ∧ (statusByte e).toNat ≤ 0x0E) := by
  have hcodes : e ≠ .eCksum ∧ e ≠ .eEmpty ∧ e ≠ .eRxqFull := by
    refine ⟨?_, ?_, ?_⟩ <;> rintro rfl <;> cases i <;> simp [raisable] at h
  obtain ⟨hcksum, hempty, hfull⟩ := hcodes
  cases e with
  | eCksum => exact absurd rfl hcksum
  | eEmpty => exact absurd rfl hempty
  | eRxqFull => exact absurd rfl hfull
  | _ => decide

/-- Settles O8, from the outcomes of the effects. -/
theorem everyHostOperationHasADefinedOutcome : Obligations.EveryHostOperationHasADefinedOutcome := by
  unfold Obligations.EveryHostOperationHasADefinedOutcome
  intro w vals body i s hdec
  obtain ⟨t, hexec, heffect⟩ := exec_effect hdec s
  refine ⟨t, hexec, ?_⟩
  obtain ⟨r, hout⟩ | ⟨e, he, hout⟩ | hout := heffect.outcome
  · exact .inl ⟨⟨r, hout⟩, by rw [statusOut, hout]; rfl⟩
  · exact .inr (.inl ⟨e, statusByte e, hout, by rw [statusOut, hout]; rfl, statusByte_of_raisable he⟩)
  · exact .inr (.inr ⟨hout, by rw [statusOut, hout]; rfl⟩)

/-- Settles O9, from the inversion of a step. -/
theorem legalConfigurationNeverStops : Obligations.LegalConfigurationNeverStops := by
  unfold Obligations.LegalConfigurationNeverStops
  intro s hlegal
  obtain ⟨s', hstep, -⟩ := step_effect hlegal
  exact ⟨s', hstep⟩

/-- Settles O12: of the effects of a step, only FEED_BYTE's and RESET's write the buffer. -/
theorem configurationIsFixedAndBufferIsWrittenOnlyByFeedByteAndReset :
    Obligations.ConfigurationIsFixedAndBufferIsWrittenOnlyByFeedByteAndReset := by
  unfold Obligations.ConfigurationIsFixedAndBufferIsWrittenOnlyByFeedByteAndReset
  refine ⟨fun s s' h => step_cfg h, fun s s' h hbuf => ?_⟩
  cases stepEffect_of_step h with
  | idle => exact absurd rfl hbuf
  | skip rest => exact absurd rfl hbuf
  | reset a rest hsched hreq => exact ⟨a, rest, hsched, .inl hreq⟩
  | illegal a rest =>
    obtain ⟨-, hsame, -⟩ := completeOp_sameBlock a
      (({ s with schedule := rest } : State).hostError .eIllegalOp)
    exact absurd hsame hbuf
  | command a rest w vals body i t hsched hreq hdec heffect =>
    obtain ⟨-, hsame, -⟩ := completeOp_sameBlock a t
    obtain hkeep | ⟨b, rfl⟩ := heffect.buf
    · exact absurd (hsame.trans hkeep) hbuf
    · exact ⟨a, rest, hsched, .inr ⟨w, vals, body, b, hreq, hdec⟩⟩
  | sendAndWait a rest ty vals t hsched hreq heffect =>
    obtain ⟨-, hsame, -⟩ := continueWait_sameBlock a t
    obtain hkeep | ⟨b, hb⟩ := heffect.buf
    · exact absurd (hsame.trans hkeep) hbuf
    · cases hb

theorem length_of_encodeOut {c : Config} {t : Byte} {vals : List FieldValue} {bytes : List Byte}
    (hc : Legal c) (h : encodeOut c t vals = .ok bytes) : bytes.length ≤ 65534 := by
  obtain ⟨fields, bits, -, ⟨-, -, -, hbound⟩, -, hlen⟩ := encodeOut_ok_legal hc h
  omega

/-- A SEND_CMD that decodes carries the value list of its request. -/
theorem vals_of_decodeCommand_sendCmd {w : CommandWord} {vals vs : List FieldValue}
    {body : List Byte} {t : Byte} (h : decodeCommand w vals body = .ok (.sendCmd t vs)) :
    vs = vals := by
  obtain ⟨op, imm, -, hop⟩ := decodeCommand_eq_ok.1 h
  cases hop
  rfl

/-- Settles O13: only SEND_CMD emits, and what it emits is one frame of a body that encodes. -/
theorem egressGrowsByWholeFrames : Obligations.EgressGrowsByWholeFrames := by
  unfold Obligations.EgressGrowsByWholeFrames
  intro s s' h
  have hlegal := legal_of_step h
  cases stepEffect_of_step h with
  | idle => exact .inl rfl
  | skip rest => exact .inl rfl
  | reset a rest hsched hreq => exact .inl rfl
  | illegal a rest =>
    obtain ⟨-, -, -, -, -, -, -, hsame⟩ := completeOp_sameBlock a
      (({ s with schedule := rest } : State).hostError .eIllegalOp)
    exact .inl hsame
  | command a rest w vals body i t hsched hreq hdec heffect =>
    obtain ⟨-, -, -, -, -, -, -, hsame⟩ := completeOp_sameBlock a t
    obtain hkeep | ⟨ty, vs, bytes, rfl, henc, hemit⟩ := heffect.txs
    · exact .inl (hsame.trans hkeep)
    · obtain rfl := vals_of_decodeCommand_sendCmd hdec
      exact .inr ⟨a, rest, ty, bytes, hsched, hsame.trans hemit, length_of_encodeOut hlegal henc,
        .inl ⟨w, vs, body, hreq, hdec⟩⟩
  | sendAndWait a rest ty vals t hsched hreq heffect =>
    obtain ⟨-, -, -, -, -, -, -, hsame⟩ := continueWait_sameBlock a t
    obtain hkeep | ⟨ty', vs, bytes, hi, henc, hemit⟩ := heffect.txs
    · exact .inl (hsame.trans hkeep)
    · cases hi
      exact .inr ⟨a, rest, ty, bytes, hsched, hsame.trans hemit, length_of_encodeOut hlegal henc,
        .inr ⟨vals, hreq⟩⟩

/-- Settles O14: FEED_BYTE appends, GET_MSG takes the oldest, RESET empties, and nothing else writes the
queue. -/
theorem deliveryQueueIsFirstInFirstOut : Obligations.DeliveryQueueIsFirstInFirstOut := by
  unfold Obligations.DeliveryQueueIsFirstInFirstOut
  intro s s' h
  cases stepEffect_of_step h with
  | idle => exact .inl ⟨[], (List.append_nil _).symm⟩
  | skip rest => exact .inl ⟨[], (List.append_nil _).symm⟩
  | reset a rest hsched hreq => exact .inr (.inr ⟨rfl, a, rest, hsched, hreq⟩)
  | illegal a rest =>
    obtain ⟨-, -, hsame, -⟩ := completeOp_sameBlock a
      (({ s with schedule := rest } : State).hostError .eIllegalOp)
    exact .inl ⟨[], hsame.trans (List.append_nil _).symm⟩
  | command a rest w vals body i t hsched hreq hdec heffect =>
    obtain ⟨-, -, hsame, -⟩ := completeOp_sameBlock a t
    rw [hsame, completeOp_out]
    exact heffect.rxq.imp_right .inl
  | sendAndWait a rest ty vals t hsched hreq heffect =>
    obtain ⟨-, -, hsame, -⟩ := continueWait_sameBlock a t
    rw [hsame, continueWait_out]
    exact heffect.rxq.imp_right .inl

theorem run_two {s t u : State} (hs : step s = .next t) (ht : step t = .next u) :
    Sys2Proof.core.run 2 s = .next u := by
  simp [Host.Core.run, Sys2Proof.core, hs, ht]

/-- Settles O15. RESET keeps what the other agent has issued, so that operation runs at the next turn, in
the reset state: no command is pending there, and the delivery queue is empty. -/
theorem resetReleasesHeldWaitAckOnly : Obligations.ResetReleasesHeldWaitAckOnly := by
  unfold Obligations.ResetReleasesHeldWaitAckOnly
  intro s r a rest hlegal hne hsched hreset
  have hfirst := step_of_reset hlegal hsched hreset
  have hkept : nextRequest a (dropRequest r s.pending) = nextRequest a s.pending :=
    nextRequest_dropRequest_of_ne hne _
  refine ⟨fun hwait => ?_, fun hget => ?_⟩
  · have hsecond := step_of_command (s := runReset r { s with schedule := a :: rest }) hlegal rfl
      (hkept.trans hwait) (decodeCommand_of_encode rfl) (exec_waitAck_of_idle rfl)
    rw [completeOp_of_ended (by simp)] at hsecond
    exact ⟨_, run_two hfirst hsecond, rfl, rfl, rfl⟩
  · have hsecond := step_of_command (s := runReset r { s with schedule := a :: rest }) hlegal rfl
      (hkept.trans hget) (decodeCommand_of_encode rfl) (exec_getMsg_of_nil rfl)
    rw [completeOp_of_hold rfl] at hsecond
    exact ⟨_, run_two hfirst hsecond, rfl, rfl, hkept.trans hget⟩

/-- Settles O16. -/
theorem getMsgTakesTheOldestOrHolds : Obligations.GetMsgTakesTheOldestOrHolds := by
  unfold Obligations.GetMsgTakesTheOldestOrHolds
  exact ⟨decodeCommand_of_encode rfl, fun _ _ _ hrxq => exec_getMsg_of_cons hrxq,
    fun _ hrxq => exec_getMsg_of_nil hrxq⟩

/-- Settles O18, from the three outcomes of WAIT_ACK. -/
theorem waitAckReturnsAndClearsTheLatch : Obligations.WaitAckReturnsAndClearsTheLatch := by
  unfold Obligations.WaitAckReturnsAndClearsTheLatch
  exact ⟨decodeCommand_of_encode rfl,
    fun _ hpending hvalid => exec_waitAck_of_valid hpending hvalid,
    fun _ hpending hvalid => exec_waitAck_of_not_valid hpending hvalid,
    fun _ hidle => exec_waitAck_of_idle hidle⟩

/-- Settles O25: a code comes from the one effect that raises it, and each operation has its own. -/
theorem hostErrorWritesOnlyItsCounter : Obligations.HostErrorWritesOnlyItsCounter := by
  unfold Obligations.HostErrorWritesOnlyItsCounter
  intro w vals body i s t e hdec hexec hout
  obtain ⟨rfl, he⟩ := (hostEffect_of_exec hdec hexec).of_status hout
  refine ⟨rfl, ?_⟩
  cases i with
  | decodeMsg ty bs => exact .inl ⟨ty, bs, rfl, he⟩
  | sendCmd ty vs => exact .inr (.inl ⟨ty, vs, rfl, he⟩)
  | encodeMsg ty vs => exact .inr (.inr (.inl ⟨ty, vs, rfl, he⟩))
  | waitAck => exact .inr (.inr (.inr (.inl ⟨rfl, List.mem_singleton.1 he⟩)))
  | csrRead c => exact .inr (.inr (.inr (.inr ⟨c, rfl, List.mem_singleton.1 he⟩)))
  | _ => cases he

/-- What a pure operation answers in a state it answers again in the state it leaves: it reads nothing
that it writes, except that a read of CNT_HOST_ERR could show a count, and that read counts nothing. -/
theorem exec_pure_twice {i : Instr} (hi : PureOp i) (s : State) :
    (∃ r, exec i s = .next (s.respond r) ∧
      exec i (s.respond r) = .next ((s.respond r).respond r)) ∨
    (∃ e, exec i s = .next (s.hostError e) ∧
      exec i (s.hostError e) = .next ((s.hostError e).hostError e)) := by
  obtain ⟨c, rfl⟩ | ⟨ty, bs, rfl⟩ | ⟨ty, vs, rfl⟩ := hi
  · cases hcsr : csrValue s c with
    | none =>
      refine .inr ⟨_, exec_csrRead_of_unmapped hcsr, exec_csrRead_of_unmapped ?_⟩
      exact csrValue_eq_none.2 (csrValue_eq_none.1 hcsr)
    | some v => exact .inl ⟨_, exec_csrRead_of_mapped hcsr, exec_csrRead_of_mapped hcsr⟩
  · by_cases hlay : inLayout s.cfg ty = none
    · exact .inr ⟨_, exec_decodeMsg_of_unknown bs hlay, exec_decodeMsg_of_unknown bs hlay⟩
    · by_cases hlong : maxBody < bs.length
      · exact .inr ⟨_, exec_decodeMsg_of_long hlay hlong, exec_decodeMsg_of_long hlay hlong⟩
      · have hlen := Nat.le_of_not_lt hlong
        cases hdec : decodeIn s.cfg ty bs with
        | error e =>
          exact .inr ⟨e, exec_decodeMsg_of_error hlay hlen hdec,
            exec_decodeMsg_of_error hlay hlen hdec⟩
        | ok m => exact .inl ⟨_, exec_decodeMsg_of_ok hlen hdec, exec_decodeMsg_of_ok hlen hdec⟩
  · cases henc : encodeOut s.cfg ty vs with
    | error e => exact .inr ⟨e, exec_encodeMsg_of_error henc, exec_encodeMsg_of_error henc⟩
    | ok body => exact .inl ⟨_, exec_encodeMsg_of_ok henc, exec_encodeMsg_of_ok henc⟩

/-- Settles O26. -/
theorem pureOperationsAreRepeatable : Obligations.PureOperationsAreRepeatable := by
  unfold Obligations.PureOperationsAreRepeatable
  intro i s t u hi ht hu
  obtain ⟨r, hfirst, hsecond⟩ | ⟨e, hfirst, hsecond⟩ := exec_pure_twice hi s
  · cases ht.symm.trans hfirst
    cases hu.symm.trans hsecond
    exact ⟨rfl, rfl, fun _ _ => rfl⟩
  · cases ht.symm.trans hfirst
    cases hu.symm.trans hsecond
    refine ⟨rfl, rfl, fun k hk => ?_⟩
    rw [hostError_cnt, get_bump, if_neg hk.symm]

end Sys2Proof.Machine
end

section
/-! SUPPORT. What keeps a state sound: the forms that the dispatch keeps, the accounting of a scan step, and
the host's writes (10_state.md R31 to R35, R50, 42_codec.md R240). -/

namespace Sys2Proof.Machine

/-! ### The ingress path -/

/-- The parts of soundness that the dispatch of a frame keeps by itself. The accounting is not one: the
candidate is counted before the dispatch counts its outcome (log 6). -/
structure FormsSound (s : State) : Prop where
  legal : Legal s.cfg
  rxqBound : s.rxq.length ≤ s.cfg.rxqDepth
  ackForm : AckForm s.ack
  dropForm : DropForm s.lastDrop
  typed : ∀ m ∈ s.rxq, messageTyped s.cfg m = true

theorem ackForm_clear : AckForm AckLatch.clear := ⟨fun _ => rfl, fun _ => rfl⟩

/-- A latched acknowledgement has an echo exactly where its frame had a body (R33). -/
theorem ackForm_latched (k : AckKind) (body : List Byte) :
    AckForm ⟨true, k, !body.isEmpty, body.headD 0⟩ := by
  cases body with
  | nil => exact ⟨nofun, fun _ => rfl⟩
  | cons b rest => exact ⟨nofun, nofun⟩

/-- The drop codes with a type byte are 0x03 to 0x07 (R35). -/
theorem dropForm_typed {e : StatusCode} (t : Byte)
    (he : e ∈ [StatusCode.eUnknownType, .eDecLength, .eDecEnum, .eDecCount, .eRxqFull]) :
    DropForm ⟨statusByte e, t, true⟩ := by
  have hbyte : 3 ≤ (statusByte e).toNat ∧ (statusByte e).toNat ≤ 7 := by
    revert he
    cases e <;> decide
  exact ⟨hbyte.2, ⟨fun _ => hbyte.1, fun _ => rfl⟩, nofun⟩

theorem dropForm_untyped {e : StatusCode} (he : e = .eCksum ∨ e = .eEmpty) :
    DropForm ⟨statusByte e, 0, false⟩ := by
  obtain rfl | rfl := he
  · exact ⟨by decide, by decide, fun _ => rfl⟩
  · exact ⟨by decide, by decide, fun _ => rfl⟩

theorem dropForm_zero : DropForm ⟨0, 0, false⟩ := ⟨by decide, by decide, fun _ => rfl⟩

theorem FormsSound.dropped {s : State} (h : FormsSound s) (k : CounterId) {e : StatusCode} (t : Byte)
    (he : e ∈ [StatusCode.eUnknownType, .eDecLength, .eDecEnum, .eDecCount, .eRxqFull]) :
    FormsSound ((s.bump k).drop e t true) :=
  ⟨h.legal, h.rxqBound, h.ackForm, dropForm_typed t he, h.typed⟩

theorem FormsSound.latched {s : State} (h : FormsSound s) (c : CounterId) (k : AckKind)
    (body : List Byte) : FormsSound ((s.latchAck k body).bump c) :=
  ⟨h.legal, h.rxqBound, ackForm_latched k body, h.dropForm, h.typed⟩

/-- A queue that is not full has room for one more message of its type. -/
theorem FormsSound.enqueued {s : State} (h : FormsSound s) (c : CounterId) {m : MsgValue}
    (hroom : s.rxq.length ≠ s.cfg.rxqDepth) (hm : messageTyped s.cfg m = true) :
    FormsSound ((s.enqueue m).bump c) where
  legal := h.legal
  rxqBound := by
    have hbound := h.rxqBound
    show (s.rxq ++ [m]).length ≤ s.cfg.rxqDepth
    rw [List.length_append, List.length_singleton]
    omega
  ackForm := h.ackForm
  dropForm := h.dropForm
  typed := List.forall_mem_append.2 ⟨h.typed, List.forall_mem_singleton.2 hm⟩

theorem FormsSound.dispatchFrame {s : State} (h : FormsSound s) (t : Byte) (body : List Byte) :
    FormsSound (dispatchFrame t body s) := by
  obtain ⟨-, heq⟩ | ⟨-, heq⟩ | ⟨-, -, heq⟩ := dispatchFrame_cases t body s <;> rw [heq]
  · exact h.latched .ack .ack body
  · exact h.latched .nack .nack body
  · obtain ⟨-, heq⟩ | ⟨lay, e, -, hdec, heq⟩ | ⟨lay, v, -, -, -, heq⟩ |
      ⟨lay, v, hlay, hdec, hroom, heq⟩ := decodeAndDeliver_cases t body s <;> rw [heq]
    · exact h.dropped .unknown t (by decide)
    · have he : e ∈ [StatusCode.eDecLength, .eDecEnum, .eDecCount] := decodeLayout_error hdec
      refine h.dropped .decodeErr t ?_
      revert he
      cases e <;> decide
    · exact h.dropped .rxqDrop t (by decide)
    · exact h.enqueued .delivered hroom
        (messageTyped_of_decodeIn h.legal (decodeIn_eq_ok.2 ⟨lay, hlay, hdec⟩))

theorem FormsSound.handleCandidate {s : State} (h : FormsSound s) (k : Candidate) :
    FormsSound (handleCandidate k s) := by
  have hcounted (c : CounterId) : FormsSound ((s.consume (k.t + 2)).bump c) :=
    ⟨h.legal, h.rxqBound, h.ackForm, h.dropForm, h.typed⟩
  obtain ⟨-, heq⟩ | ⟨-, -, heq⟩ | ⟨t, body, -, -, heq⟩ := handleCandidate_cases k s <;> rw [heq]
  · exact ⟨h.legal, h.rxqBound, h.ackForm, dropForm_untyped (.inl rfl), h.typed⟩
  · exact ⟨h.legal, h.rxqBound, h.ackForm, dropForm_untyped (.inr rfl), h.typed⟩
  · exact (hcounted .framesOk).dispatchFrame t body

/-- A scan step counts a valid candidate once on each side of the accounting of R50. -/
theorem scanStep_accounting {s s' : State} (h : scanStep s = some s')
    (hs : s.cnt.framesOk = outcomeSum s.cnt) : s'.cnt.framesOk = outcomeSum s'.cnt := by
  obtain hcnt | ⟨k, hk, hcnt⟩ := scanStep_cnt h <;> rw [hcnt]
  · exact hs
  · obtain ⟨hframes, hsum⟩ : ((s.cnt.bump .framesOk).bump k).framesOk = s.cnt.framesOk + 1 ∧
        outcomeSum ((s.cnt.bump .framesOk).bump k) = outcomeSum s.cnt + 1 := by
      simp only [List.mem_cons, List.not_mem_nil, or_false] at hk
      rcases hk with rfl | rfl | rfl | rfl | rfl | rfl | rfl <;>
        exact ⟨rfl, by simp only [outcomeSum, Counters.bump]; ring⟩
    rw [hframes, hsum, hs]

theorem scan_formsSound {s : State} (h : FormsSound s)
    (hcnt : s.cnt.framesOk = outcomeSum s.cnt) :
    FormsSound (scan s) ∧ (scan s).cnt.framesOk = outcomeSum (scan s).cnt := by
  refine scan_induct (P := fun u => FormsSound u ∧ u.cnt.framesOk = outcomeSum u.cnt)
    (fun u u' hstep ⟨hu, hacc⟩ => ⟨?_, scanStep_accounting hstep hacc⟩) ⟨h, hcnt⟩
  obtain ⟨k, -, rfl⟩ := scanStep_eq_some.1 hstep
  exact hu.handleCandidate k

theorem sound_feedByte {s : State} (h : Sound s) (b : Byte) : Sound (feedByte b s) := by
  obtain ⟨⟨hcap, -⟩, -⟩ := legal_capacities h.legal
  obtain ⟨n, lost, -, hevict⟩ := evict_eq s
  have hforms : FormsSound (appendByte b (evict s)) := by
    rw [hevict]
    exact ⟨h.legal, h.rxqBound, h.ackForm, h.dropForm, h.typed⟩
  have hcnt : (appendByte b (evict s)).cnt.framesOk = outcomeSum (appendByte b (evict s)).cnt := by
    rw [hevict]
    exact h.accounting
  obtain ⟨hscan, haccounting⟩ := scan_formsSound hforms hcnt
  exact {
    legal := hscan.legal
    bufBound := by
      rw [feedByte_cfg]
      exact feedByte_buf_length_le (by omega) h.bufBound
    rxqBound := hscan.rxqBound
    quiescent := quiescent_scan _
    ackForm := hscan.ackForm
    dropForm := hscan.dropForm
    accounting := haccounting
    typed := hscan.typed }

/-! ### The host operations and the steps -/

/-- Whether the scan waits depends on the buffer alone. -/
theorem quiescent_of_buf_eq {s s' : State} (h : Quiescent s) (hbuf : s'.buf = s.buf) :
    Quiescent s' :=
  scanStep_eq_none.2 (hbuf ▸ scanStep_eq_none.1 h)

/-- Soundness is about the block: the model's own fields have no part in it. -/
theorem sound_of_sameBlock {s s' : State} (h : Sound s) (hsame : SameBlock s s') : Sound s' := by
  obtain ⟨hcfg, hbuf, hrxq, hack, -, hdrop, hcnt, -⟩ := hsame
  exact {
    legal := hcfg ▸ h.legal
    bufBound := by rw [hbuf, hcfg]; exact h.bufBound
    rxqBound := by rw [hrxq, hcfg]; exact h.rxqBound
    quiescent := quiescent_of_buf_eq h.quiescent hbuf
    ackForm := hack ▸ h.ackForm
    dropForm := hdrop ▸ h.dropForm
    accounting := by rw [hcnt]; exact h.accounting
    typed := by rw [hrxq, hcfg]; exact h.typed }

/-- An operation that writes no ingress element but clears the latch keeps a state sound. -/
theorem sound_clearAck {s : State} (h : Sound s) : Sound s.clearAck :=
  ⟨h.legal, h.bufBound, h.rxqBound, quiescent_of_buf_eq h.quiescent rfl, ackForm_clear, h.dropForm,
    h.accounting, h.typed⟩

/-- The two counters of the host have no part in the accounting of R50. -/
theorem sound_bump_host {s : State} (h : Sound s) {k : CounterId}
    (hk : k = .txFrames ∨ k = .hostErr) :
    Sound (s.bump k) := by
  have haccounting : (s.cnt.bump k).framesOk = outcomeSum (s.cnt.bump k) := by
    obtain rfl | rfl := hk <;> exact h.accounting
  exact ⟨h.legal, h.bufBound, h.rxqBound, quiescent_of_buf_eq h.quiescent rfl, h.ackForm, h.dropForm,
    haccounting, h.typed⟩

/-- The egress log, the command state and the outcome port are free in a sound state. -/
theorem sound_with_host {s : State} (h : Sound s) (cmd : CmdState) (txs : List Byte)
    (out : OpOutcome) :
    Sound { s with cmd := cmd, txs := txs, out := out } :=
  ⟨h.legal, h.bufBound, h.rxqBound, quiescent_of_buf_eq h.quiescent rfl, h.ackForm, h.dropForm,
    h.accounting, h.typed⟩

/-- Taking the oldest message leaves a shorter queue of the same messages. -/
theorem sound_takeMsg {s : State} (h : Sound s) {v : MsgValue} {rest : List MsgValue}
    (hrxq : s.rxq = v :: rest) : Sound { s with rxq := rest } := by
  have hbound := h.rxqBound
  have htyped := h.typed
  rw [hrxq, List.length_cons] at hbound
  rw [hrxq] at htyped
  exact ⟨h.legal, h.bufBound, Nat.le_of_succ_le hbound, quiescent_of_buf_eq h.quiescent rfl,
    h.ackForm, h.dropForm, h.accounting, fun m hm => htyped m (List.mem_cons_of_mem v hm)⟩

theorem HostEffect.sound {s t : State} {i : Instr} (h : HostEffect s i t) (hs : Sound s) :
    Sound t := by
  cases h with
  | feed b => exact sound_with_host (sound_feedByte hs b) _ _ _
  | takeMsg v rest hrxq => exact sound_with_host (sound_takeMsg hs hrxq) _ _ _
  | holdMsg | holdAck | answer => exact sound_with_host hs _ _ _
  | send ty vals body henc =>
    exact sound_with_host (sound_bump_host (sound_clearAck hs) (.inl rfl)) _ _ _
  | takeAck | abandon => exact sound_with_host (sound_clearAck hs) _ _ _
  | raise i e he => exact sound_with_host (sound_bump_host hs (.inr rfl)) _ _ _

/-- The reset state under a legal configuration: everything is empty or 0 (70_reset_and_hazards.md
R390). -/
theorem sound_resetWith {c : Config} (hc : Legal c) : Sound (State.resetWith c) where
  legal := hc
  bufBound := Nat.zero_le _
  rxqBound := Nat.zero_le _
  quiescent := quiescent_of_buf_nil rfl
  ackForm := ackForm_clear
  dropForm := dropForm_zero
  accounting := rfl
  typed := nofun

end Sys2Proof.Machine
end

section
/-! PROOFS. The statements about soundness (10_state.md, 70_reset_and_hazards.md R390). -/

namespace Sys2Proof.Machine

/-- Settles O2. -/
theorem resetStateIsSound : Obligations.ResetStateIsSound := by
  unfold Obligations.ResetStateIsSound
  have hdefault : Legal defaultConfig := by decide
  exact ⟨fun c hc => sound_resetWith hc, hdefault, sound_resetWith hdefault⟩

/-- Settles O3: every effect of a step keeps the block sound, and the end of an operation writes the
model's own fields only. -/
theorem everyStepKeepsTheStateSound : Obligations.EveryStepKeepsTheStateSound := by
  unfold Obligations.EveryStepKeepsTheStateSound
  intro s s' hs hstep
  have hturn (rest : List Agent) : Sound { s with schedule := rest } :=
    sound_of_sameBlock hs ⟨rfl, rfl, rfl, rfl, rfl, rfl, rfl, rfl⟩
  cases stepEffect_of_step hstep with
  | idle => exact hs
  | skip rest => exact hturn rest
  | reset a rest =>
    exact sound_of_sameBlock (sound_with_host (sound_resetWith hs.legal) _ s.txs .none)
      ⟨rfl, rfl, rfl, rfl, rfl, rfl, rfl, rfl⟩
  | illegal a rest =>
    exact sound_of_sameBlock (sound_with_host (sound_bump_host (hturn rest) (.inr rfl)) _ _ _)
      (completeOp_sameBlock a _)
  | command a rest w vals body i t hsched hreq hdec heffect =>
    exact sound_of_sameBlock (heffect.sound (hturn rest)) (completeOp_sameBlock a t)
  | sendAndWait a rest ty vals t hsched hreq heffect =>
    exact sound_of_sameBlock (heffect.sound (hturn rest)) (continueWait_sameBlock a t)

end Sys2Proof.Machine
end
